-- ==== Sys2Proof/Word.lean ====
section
/-! DEFINITION. The word types of the engine (00_scope.md R8, R9): registers are 32 bits wide, data memory holds bytes. -/

namespace Sys2Proof

/-- One byte of data memory. -/
abbrev Byte := BitVec 8

/-- One register, or one command word (`REG_BITS` = 32, 00_scope.md R8). -/
abbrev Word := BitVec 32

end Sys2Proof
end

