-- ==== Sys2Proof/Machine/Numerics.lean ====
section
/-! DEFINITION. The numeric primitives of 40_numerics.md. A finite value is held exactly, as a sign and a natural number of units
of 2^-149 (the smallest binary32 subnormal), so that products and sums are exact integers and each rounding stands in one
place. A NaN inside the engine carries no payload: the spec leaves it unspecified and unobservable (R118, U5; log 16). -/

namespace Sys2Proof.Machine

/-- A binary32 value (40_numerics.md R110): `fin neg mag` is (-1)^neg * mag * 2^-149. -/
inductive F32 where
  | nan
  | inf (neg : Bool)
  | fin (neg : Bool) (mag : Nat)
deriving DecidableEq, Repr

/-- The value a binary32 bit pattern stands for (40_numerics.md R110). -/
def F32.ofBits (b : Word) : F32 :=
  let neg := b.getLsbD 31
  let e := (b.extractLsb' 23 8).toNat
  let f := (b.extractLsb' 0 23).toNat
  if e = 255 then (if f = 0 then .inf neg else .nan)
  else if e = 0 then .fin neg f
  else .fin neg ((2 ^ 23 + f) * 2 ^ (e - 1))

/-- Exponent and fraction fields, as one number, of a magnitude that binary32 represents (40_numerics.md R110). -/
def packMag (mag : Nat) : Nat :=
  let t := mag.log2 - 23
  t * 2 ^ 23 + mag / 2 ^ t

/-- The sign bit in place (40_numerics.md R110). -/
def signBit (neg : Bool) : Nat := if neg then 2 ^ 31 else 0

/-- `canon32(x)` (40_numerics.md R119). -/
def canon32 : F32 → Word
  | .nan => 0x7FC00000#32
  | .inf neg => BitVec.ofNat 32 (signBit neg + 0x7F800000)
  | .fin neg mag => BitVec.ofNat 32 (signBit neg + packMag mag)

/-- n * 2^-d units of 2^-149, rounded to nearest, ties to even, with 24 significant bits and no bit below 2^-149, in units of
2^-149 (40_numerics.md R114, R117). Irreducible for the elaborator alone, which would count its shifts down one by one. -/
@[irreducible] def roundMag (n d : Nat) : Nat :=
  let drop := max (n.log2 - 23) d
  let kept := n / 2 ^ drop
  let rest := n % 2 ^ drop
  let up := decide (2 ^ drop < 2 * rest) || (decide (2 * rest = 2 ^ drop) && decide (kept % 2 = 1))
  (if up then kept + 1 else kept) * 2 ^ (drop - d)

/-- 2^128 in units of 2^-149: the first magnitude beyond the finite binary32 values (40_numerics.md R110). -/
def f32Limit : Nat := 2 ^ 128 * 2 ^ 149

/-- (-1)^neg * n * 2^-d units of 2^-149 rounded to binary32; a rounded magnitude beyond the largest finite value is an
infinity (40_numerics.md R115, R116). -/
def roundF32 (neg : Bool) (n d : Nat) : F32 :=
  if roundMag n d < f32Limit then .fin neg (roundMag n d) else .inf neg

/-- `f16_to_f32(h)` (40_numerics.md R111, R112): exact. One unit of binary16 is 2^-24, which is 2^125 units of 2^-149. -/
def f16ToF32 (h : BitVec 16) : F32 :=
  let neg := h.getLsbD 15
  let e := (h.extractLsb' 10 5).toNat
  let f := (h.extractLsb' 0 10).toNat
  if e = 31 then (if f = 0 then .inf neg else .nan)
  else if e = 0 then .fin neg (f * 2 ^ 125)
  else .fin neg ((2 ^ 10 + f) * 2 ^ (e - 1) * 2 ^ 125)

/-- `int_to_f32(v)` for -128 ≤ v ≤ 255: exact, and +0 for 0 (40_numerics.md R113). -/
def intToF32 (v : Int) : F32 := .fin (decide (v < 0)) (v.natAbs * 2 ^ 149)

/-- `mul32(x, y)` (40_numerics.md R115). The product of two magnitudes is in units of 2^-298, that is of 2^-149 units of
2^-149. -/
def mul32 : F32 → F32 → F32
  | .nan, _ => .nan
  | _, .nan => .nan
  | .inf a, .inf b => .inf (a ^^ b)
  | .inf a, .fin b n => if n = 0 then .nan else .inf (a ^^ b)
  | .fin a m, .inf b => if m = 0 then .nan else .inf (a ^^ b)
  | .fin a m, .fin b n => roundF32 (a ^^ b) (m * n) 149

/-- The exact value of `fin neg mag` in units of 2^-149. -/
def signedMag (neg : Bool) (mag : Nat) : Int := if neg then -(mag : Int) else mag

/-- `add32(x, y)` (40_numerics.md R116). An exact zero sum is -0 only for two negative zeros. -/
def add32 : F32 → F32 → F32
  | .nan, _ => .nan
  | _, .nan => .nan
  | .inf a, .inf b => if a = b then .inf a else .nan
  | .inf a, .fin _ _ => .inf a
  | .fin _ _, .inf b => .inf b
  | .fin a m, .fin b n =>
    let z := signedMag a m + signedMag b n
    if z = 0 then .fin (a && b) 0 else roundF32 (decide (z < 0)) z.natAbs 0

/-- The running sum of `dot32` after the products 0 to k (40_numerics.md R121). -/
def dotThrough (a w : Nat → F32) : Nat → F32
  | 0 => mul32 (a 0) (w 0)
  | k + 1 => add32 (dotThrough a w k) (mul32 (a (k + 1)) (w (k + 1)))

/-- `dot32(a, w, K)`, K ≥ 1: ascending k, unfused, starting from the first product (40_numerics.md R121, R122). -/
def dot32 (a w : Nat → F32) (K : Nat) : F32 := dotThrough a w (K - 1)

end Sys2Proof.Machine
end

