-- ==== Sys2Proof/Syntax.lean ====
section
/-! DEFINITION. The command set (30_encoding.md R93, R102): one constructor for each row of spec/opcode_table.json. A command
word encodes no operand (R90): the operands are the descriptor slots, by the roles of R95, and BLOCK. -/

namespace Sys2Proof

/-- The six commands of 30_encoding.md R93. -/
inductive Instr where
  /-- `mmtfp`, OP 0x1 (43_matmul.md R150). -/
  | mmtfp
  /-- `mmt_block_scaled_q8`, OP 0x2 (43_matmul.md R151). -/
  | mmtQ8
  /-- `mmt_block_scaled_offset_q4_unsigned`, OP 0x3 (43_matmul.md R152). -/
  | mmtQ4
  /-- `promote_linear_i4_block_to_i8`, OP 0x4 (41_unpack.md R130). -/
  | unpackI4
  /-- `dequant_block_scaled_q8`, OP 0x5 (42_dequant.md R142). -/
  | dequantQ8
  /-- `dequant_block_scaled_offset_q4_unsigned`, OP 0x6 (42_dequant.md R143). -/
  | dequantQ4
deriving DecidableEq, Repr

end Sys2Proof
end

