-- ==== Sys2Proof/WellFormed.lean ====
section
/-! DEFINITION. When an instruction, and when a command word, is well formed (30_encoding.md R91, R93, R96, R97). -/

namespace Sys2Proof

/-- A command has no operand field (30_encoding.md R90), so no field of it can be out of range. -/
def Instr.wellFormed : Instr → Bool
  | .mmtfp => true
  | .mmtQ8 => true
  | .mmtQ4 => true
  | .unpackI4 => true
  | .dequantQ8 => true
  | .dequantQ4 => true

/-- The OP field of the word, bits 3:0, is one of 0x1 to 0x6 (30_encoding.md R93, R96). -/
def opAssigned (w : Word) : Bool := decide (1 ≤ w.toNat % 16) && decide (w.toNat % 16 ≤ 6)

/-- The reserved field of the word, bits 31:4, is 0 (30_encoding.md R91, R97). -/
def rsvdClear (w : Word) : Bool := w.toNat / 16 == 0

/-- The word selects a command (30_encoding.md R93). -/
def wordWellFormed (w : Word) : Bool := opAssigned w && rsvdClear w

end Sys2Proof
end

