-- ==== Sys2Proof/Decode.lean ====
section
/-! DEFINITION. The decoder of 30_encoding.md R101, total on every 32-bit word, and the encoder of R102. -/

namespace Sys2Proof

/-- Field OP of a command word, bits 3:0 (30_encoding.md R91). -/
def fieldOp (w : Word) : BitVec 4 := w.extractLsb' 0 4

/-- Field RSVD of a command word, bits 31:4 (30_encoding.md R91). -/
def fieldRsvd (w : Word) : BitVec 28 := w.extractLsb' 4 28

/-- Why a word is no command (30_encoding.md R96, R97, R101). -/
inductive IllegalCmd where
  /-- OP is 0x0 or 0x7 to 0xF: check 0x01. -/
  | opReserved
  /-- OP is assigned and a bit of RSVD is set: check 0x02. -/
  | rsvdBits
deriving DecidableEq, Repr

/-- The decoder's answer: a command, or a rejection by name. -/
inductive Decoded where
  | command (i : Instr)
  | illegal (why : IllegalCmd)
deriving DecidableEq, Repr

/-- The opcode map (30_encoding.md R93). -/
def instrOfOp (op : BitVec 4) : Option Instr :=
  match op.toNat with
  | 0x1 => some .mmtfp
  | 0x2 => some .mmtQ8
  | 0x3 => some .mmtQ4
  | 0x4 => some .unpackI4
  | 0x5 => some .dequantQ8
  | 0x6 => some .dequantQ4
  | _ => none

/-- `decode(w)` of 30_encoding.md R101: the OP test comes before the RSVD test. -/
def decode (w : Word) : Decoded :=
  match instrOfOp (fieldOp w) with
  | none => .illegal .opReserved
  | some i => if fieldRsvd w = 0#28 then .command i else .illegal .rsvdBits

/-- The opcode of a command (30_encoding.md R93). -/
def opcode : Instr → BitVec 4
  | .mmtfp => 0x1#4
  | .mmtQ8 => 0x2#4
  | .mmtQ4 => 0x3#4
  | .unpackI4 => 0x4#4
  | .dequantQ8 => 0x5#4
  | .dequantQ4 => 0x6#4

/-- The command word of a command: OP in bits 3:0, the reserved bits 0 (30_encoding.md R91, R102). -/
def encode (i : Instr) : Word := 0#28 ++ opcode i

/-- The instruction the decoder reads from an instruction of `nbits` bits whose bits are `w` (the bits above `nbits` are
0). A command is one 32-bit register value, so there is no byte order to choose (20_memory.md R61). -/
def decodeTableWord (nbits w : Nat) : Option Instr :=
  let bits := w % 2 ^ nbits
  if bits < 2 ^ 32 then
    match decode (BitVec.ofNat 32 bits) with
    | .command i => some i
    | .illegal _ => none
  else none

end Sys2Proof
end

