-- ==== Sys2Proof/Config.lean ====
section
/-! DEFINITION. What is fixed for one engine (00_scope.md R8) and the values the spec leaves free. -/

namespace Sys2Proof.Config

/-- `Q8_BLOCK` (00_scope.md R8). -/
def q8Block : Nat := 32

/-- The size of the data address space, 2^`ADDR_BITS` bytes (00_scope.md R8, 20_memory.md R60). -/
def addrSpace : Nat := 2 ^ 64

/-- The register block is 4096 bytes long (10_state.md R23). -/
def registerBlockBytes : Nat := 4096

/-- `ID_VALUE`, ASCII `QGE1` (10_state.md R24). -/
def idValue : Word := 0x51474531#32

/-- `VERSION_VALUE` (10_state.md R25). -/
def versionValue : Word := 0x00000001#32

/-- The 4 KiB page of the Host's MMIO space in which the platform has placed the register block: OPEN in the spec
(00_scope.md R8, D3), so it has no value here (log 4). -/
opaque enginePage : Nat

/-- `ENGINE_BASE`, 4 KiB aligned by construction (00_scope.md R8, 10_state.md R23). -/
def engineBase : Nat := 4096 * enginePage

/-- The free value of a byte the spec leaves unspecified ("any value": 20_memory.md R78, R79,
70_reset_and_hazards.md R202): `freeByte draw a` is what the byte at address `a` holds or reads as in the `draw`-th
group of such bytes. It has no body: nothing can be proved of it (log 8). -/
opaque freeByte : Nat → Nat → Byte

/-- What a byte of data memory that nothing has written reads as. DESIGN CHOICE (log 1): the spec gives data memory no
power-on contents; its programs say "Data memory not stored to is 0" (95_test_vectors.md part 3). -/
def unlistedByte : Byte := 0#8

end Sys2Proof.Config
end

