-- ==== Sys2Proof/Machine/State.lean ====
section
/-! DEFINITION. The state of the machine as plain data: the engine's registers and hidden state (10_state.md R20 to R45), the
data memory (20_memory.md R60), the platform's parameter `Admit` (20_memory.md R68), the Host and its script
(30_encoding.md R103), and the events that say which agent moves next. -/

namespace Sys2Proof.Machine

/-- A tensor descriptor slot (10_state.md R32 to R36): six words, DESC held as its two fields. -/
structure Slot where
  addrLo : Word
  addrHi : Word
  dtype : BitVec 4
  rank : BitVec 2
  dim0 : Word
  dim1 : Word
  dim2 : Word
deriving DecidableEq, Repr

/-- A slot after reset (10_state.md R45). -/
def Slot.zero : Slot := ⟨0#32, 0#32, 0#4, 0#2, 0#32, 0#32, 0#32⟩

/-- The five slots S0 to S4 (10_state.md R32). -/
structure Slots where
  s0 : Slot
  s1 : Slot
  s2 : Slot
  s3 : Slot
  s4 : Slot
deriving DecidableEq, Repr

/-- The slots after reset (10_state.md R45). -/
def Slots.zero : Slots := ⟨.zero, .zero, .zero, .zero, .zero⟩

/-- The copy of CMD, BLOCK and S0 to S4 taken at an accepted start (10_state.md R40). -/
structure Snapshot where
  cmd : Word
  block : Word
  slots : Slots
deriving DecidableEq, Repr

/-- The snapshot field when no command is in flight after reset. The spec leaves it undefined and unobservable
(10_state.md R40, R45, U18). DESIGN CHOICE (log 2). -/
def Snapshot.zero : Snapshot := ⟨0#32, 0#32, .zero⟩

/-- The element types (30_encoding.md R94). -/
inductive DType where
  | f32
  | f16
  | i8
  | u8
deriving DecidableEq, Repr

/-- The kind of an engine access (20_memory.md R68). -/
inductive AccessKind where
  | read
  | write
deriving DecidableEq, Repr

/-- The error classes of 60_exceptions.md R173. `overflowError` is reserved and never raised (R183). -/
inductive ErrClass where
  | illegalCmd
  | dtypeError
  | shapeError
  | overflowError
  | alignError
  | accessFault
  | overlapError
deriving DecidableEq, Repr

/-- The start checks of 60_exceptions.md R174, in the order of R175 and R176. -/
inductive CheckId where
  | opReserved
  | cmdRsvdBits
  | dtypeNotAllowed
  | rankNotAllowed
  | dimZero
  | blockIllegal
  | packedDimMismatch
  | scaleShapeMismatch
  | kNotDivisible
  | innerDimMismatch
  | outputShapeMismatch
  | misaligned
  | rangeWrap
  | notAdmitted
  | outputOverlap
deriving DecidableEq, Repr

/-- A failed check and the slot it concerns, 7 for no slot (10_state.md R29, 60_exceptions.md R179). -/
structure Failure where
  check : CheckId
  slot : BitVec 3
deriving DecidableEq, Repr

/-- The words of a slot that hold something (10_state.md R32). -/
inductive SlotWord where
  | addrLo
  | addrHi
  | desc
  | dim0
  | dim1
  | dim2
deriving DecidableEq, Repr

/-- The registers of the block (10_state.md R23); `reserved` stands for every reserved offset (R37). -/
inductive Reg where
  | id
  | version
  | ctrl
  | status
  | errCode
  | errInfo
  | cmd
  | block
  | slot (s : Fin 5) (w : SlotWord)
  | reserved
deriving DecidableEq, Repr

/-- What the platform says of a range of data addresses. -/
inductive Restriction where
  /-- the engine may not read it (20_memory.md R68) -/
  | noRead
  /-- the engine may not write it (20_memory.md R68) -/
  | noWrite
  /-- reads of it have side effects (20_memory.md R72) -/
  | readSensitive
deriving DecidableEq, Repr

/-- A range of data addresses under a restriction. -/
structure PlatformRange where
  base : Nat
  size : Nat
  restriction : Restriction
deriving DecidableEq, Repr

/-- The platform parameter `Admit` and the places of read-sensitive devices (20_memory.md R68, R72), as the ranges that are
restricted: any predicate on the finite address space is such a list (log 3). -/
abbrev Platform := List PlatformRange

/-- Data memory: (address, byte) pairs, addresses strictly rising, no byte equal to what an unlisted address reads as. -/
abbrev Memory := List Host.Cell

/-- The base lines of a Host script (30_encoding.md R103). Register accesses carry a width in bits and an offset from
ENGINE_BASE, so that the accesses R38 leaves undefined can be written down. Names and labels are numbers (log 12). -/
inductive HostInstr where
  /-- `wr REG, imm32` -/
  | wr (width offset : Nat) (value : Word)
  /-- `rd REG -> name` -/
  | rd (width offset : Nat) (name : Nat)
  /-- `poll REG, mask, val` -/
  | poll (offset : Nat) (mask value : Word)
  /-- `if name.FIELD = v goto label`, FIELD being bits hi:lo -/
  | ifGoto (name hi lo value label : Nat)
  /-- `label:` -/
  | label (l : Nat)
  /-- `mem.w32 addr, imm32` -/
  | memW32 (addr : BitVec 64) (value : Word)
  /-- `mem.w16 addr, imm16` -/
  | memW16 (addr : BitVec 64) (value : BitVec 16)
  /-- `mem.w8 addr, imm8` -/
  | memW8 (addr : BitVec 64) (value : Byte)
  /-- `mem.r32 addr -> name` -/
  | memR32 (addr : BitVec 64) (name : Nat)
deriving DecidableEq, Repr

/-- What happens next (log 5). -/
inductive Event where
  /-- the Host performs its next script line -/
  | host
  /-- the Engine checks, executes and completes the command in flight (60_exceptions.md R170) -/
  | engine
  /-- a Host line and the completion happen together (10_state.md R27) -/
  | together
  /-- power-on reset, an input from the platform (70_reset_and_hazards.md R200) -/
  | powerOn
  /-- the platform changes its restrictions, which it may do only while no command is in flight (20_memory.md R68) -/
  | remap (p : Platform)
deriving DecidableEq, Repr

/-- The machine. -/
structure State where
  /-- CTRL.IRQ_EN (10_state.md R26) -/
  irqEn : Bool
  /-- STATUS.BUSY (10_state.md R27) -/
  busy : Bool
  /-- STATUS.DONE (10_state.md R27) -/
  done : Bool
  /-- STATUS.ERROR (10_state.md R27) -/
  error : Bool
  /-- STATUS.OVERRUN (10_state.md R27) -/
  overrun : Bool
  /-- ERR_CODE.CODE (10_state.md R28) -/
  errCode : BitVec 8
  /-- ERR_INFO.CHECK (10_state.md R29) -/
  errCheck : BitVec 8
  /-- ERR_INFO.SLOT (10_state.md R29) -/
  errSlot : BitVec 3
  /-- CMD (10_state.md R31) -/
  cmd : Word
  /-- BLOCK (10_state.md R30) -/
  block : Word
  /-- S0 to S4 (10_state.md R32) -/
  slots : Slots
  /-- the snapshot of the command in flight (10_state.md R40); read only while `busy` (log 2) -/
  snap : Snapshot
  /-- the Host has written a byte of a region of the command in flight (20_memory.md R78, R79; log 9) -/
  tainted : Bool
  /-- data memory (20_memory.md R60) -/
  mem : Memory
  /-- `Admit` and the read-sensitive ranges (20_memory.md R68, R72) -/
  platform : Platform
  /-- the Host's script (30_encoding.md R103) -/
  script : List HostInstr
  /-- the number of the script line the Host performs next -/
  line : Nat
  /-- the values bound to names by `rd` and `mem.r32`, newest first -/
  binds : List (Nat × Word)
  /-- the events to come, oldest first (log 5) -/
  events : List Event
  /-- how many groups of unspecified bytes have been drawn (log 8) -/
  draws : Nat
deriving DecidableEq, Repr

/-- Why a step stops with a fault. -/
inductive Fault where
  /-- Raised by the Host's `mem.w*` and `mem.r32` for a byte at 2^64 or beyond, which does not exist (20_memory.md R60).
  Safe: the access has no effect here (log 14). -/
  | hostAccessOutsideDataMemory
deriving DecidableEq, Repr

/-- Why a step is refused. -/
inductive Refusal where
  /-- Raised by an arm of `exec` that has no meaning: none is left. Safe. -/
  | notModelled (mnemonic : String)
  /-- Raised by the Host's `wr` and `rd` of another width than 32 bits: "a model refuses it" (10_state.md R38, U7). Safe. -/
  | registerAccessWidth
  /-- Raised by the Host's register accesses at an offset that is no multiple of 4 (10_state.md R38, U7). Safe. -/
  | registerAccessMisaligned
  /-- Raised by the Host's register accesses beyond the 4096 bytes of the block (10_state.md R23; log 21). Safe. -/
  | outsideRegisterBlock
  /-- Raised by a command that has passed its checks and would read a read-sensitive byte, and by a Host load of one:
  "a model refuses it" (20_memory.md R72, U8; log 11). Safe. -/
  | readSensitiveRegion
  /-- Raised by the event `remap` while a command is in flight: `Admit` is fixed then (20_memory.md R68; log 19). Safe. -/
  | remapInFlight
  /-- Raised by a taken `goto` whose label the script lacks (30_encoding.md R103; log 12). Safe. -/
  | unknownLabel
  /-- Raised by an `if` on a name that nothing has bound (30_encoding.md R103; log 12). Safe. -/
  | unboundName
deriving DecidableEq, Repr

/-- What a step answers. -/
abbrev Outcome := Host.Outcome State Fault Refusal

/-- The machine right after reset (10_state.md R45), with no script, no pending event, nothing listed in data memory (log 1),
and nothing restricted by the platform (log 3). -/
def State.reset : State where
  irqEn := false
  busy := false
  done := false
  error := false
  overrun := false
  errCode := 0#8
  errCheck := 0#8
  errSlot := 0#3
  cmd := 0#32
  block := 0#32
  slots := .zero
  snap := .zero
  tainted := false
  mem := []
  platform := []
  script := []
  line := 0
  binds := []
  events := []
  draws := 0

end Sys2Proof.Machine
end

