-- ==== Sys2Proof/Machine/Flags.lean ====
section
/-! DEFINITION. The status flags (10_state.md R22, R26, R27, R42), the words that software reads them in, and the error codes and
check ids of 60_exceptions.md R173, R174. No command's arithmetic computes a flag (40_numerics.md R120). -/

namespace Sys2Proof.Machine

/-- A flag at bit n of a word. -/
def flagAt (b : Bool) (n : Nat) : Word := if b then BitVec.ofNat 32 (2 ^ n) else 0#32

/-- STATUS as read: BUSY, DONE, ERROR, OVERRUN in bits 0 to 3, the rest 0 (10_state.md R27). -/
def statusWord (s : State) : Word := flagAt s.busy 0 ||| flagAt s.done 1 ||| flagAt s.error 2 ||| flagAt s.overrun 3

/-- CTRL as read: IRQ_EN in bit 2; START and SOFT_RESET read 0 (10_state.md R26). -/
def ctrlWord (s : State) : Word := flagAt s.irqEn 2

/-- ERR_CODE as read: CODE in bits 7:0 (10_state.md R28). -/
def errCodeWord (s : State) : Word := s.errCode.setWidth 32

/-- ERR_INFO as read: CHECK in bits 7:0, SLOT in bits 10:8 (10_state.md R29, 60_exceptions.md R178). -/
def errInfoWord (s : State) : Word := ((0#21 ++ s.errSlot) ++ s.errCheck : BitVec 32)

/-- The output line `irq` (10_state.md R42, 60_exceptions.md R180). -/
def irq (s : State) : Bool := s.irqEn && (s.done || s.error)

/-- ERR_CODE.CODE of an error class (60_exceptions.md R173). -/
def ErrClass.code : ErrClass → BitVec 8
  | .illegalCmd => 1#8
  | .dtypeError => 2#8
  | .shapeError => 3#8
  | .overflowError => 4#8
  | .alignError => 5#8
  | .accessFault => 6#8
  | .overlapError => 7#8

/-- ERR_INFO.CHECK of a check (60_exceptions.md R174). -/
def CheckId.code : CheckId → BitVec 8
  | .opReserved => 0x01#8
  | .cmdRsvdBits => 0x02#8
  | .dtypeNotAllowed => 0x10#8
  | .rankNotAllowed => 0x20#8
  | .dimZero => 0x21#8
  | .blockIllegal => 0x22#8
  | .packedDimMismatch => 0x23#8
  | .scaleShapeMismatch => 0x24#8
  | .kNotDivisible => 0x25#8
  | .innerDimMismatch => 0x26#8
  | .outputShapeMismatch => 0x27#8
  | .misaligned => 0x30#8
  | .rangeWrap => 0x40#8
  | .notAdmitted => 0x41#8
  | .outputOverlap => 0x50#8

/-- The error class of a check (60_exceptions.md R174). -/
def CheckId.errClass : CheckId → ErrClass
  | .opReserved => .illegalCmd
  | .cmdRsvdBits => .illegalCmd
  | .dtypeNotAllowed => .dtypeError
  | .rankNotAllowed => .shapeError
  | .dimZero => .shapeError
  | .blockIllegal => .shapeError
  | .packedDimMismatch => .shapeError
  | .scaleShapeMismatch => .shapeError
  | .kNotDivisible => .shapeError
  | .innerDimMismatch => .shapeError
  | .outputShapeMismatch => .shapeError
  | .misaligned => .alignError
  | .rangeWrap => .accessFault
  | .notAdmitted => .accessFault
  | .outputOverlap => .overlapError

/-- STATUS after a Host write: a 1 clears DONE, ERROR, OVERRUN; BUSY and the reserved bits ignore writes (10_state.md R27). -/
def writeStatus (v : Word) (s : State) : State :=
  { s with
    done := s.done && !v.getLsbD 1
    error := s.error && !v.getLsbD 2
    overrun := s.overrun && !v.getLsbD 3 }

end Sys2Proof.Machine
end

