-- ==== Sys2Proof/Machine/Memory.lean ====
section
/-! DEFINITION. Data memory (20_memory.md R60, R61): bytes, and little-endian accesses of n bytes built from them
(`MemRead` and `MemWrite` of 00_scope.md R11). -/

namespace Sys2Proof.Machine

/-- The byte at address `a`. -/
def Memory.read : Memory → Nat → Byte
  | [], _ => Config.unlistedByte
  | (k, v) :: m, a => if k = a then v else Memory.read m a

/-- Memory with the byte `v` at address `a`, in canonical form: a byte equal to what an unlisted address reads as is not
listed. -/
def Memory.write : Memory → Nat → Byte → Memory
  | [], a, v => if v = Config.unlistedByte then [] else [(a, v)]
  | (k, w) :: m, a, v =>
    if a < k then (if v = Config.unlistedByte then (k, w) :: m else (a, v) :: (k, w) :: m)
    else if a = k then (if v = Config.unlistedByte then m else (a, v) :: m)
    else (k, w) :: Memory.write m a v

/-- The canonical form: addresses strictly rising, no byte equal to what an unlisted address reads as. -/
def Memory.wf : Memory → Bool
  | [] => true
  | (k, v) :: m => decide (v ≠ Config.unlistedByte) && m.all (fun c => decide (k < c.1)) && Memory.wf m

/-- Every listed address exists (20_memory.md R60). -/
def Memory.inSpace (m : Memory) : Bool := m.all fun c => decide (c.1 < Config.addrSpace)

/-- `MemRead(a, n)`: the n bytes from `a` as one little-endian unsigned value (00_scope.md R11, 20_memory.md R61). -/
def memRead (m : Memory) (a : Nat) : Nat → Nat
  | 0 => 0
  | n + 1 => (m.read a).toNat + 256 * memRead m (a + 1) n

/-- `MemWrite(a, n, v)`: bits [8n-1:0] of `v` to the n bytes from `a`, little-endian (00_scope.md R11, 20_memory.md R61). -/
def memWrite (m : Memory) (a : Nat) : Nat → Nat → Memory
  | 0, _ => m
  | n + 1, v => memWrite (m.write a (BitVec.ofNat 8 v)) (a + 1) n (v / 256)

/-- Memory after the `n` bytes from `a` have taken unspecified values ("any value", 20_memory.md R78, R79,
70_reset_and_hazards.md R202): the free values of the draw `draw` (log 8). -/
def scramble (draw : Nat) (m : Memory) (a : Nat) : Nat → Memory
  | 0 => m
  | n + 1 => scramble draw (m.write a (Config.freeByte draw a)) (a + 1) n

end Sys2Proof.Machine
end

