-- ==== Sys2Proof/Machine/Operands.lean ====
section
/-! DEFINITION. The operand form of every command: tensor descriptor slots (10_state.md R32 to R36), linear indices, regions and
element accesses (20_memory.md R62 to R66), and the roles the slots play (30_encoding.md R92, R95). -/

namespace Sys2Proof.Machine

/-- Slot s of S0 to S4 (10_state.md R32). -/
def Slots.get (ss : Slots) (s : Fin 5) : Slot :=
  match s with
  | 0 => ss.s0
  | 1 => ss.s1
  | 2 => ss.s2
  | 3 => ss.s3
  | 4 => ss.s4

/-- The slots with slot s replaced. -/
def Slots.set (ss : Slots) (s : Fin 5) (t : Slot) : Slots :=
  match s with
  | 0 => { ss with s0 := t }
  | 1 => { ss with s1 := t }
  | 2 => { ss with s2 := t }
  | 3 => { ss with s3 := t }
  | 4 => { ss with s4 := t }

/-- `S<s>.ADDR` = ADDR_HI, ADDR_LO, 64 bits, unsigned (10_state.md R34, 30_encoding.md R92). -/
def Slot.addr (t : Slot) : Nat := t.addrHi.toNat * 2 ^ 32 + t.addrLo.toNat

/-- The dimensions a slot of rank r uses, DIM0 to DIM(r-1), outermost first (10_state.md R33). -/
def Slot.dims (t : Slot) : List Nat := [t.dim0.toNat, t.dim1.toNat, t.dim2.toNat].take t.rank.toNat

/-- `T.last` = T.DIM(r-1) (00_scope.md R12). -/
def Slot.last (t : Slot) : Nat := t.dims.getLastD 0

/-- The dtype a code names; 0x0 and 0x5 to 0xF name none (30_encoding.md R94). -/
def dtypeOfCode (c : BitVec 4) : Option DType :=
  match c.toNat with
  | 0x1 => some .f32
  | 0x2 => some .f16
  | 0x3 => some .i8
  | 0x4 => some .u8
  | _ => none

/-- The code of a dtype (30_encoding.md R94). -/
def DType.code : DType → BitVec 4
  | .f32 => 0x1#4
  | .f16 => 0x2#4
  | .i8 => 0x3#4
  | .u8 => 0x4#4

/-- `code(DT)` of a dtype name: NONE, here `none`, has code 0x0 (30_encoding.md R94, R104). -/
def codeOfName : Option DType → BitVec 4
  | none => 0x0#4
  | some d => d.code

/-- `esize(dtype)` in bytes (20_memory.md R62). -/
def DType.esize : DType → Nat
  | .f32 => 4
  | .f16 => 2
  | .i8 => 1
  | .u8 => 1

/-- The element size of a slot: 0 for a reserved dtype code, which has no element (30_encoding.md R94; log 10). -/
def Slot.esize (t : Slot) : Nat :=
  match dtypeOfCode t.dtype with
  | some d => d.esize
  | none => 0

/-- The product of a list of dimensions. -/
def prod : List Nat → Nat
  | [] => 1
  | d :: ds => d * prod ds

/-- `lin` over dimensions and indices (20_memory.md R64): row-major, the last index varies fastest (R63). -/
def lin : List Nat → List Nat → Nat
  | _ :: ds, i :: is => i * prod ds + lin ds is
  | _, _ => 0

/-- `count(T)` (20_memory.md R64). -/
def Slot.count (t : Slot) : Nat := prod t.dims

/-- `bytes(T)` (20_memory.md R64). -/
def Slot.bytes (t : Slot) : Nat := t.esize * t.count

/-- `EA(T, idx)` (20_memory.md R65). -/
def Slot.ea (t : Slot) (idx : List Nat) : Nat := t.addr + t.esize * lin t.dims idx

/-- `Elem(T, idx)`, the unsigned bit pattern (20_memory.md R65). -/
def elem (m : Memory) (t : Slot) (idx : List Nat) : Nat := memRead m (t.ea idx) t.esize

/-- `Store(T, idx, v)` (20_memory.md R65). -/
def store (m : Memory) (t : Slot) (idx : List Nat) (v : Nat) : Memory := memWrite m (t.ea idx) t.esize v

/-- The index tuples of a list of dimensions, in row-major order (00_scope.md R12). -/
def indices : List Nat → List (List Nat)
  | [] => [[]]
  | d :: ds => (List.range d).flatMap fun i => (indices ds).map fun is => i :: is

/-- `idx` is an index tuple of the dimensions: as many indices, each below its dimension (00_scope.md R12). -/
def validIdx : List Nat → List Nat → Bool
  | [], [] => true
  | d :: ds, i :: is => decide (i < d) && validIdx ds is
  | _, _ => false

/-- Two byte ranges share at least one byte (20_memory.md R66). -/
def rangesMeet (a n b k : Nat) : Bool := decide (max a b < min (a + n) (b + k))

/-- The regions of two slots share at least one byte (20_memory.md R66). -/
def regionsMeet (t u : Slot) : Bool := rangesMeet t.addr t.bytes u.addr u.bytes

/-- Which ranks a role allows (30_encoding.md R95). -/
inductive RankRule where
  | oneOf (ranks : List Nat)
  | sameAs (s : Fin 5)
deriving DecidableEq, Repr

/-- The role a slot plays in a command: the dtypes and ranks it allows (30_encoding.md R95). -/
structure SlotRole where
  slot : Fin 5
  dtypes : List DType
  ranks : RankRule
deriving DecidableEq, Repr

/-- The slots a command uses and their roles, in ascending slot number (30_encoding.md R95). A slot that is not listed is not
used (R99). -/
def roles : Instr → List SlotRole
  | .mmtfp =>
    [⟨0, [.f32], .oneOf [2, 3]⟩, ⟨1, [.f32], .oneOf [2]⟩, ⟨4, [.f32], .sameAs 0⟩]
  | .mmtQ8 =>
    [⟨0, [.f32], .oneOf [2, 3]⟩, ⟨1, [.i8, .u8], .oneOf [3]⟩, ⟨2, [.f16], .oneOf [3]⟩, ⟨4, [.f32], .sameAs 0⟩]
  | .mmtQ4 =>
    [⟨0, [.f32], .oneOf [2, 3]⟩, ⟨1, [.u8], .oneOf [3]⟩, ⟨2, [.f16], .oneOf [3]⟩, ⟨3, [.f16], .oneOf [3]⟩,
      ⟨4, [.f32], .sameAs 0⟩]
  | .unpackI4 =>
    [⟨1, [.u8], .oneOf [1, 2, 3]⟩, ⟨4, [.u8], .sameAs 1⟩]
  | .dequantQ8 =>
    [⟨1, [.i8, .u8], .oneOf [3]⟩, ⟨2, [.f16], .oneOf [3]⟩, ⟨4, [.f32], .oneOf [2]⟩]
  | .dequantQ4 =>
    [⟨1, [.u8], .oneOf [3]⟩, ⟨2, [.f16], .oneOf [3]⟩, ⟨3, [.f16], .oneOf [3]⟩, ⟨4, [.f32], .oneOf [2]⟩]

/-- The input slots a command uses, in ascending slot number: every used slot but the output slot S4 (30_encoding.md R95). -/
def inputSlots (i : Instr) : List (Fin 5) := ((roles i).map SlotRole.slot).filter fun s => decide (s ≠ 4)

/-- The slots of the snapshot by number. -/
def Snapshot.slot (c : Snapshot) (s : Fin 5) : Slot := c.slots.get s

/-- A: slot S0 of the matmul commands (30_encoding.md R95). -/
def Snapshot.slotA (c : Snapshot) : Slot := c.slots.s0

/-- B of MMTFP, qs of the other commands: slot S1 (30_encoding.md R95). -/
def Snapshot.slotB (c : Snapshot) : Slot := c.slots.s1

/-- d: slot S2 (30_encoding.md R95). -/
def Snapshot.slotD (c : Snapshot) : Slot := c.slots.s2

/-- m: slot S3 (30_encoding.md R95). -/
def Snapshot.slotM (c : Snapshot) : Slot := c.slots.s3

/-- O: slot S4 (30_encoding.md R95). -/
def Snapshot.slotO (c : Snapshot) : Slot := c.slots.s4

/-- `BS` = zext(BLOCK), unsigned (30_encoding.md R92). -/
def Snapshot.bs (c : Snapshot) : Nat := c.block.toNat

end Sys2Proof.Machine
end

