-- ==== Sys2Proof/Machine/Checks.lean ====
section
/-! DEFINITION. The start checks (60_exceptions.md R174 to R176): functions of the snapshot and of `Admit` alone. Each answers the
failure it reports, the lowest slot first; `check` reports the first of them in the order of R175. -/

namespace Sys2Proof.Machine

/-- `raise E(check, slot)` for a check that concerns a slot (60_exceptions.md R179). -/
def failAt (c : CheckId) (s : Fin 5) : Failure := ⟨c, BitVec.ofNat 3 s.val⟩

/-- `raise E(check, 7)`: the check concerns no slot (60_exceptions.md R174). -/
def failNoSlot (c : CheckId) : Failure := ⟨c, 7#3⟩

/-- The range holds address `a`. -/
def PlatformRange.holds (r : PlatformRange) (a : Nat) : Bool := decide (r.base ≤ a) && decide (a < r.base + r.size)

/-- The restriction forbids an engine access of the kind (20_memory.md R68). -/
def Restriction.forbids : Restriction → AccessKind → Bool
  | .noRead, .read => true
  | .noRead, .write => false
  | .noWrite, .read => false
  | .noWrite, .write => true
  | .readSensitive, _ => false

/-- `Admit(a, kind)` (20_memory.md R68): no range of the platform's list that forbids the kind holds the byte. -/
def admits (p : Platform) (a : Nat) (kind : AccessKind) : Bool := p.all fun r => !(r.restriction.forbids kind && r.holds a)

/-- Every byte of the range has `Admit(a, kind)` (60_exceptions.md R176 step 14), computed range by range: a region may have
2^64 bytes. Laws/Checks.lean proves that it says so of each byte. -/
def rangeAdmitted (p : Platform) (a n : Nat) (kind : AccessKind) : Bool :=
  p.all fun r => !(r.restriction.forbids kind && rangesMeet a n r.base r.size)

/-- Some byte of the range is one whose reads have side effects (20_memory.md R72). -/
def rangeSensitive (p : Platform) (a n : Nat) : Bool :=
  p.any fun r => decide (r.restriction = .readSensitive) && rangesMeet a n r.base r.size

/-- The kind of access the engine makes to a used slot: it writes S4 and reads the others (20_memory.md R69, R70). -/
def slotAccess (s : Fin 5) : AccessKind := if s = 4 then .write else .read

/-- The slot's DTYPE is one the role allows (30_encoding.md R95, R98). -/
def dtypeAllowed (c : Snapshot) (r : SlotRole) : Bool :=
  match dtypeOfCode (c.slot r.slot).dtype with
  | some d => r.dtypes.contains d
  | none => false

/-- The slot's RANK is one the role allows (30_encoding.md R95). -/
def rankAllowed (c : Snapshot) (r : SlotRole) : Bool :=
  match r.ranks with
  | .oneOf l => l.contains (c.slot r.slot).rank.toNat
  | .sameAs s => (c.slot r.slot).rank == (c.slot s).rank

/-- The first used slot, in ascending number, that a test rejects. -/
def firstSlot (i : Instr) (id : CheckId) (bad : SlotRole → Bool) : Option Failure :=
  ((roles i).find? bad).map fun r => failAt id r.slot

/-- Check 0x10. -/
def checkDtype (i : Instr) (c : Snapshot) : Option Failure := firstSlot i .dtypeNotAllowed fun r => !dtypeAllowed c r

/-- Check 0x20. -/
def checkRank (i : Instr) (c : Snapshot) : Option Failure := firstSlot i .rankNotAllowed fun r => !rankAllowed c r

/-- Check 0x21. -/
def checkDims (i : Instr) (c : Snapshot) : Option Failure :=
  firstSlot i .dimZero fun r => (c.slot r.slot).dims.contains 0

/-- BLOCK is legal for the command (check 0x22; 30_encoding.md R95). -/
def blockLegal (i : Instr) (c : Snapshot) : Bool :=
  match i with
  | .mmtfp => true
  | .mmtQ8 => c.bs == Config.q8Block
  | .mmtQ4 => c.bs != 0 && c.bs % 2 == 0
  | .unpackI4 => c.bs != 0 && c.bs % 2 == 0
  | .dequantQ8 => c.bs == Config.q8Block
  | .dequantQ4 => c.bs != 0 && c.bs % 2 == 0

/-- The packed dimension agrees with BLOCK (check 0x23). -/
def packedDimAgrees (i : Instr) (c : Snapshot) : Bool :=
  match i with
  | .mmtfp => true
  | .mmtQ8 => c.slotB.dim2.toNat == c.bs
  | .mmtQ4 => 2 * c.slotB.dim2.toNat == c.bs
  | .unpackI4 => 2 * c.slotB.last == c.bs
  | .dequantQ8 => c.slotB.dim2.toNat == c.bs
  | .dequantQ4 => 2 * c.slotB.dim2.toNat == c.bs

/-- The slots that hold a scale or an offset, d before m (check 0x24). -/
def scaleSlots : Instr → List (Fin 5)
  | .mmtfp => []
  | .mmtQ8 => [2]
  | .mmtQ4 => [2, 3]
  | .unpackI4 => []
  | .dequantQ8 => [2]
  | .dequantQ4 => [2, 3]

/-- The shape d and m must have, `[qs.DIM0, qs.DIM1, 1]` (check 0x24). -/
def scaleShape (c : Snapshot) : List Nat := [c.slotB.dim0.toNat, c.slotB.dim1.toNat, 1]

/-- Check 0x24. -/
def checkScales (i : Instr) (c : Snapshot) : Option Failure :=
  ((scaleSlots i).find? fun s => (c.slot s).dims != scaleShape c).map fun s => failAt .scaleShapeMismatch s

/-- BS divides K (check 0x25). -/
def blockDividesK (i : Instr) (c : Snapshot) : Bool :=
  match i with
  | .mmtfp => true
  | .mmtQ8 => c.slotA.last % c.bs == 0
  | .mmtQ4 => c.slotA.last % c.bs == 0
  | .unpackI4 => true
  | .dequantQ8 => true
  | .dequantQ4 => true

/-- The inner dimensions agree (check 0x26). -/
def innerDimsAgree (i : Instr) (c : Snapshot) : Bool :=
  match i with
  | .mmtfp => c.slotA.last == c.slotB.dim1.toNat
  | .mmtQ8 => c.slotA.last / c.bs == c.slotB.dim1.toNat
  | .mmtQ4 => c.slotA.last / c.bs == c.slotB.dim1.toNat
  | .unpackI4 => true
  | .dequantQ8 => true
  | .dequantQ4 => true

/-- The output shape of a matmul: A's shape with its last dimension replaced by N (60_exceptions.md R175). -/
def matmulShape (c : Snapshot) : List Nat := c.slotA.dims.dropLast ++ [c.slotB.dim0.toNat]

/-- The output shape of a dequantization, `[qs.DIM0, qs.DIM1 * BS]` (60_exceptions.md R175). -/
def dequantShape (c : Snapshot) : List Nat := [c.slotB.dim0.toNat, c.slotB.dim1.toNat * c.bs]

/-- The expected output shape, by command (60_exceptions.md R175). -/
def outputShape (i : Instr) (c : Snapshot) : List Nat :=
  match i with
  | .mmtfp => matmulShape c
  | .mmtQ8 => matmulShape c
  | .mmtQ4 => matmulShape c
  | .unpackI4 => c.slotB.dims.dropLast ++ [2 * c.slotB.last]
  | .dequantQ8 => dequantShape c
  | .dequantQ4 => dequantShape c

/-- A check that concerns one fixed slot, or none. -/
def failUnless (ok : Bool) (f : Failure) : Option Failure := if ok then none else some f

/-- Check 0x30. -/
def checkAlign (i : Instr) (c : Snapshot) : Option Failure :=
  firstSlot i .misaligned fun r => (c.slot r.slot).addr % (c.slot r.slot).esize != 0

/-- Check 0x40. -/
def checkRange (i : Instr) (c : Snapshot) : Option Failure :=
  firstSlot i .rangeWrap fun r => decide (Config.addrSpace < (c.slot r.slot).addr + (c.slot r.slot).bytes)

/-- Check 0x41. -/
def checkAdmit (i : Instr) (c : Snapshot) (p : Platform) : Option Failure :=
  firstSlot i .notAdmitted fun r =>
    !rangeAdmitted p (c.slot r.slot).addr (c.slot r.slot).bytes (slotAccess r.slot)

/-- Check 0x50. -/
def checkOverlap (i : Instr) (c : Snapshot) : Option Failure :=
  ((inputSlots i).find? fun s => regionsMeet c.slotO (c.slot s)).map fun s => failAt .outputOverlap s

/-- Steps 3 to 15 of `check(snap)` (60_exceptions.md R175, R176), in their order: the first that fails is reported. Steps 1
and 2 are the decoder's (`illegalFailure`). -/
def check (i : Instr) (c : Snapshot) (p : Platform) : Option Failure :=
  [ checkDtype i c,
    checkRank i c,
    checkDims i c,
    failUnless (blockLegal i c) (failNoSlot .blockIllegal),
    failUnless (packedDimAgrees i c) (failAt .packedDimMismatch 1),
    checkScales i c,
    failUnless (blockDividesK i c) (failAt .kNotDivisible 0),
    failUnless (innerDimsAgree i c) (failAt .innerDimMismatch 1),
    failUnless (c.slotO.dims == outputShape i c) (failAt .outputShapeMismatch 4),
    checkAlign i c,
    checkRange i c,
    checkAdmit i c p,
    checkOverlap i c ].findSome? id

/-- Steps 1 and 2 of `check(snap)`: a word that is no command (30_encoding.md R96, R97). -/
def illegalFailure : IllegalCmd → Failure
  | .opReserved => failNoSlot .opReserved
  | .rsvdBits => failNoSlot .cmdRsvdBits

/-- The command would read a byte whose reads have side effects (20_memory.md R72). -/
def readsSensitive (i : Instr) (c : Snapshot) (p : Platform) : Bool :=
  (inputSlots i).any fun s => rangeSensitive p (c.slot s).addr (c.slot s).bytes

end Sys2Proof.Machine
end

