-- ==== Sys2Proof/Machine/Ops.lean ====
section
/-! DEFINITION. The shared operations of a command's life (60_exceptions.md R170 to R179): accept, the output loop, successful
completion, error completion (this hardware's taking of an exception, 00_scope.md section 7), what undoes it (R181), and
reset (70_reset_and_hazards.md R200 to R203). -/

namespace Sys2Proof.Machine

/-- The live registers a start copies (10_state.md R40). -/
def State.live (s : State) : Snapshot := ⟨s.cmd, s.block, s.slots⟩

/-- Accept (60_exceptions.md R171), apart from CTRL.IRQ_EN: the snapshot is taken, DONE, ERROR and the error registers are
cleared, OVERRUN is kept, BUSY is set. -/
def accept (s : State) : State :=
  { s with
    snap := s.live
    done := false
    error := false
    errCode := 0#8
    errCheck := 0#8
    errSlot := 0#3
    busy := true
    tainted := false }

/-- Error completion (60_exceptions.md R178, R179): the code, the check and its slot are recorded, BUSY is cleared and ERROR
set; no byte of data memory is read or written, and nothing else changes. -/
def raise (f : Failure) (s : State) : State :=
  { s with
    errCode := f.check.errClass.code
    errCheck := f.check.code
    errSlot := f.slot
    busy := false
    error := true
    tainted := false }

/-- What the Host writes to STATUS when it has serviced a completion (60_exceptions.md R181, `ack` of 30_encoding.md R104):
DONE, ERROR and OVERRUN are cleared. Nothing else is restored: there is no saved state and no mode to leave. -/
def acknowledge (s : State) : State := writeStatus 0x0000000E#32 s

/-- Successful completion (60_exceptions.md R177). -/
def finish (s : State) : State := { s with busy := false, done := true, tainted := false }

/-- The output loop of every command: `Store(O, idx, value idx)` for every index tuple of O (41_unpack.md R130, 42_dequant.md
R142, R143, 43_matmul.md R150). The values come from the memory the command started with: the order of reads and writes
is unobservable (20_memory.md R76; log 7). -/
def storeAll (t : Slot) (value : List Nat → Nat) (m : Memory) : Memory :=
  (indices t.dims).foldl (fun m' idx => store m' t idx (value idx)) m

/-- Execute (60_exceptions.md R170): every output element gets its value, or, if the Host has written into a region of the
command in flight, every output byte gets an unspecified value (20_memory.md R78, R79; log 8, 9). -/
def execute (value : Snapshot → Memory → List Nat → Nat) (s : State) : State :=
  if s.tainted then
    { s with mem := scramble s.draws s.mem s.snap.slotO.addr s.snap.slotO.bytes, draws := s.draws + 1 }
  else { s with mem := storeAll s.snap.slotO (value s.snap s.mem) s.mem }

/-- Check, Execute and Complete (60_exceptions.md R170, R175 to R178) of a command whose output elements have the given
values, as one step (log 6). -/
def runCommand (i : Instr) (value : Snapshot → Memory → List Nat → Nat) (s : State) : Outcome :=
  match check i s.snap s.platform with
  | some f => .next (raise f s)
  | none =>
    if readsSensitive i s.snap s.platform then .refused .readSensitiveRegion
    else .next (finish (execute value s))

/-- The bytes of an aborted command's output region that exist: S4 of its snapshot, below 2^64 (70_reset_and_hazards.md
R202; log 10). -/
def abortedBytes (c : Snapshot) : Nat := min c.slotO.bytes (Config.addrSpace - c.slotO.addr)

/-- What reset does to data memory: nothing, but for the output region of a command it aborts, whose bytes take unspecified
values (70_reset_and_hazards.md R202, R203). -/
def abortInFlight (s : State) : State :=
  if s.busy then
    { s with mem := scramble s.draws s.mem s.snap.slotO.addr (abortedBytes s.snap), draws := s.draws + 1 }
  else s

/-- Reset, power-on or SOFT_RESET (70_reset_and_hazards.md R200 to R203): every register takes the value of 10_state.md R45
and the snapshot is discarded (log 2). The Host, the platform and the events are no part of the engine. -/
def resetEngine (s : State) : State :=
  { abortInFlight s with
    irqEn := false
    busy := false
    done := false
    error := false
    overrun := false
    errCode := 0#8
    errCheck := 0#8
    errSlot := 0#3
    cmd := 0#32
    block := 0#32
    slots := .zero
    snap := .zero
    tainted := false }

/-- A byte range meets the output region of the command in flight (20_memory.md R79). -/
def meetsOutput (s : State) (a n : Nat) : Bool :=
  s.busy && rangesMeet a n s.snap.slotO.addr s.snap.slotO.bytes

/-- A byte range meets the region of an input slot that the command in flight uses (20_memory.md R78). A word that is no
command uses no slot. -/
def meetsInput (s : State) (a n : Nat) : Bool :=
  s.busy &&
    match decode s.snap.cmd with
    | .command i => (inputSlots i).any fun j => rangesMeet a n (s.snap.slot j).addr (s.snap.slot j).bytes
    | .illegal _ => false

end Sys2Proof.Machine
end

