-- ==== Sys2Proof/Machine/Unpack.lean ====
section
/-! DEFINITION. sub_byte_unpacker (41_unpack.md): the command UNPACK_I4. -/

namespace Sys2Proof.Machine

/-- The element at index x of the last dimension that a packed byte holds: the low nibble for an even x, the high nibble for an
odd x (41_unpack.md R131). -/
def nibbleAt (b : Byte) (x : Nat) : BitVec 4 := if x % 2 = 0 then b.extractLsb' 0 4 else b.extractLsb' 4 4

/-- The packed byte of a U8 slot that holds element x of the row `lead` (41_unpack.md R131). -/
def packedByte (m : Memory) (t : Slot) (lead : List Nat) (x : Nat) : Byte := BitVec.ofNat 8 (elem m t (lead ++ [x / 2]))

/-- The output element of UNPACK_I4 at an index tuple of O: the nibble, zero-extended to 8 bits (41_unpack.md R130). -/
def unpackValue (c : Snapshot) (m : Memory) (idx : List Nat) : Nat :=
  ((nibbleAt (packedByte m c.slotB idx.dropLast (idx.getLastD 0)) (idx.getLastD 0)).setWidth 8).toNat

/-- UNPACK_I4, `promote_linear_i4_block_to_i8` (41_unpack.md R130). -/
def execUnpackI4 (s : State) : Outcome := runCommand .unpackI4 unpackValue s

end Sys2Proof.Machine
end

