-- ==== Sys2Proof/Machine/Dequant.lean ====
section
/-! DEFINITION. block_dequantizer (42_dequant.md): the element functions dq8 and dq4, and the commands DEQUANT_Q8 and DEQUANT_Q4. -/

namespace Sys2Proof.Machine

/-- An F16 element read as a binary32 value (20_memory.md R65, 40_numerics.md R112). -/
def readF16 (m : Memory) (t : Slot) (idx : List Nat) : F32 := f16ToF32 (BitVec.ofNat 16 (elem m t idx))

/-- A q8 byte as an integer: signed for I8, unsigned for U8 (42_dequant.md R140, 90_conflicts.md C1). -/
def q8Value (t : Slot) (raw : Byte) : Int := if dtypeOfCode t.dtype = some .i8 then raw.toInt else (raw.toNat : Int)

/-- `dq8(n, k)` (42_dequant.md R140). -/
def dq8 (c : Snapshot) (m : Memory) (n k : Nat) : F32 :=
  let kb := k / Config.q8Block
  let j := k % Config.q8Block
  mul32 (readF16 m c.slotD [n, kb, 0]) (intToF32 (q8Value c.slotB (BitVec.ofNat 8 (elem m c.slotB [n, kb, j]))))

/-- `dq4(n, k)` (42_dequant.md R141): multiply, then add; the value is not centered (90_conflicts.md C2). -/
def dq4 (c : Snapshot) (m : Memory) (n k : Nat) : F32 :=
  let kb := k / c.bs
  let j := k % c.bs
  let u := nibbleAt (packedByte m c.slotB [n, kb] j) j
  add32 (mul32 (readF16 m c.slotD [n, kb, 0]) (intToF32 (u.toNat : Int))) (readF16 m c.slotM [n, kb, 0])

/-- The output element of a dequantization at an index tuple [n, k] of O (42_dequant.md R142, R143). -/
def dequantValue (weight : Snapshot → Memory → Nat → Nat → F32) (c : Snapshot) (m : Memory) (idx : List Nat) : Nat :=
  (canon32 (weight c m (idx.headD 0) (idx.getLastD 0))).toNat

/-- DEQUANT_Q8, `dequant_block_scaled_q8` (42_dequant.md R142). -/
def execDequantQ8 (s : State) : Outcome := runCommand .dequantQ8 (dequantValue dq8) s

/-- DEQUANT_Q4, `dequant_block_scaled_offset_q4_unsigned` (42_dequant.md R143). -/
def execDequantQ4 (s : State) : Outcome := runCommand .dequantQ4 (dequantValue dq4) s

end Sys2Proof.Machine
end

