-- ==== Sys2Proof/Machine/Matmul.lean ====
section
/-! DEFINITION. matmul_accumulator (43_matmul.md): the commands MMTFP, MMT_Q8 and MMT_Q4. -/

namespace Sys2Proof.Machine

/-- An F32 element read as a binary32 value (20_memory.md R65, 40_numerics.md R110). -/
def readF32 (m : Memory) (t : Slot) (idx : List Nat) : F32 := F32.ofBits (BitVec.ofNat 32 (elem m t idx))

/-- The dense weight B[j, k] of MMTFP (43_matmul.md R150). -/
def denseWeight (c : Snapshot) (m : Memory) (j k : Nat) : F32 := readF32 m c.slotB [j, k]

/-- The output element of a matmul at an index tuple of O: the row of A is all but the last index, the weight row j is the
last (43_matmul.md R150 to R152). -/
def matmulValue (weight : Snapshot → Memory → Nat → Nat → F32) (c : Snapshot) (m : Memory) (idx : List Nat) : Nat :=
  (canon32 (dot32 (fun k => readF32 m c.slotA (idx.dropLast ++ [k])) (weight c m (idx.getLastD 0)) c.slotA.last)).toNat

/-- MMTFP, `mmtfp` (43_matmul.md R150). -/
def execMmtfp (s : State) : Outcome := runCommand .mmtfp (matmulValue denseWeight) s

/-- MMT_Q8, `mmt_block_scaled_q8` (43_matmul.md R151). -/
def execMmtQ8 (s : State) : Outcome := runCommand .mmtQ8 (matmulValue dq8) s

/-- MMT_Q4, `mmt_block_scaled_offset_q4_unsigned` (43_matmul.md R152). -/
def execMmtQ4 (s : State) : Outcome := runCommand .mmtQ4 (matmulValue dq4) s

end Sys2Proof.Machine
end

