-- ==== Sys2Proof/Machine/Dispatch.lean ====
section
/-! DEFINITION. Which meaning each command has: Check, Execute and Complete of the command in flight (60_exceptions.md R170). -/

namespace Sys2Proof.Machine

def exec (i : Instr) (s : State) : Host.Outcome State Fault Refusal :=
  match i with
  | .mmtfp => Sys2Proof.Machine.execMmtfp s
  | .mmtQ8 => Sys2Proof.Machine.execMmtQ8 s
  | .mmtQ4 => Sys2Proof.Machine.execMmtQ4 s
  | .unpackI4 => Sys2Proof.Machine.execUnpackI4 s
  | .dequantQ8 => Sys2Proof.Machine.execDequantQ8 s
  | .dequantQ4 => Sys2Proof.Machine.execDequantQ4 s

end Sys2Proof.Machine
end

