-- ==== Sys2Proof/Machine/Registers.lean ====
section
/-! DEFINITION. The register block (10_state.md R23 to R39): which register stands at an offset, and what a 32-bit read and a
32-bit write of it do. -/

namespace Sys2Proof.Machine

/-- The offset of a word in its slot (10_state.md R32). -/
def SlotWord.offset : SlotWord → Nat
  | .addrLo => 0x00
  | .addrHi => 0x04
  | .desc => 0x08
  | .dim0 => 0x0C
  | .dim1 => 0x10
  | .dim2 => 0x14

/-- The word at an offset in a slot; +0x18 and +0x1C are reserved (10_state.md R32). -/
def slotWordAt : Nat → Option SlotWord
  | 0x00 => some .addrLo
  | 0x04 => some .addrHi
  | 0x08 => some .desc
  | 0x0C => some .dim0
  | 0x10 => some .dim1
  | 0x14 => some .dim2
  | _ => none

/-- The slot of a number (10_state.md R32). -/
def slotOfNat : Nat → Option (Fin 5)
  | 0 => some 0
  | 1 => some 1
  | 2 => some 2
  | 3 => some 3
  | 4 => some 4
  | _ => none

/-- The register of the slot area at an offset from its start (10_state.md R23, R32). -/
def slotRegAt (off : Nat) : Reg :=
  match slotOfNat (off / 0x20), slotWordAt (off % 0x20) with
  | some s, some w => .slot s w
  | _, _ => .reserved

/-- The register at an offset from ENGINE_BASE (10_state.md R23). -/
def regAt (off : Nat) : Reg :=
  match off with
  | 0x000 => .id
  | 0x004 => .version
  | 0x008 => .ctrl
  | 0x00C => .status
  | 0x010 => .errCode
  | 0x014 => .errInfo
  | 0x018 => .cmd
  | 0x01C => .block
  | _ => if off < 0x040 then .reserved else slotRegAt (off - 0x040)

/-- `offset(REG)` (10_state.md R23, R32; 30_encoding.md R103); for `reserved` the first reserved offset. -/
def Reg.offset : Reg → Nat
  | .id => 0x000
  | .version => 0x004
  | .ctrl => 0x008
  | .status => 0x00C
  | .errCode => 0x010
  | .errInfo => 0x014
  | .cmd => 0x018
  | .block => 0x01C
  | .slot s w => 0x040 + 0x20 * s.val + w.offset
  | .reserved => 0x020

/-- The MMIO address of an offset (30_encoding.md R103). -/
def mmioAddr (off : Nat) : Nat := Config.engineBase + off

/-- The offset of an MMIO address in the register block (10_state.md R23). -/
def offsetOfMmio (a : Nat) : Option Nat :=
  if Config.engineBase ≤ a ∧ a < Config.engineBase + Config.registerBlockBytes then some (a - Config.engineBase) else none

/-- DESC as read: DTYPE in bits 3:0, RANK in bits 5:4, the rest 0 (10_state.md R35). -/
def descWord (t : Slot) : Word := ((0#26 ++ t.rank) ++ t.dtype : BitVec 32)

/-- A word of a slot as read (10_state.md R32). -/
def Slot.word (t : Slot) : SlotWord → Word
  | .addrLo => t.addrLo
  | .addrHi => t.addrHi
  | .desc => descWord t
  | .dim0 => t.dim0
  | .dim1 => t.dim1
  | .dim2 => t.dim2

/-- A slot after a write to one of its words; DESC keeps DTYPE and RANK only (10_state.md R34 to R36). -/
def Slot.setWord (t : Slot) (w : SlotWord) (v : Word) : Slot :=
  match w with
  | .addrLo => { t with addrLo := v }
  | .addrHi => { t with addrHi := v }
  | .desc => { t with dtype := v.extractLsb' 0 4, rank := v.extractLsb' 4 2 }
  | .dim0 => { t with dim0 := v }
  | .dim1 => { t with dim1 := v }
  | .dim2 => { t with dim2 := v }

/-- A 32-bit read of a register: no side effect (10_state.md R24 to R38). -/
def readReg (r : Reg) (s : State) : Word :=
  match r with
  | .id => Config.idValue
  | .version => Config.versionValue
  | .ctrl => ctrlWord s
  | .status => statusWord s
  | .errCode => errCodeWord s
  | .errInfo => errInfoWord s
  | .cmd => s.cmd
  | .block => s.block
  | .slot j w => (s.slots.get j).word w
  | .reserved => 0#32

/-- A start request (10_state.md R26): accepted while BUSY = 0 (60_exceptions.md R171), else dropped with OVERRUN set
(R172). -/
def requestStart (s : State) : State := if s.busy then { s with overrun := true } else accept s

/-- A write to CTRL (10_state.md R26): SOFT_RESET wins over START (70_reset_and_hazards.md R209) and clears IRQ_EN; else IRQ_EN
takes bit 2, and START requests a start. -/
def writeCtrl (v : Word) (s : State) : State :=
  if v.getLsbD 1 then resetEngine s
  else
    let s' := { s with irqEn := v.getLsbD 2 }
    if v.getLsbD 0 then requestStart s' else s'

/-- A 32-bit write of a register (10_state.md R24 to R39). -/
def writeReg (r : Reg) (v : Word) (s : State) : State :=
  match r with
  | .id => s
  | .version => s
  | .ctrl => writeCtrl v s
  | .status => writeStatus v s
  | .errCode => s
  | .errInfo => s
  | .cmd => { s with cmd := v }
  | .block => { s with block := v }
  | .slot j w => { s with slots := s.slots.set j ((s.slots.get j).setWord w v) }
  | .reserved => s

/-- Why the engine's model refuses a Host access of a width at an offset, if it does (10_state.md R23, R38). -/
def accessRefusal (width off : Nat) : Option Refusal :=
  if Config.registerBlockBytes ≤ off then some .outsideRegisterBlock
  else if width ≠ 32 then some .registerAccessWidth
  else if off % 4 ≠ 0 then some .registerAccessMisaligned
  else none

end Sys2Proof.Machine
end

