-- ==== Sys2Proof/Machine/HostAgent.lean ====
section
/-! DEFINITION. The Host agent (00_scope.md R7): what each line of its script does (30_encoding.md R103), with the register access
rules of 10_state.md R38 and the memory hazards of 20_memory.md R78, R79, and the pseudo-instructions of 30_encoding.md
R104. -/

namespace Sys2Proof.Machine

/-- The Host goes on to its next line. -/
def nextLine (s : State) : State := { s with line := s.line + 1 }

/-- The Host binds a value to a name. -/
def bindName (name : Nat) (v : Word) (s : State) : State := { s with binds := (name, v) :: s.binds }

/-- The value last bound to a name. -/
def boundTo (name : Nat) (s : State) : Option Word := (s.binds.find? fun b => b.1 == name).map Prod.snd

/-- Field hi:lo of a value, as a number (00_scope.md R9). -/
def fieldOf (v : Word) (hi lo : Nat) : Nat := v.toNat / 2 ^ lo % 2 ^ (hi + 1 - lo)

/-- The line of a label in a script (30_encoding.md R103). Where a label stands twice the spec is silent: the first of its lines.
DESIGN CHOICE (log 27). -/
def lineOfLabel (script : List HostInstr) (l : Nat) : Option Nat := script.findIdx? fun h => h == .label l

/-- An access of the Host to the register at an offset, if the model does not refuse it (10_state.md R38). -/
def withReg (width off : Nat) (k : Reg → Outcome) : Outcome :=
  match accessRefusal width off with
  | some r => .refused r
  | none => k (regAt off)

/-- A Host store of n bytes. It lands in memory; if it meets an input or the output region of the command in flight, the
command's whole output becomes unspecified (20_memory.md R78, R79; log 9). A byte beyond the space does not exist
(20_memory.md R60; log 14). -/
def hostStore (n a v : Nat) (s : State) : Outcome :=
  if a + n ≤ Config.addrSpace then
    .next (nextLine
      { s with
        mem := memWrite s.mem a n v
        tainted := s.tainted || meetsInput s a n || meetsOutput s a n })
  else .fault .hostAccessOutsideDataMemory

/-- A byte as the Host reads it: any value in the output region of the command in flight (20_memory.md R79), else the byte in
memory. -/
def hostByte (s : State) (a : Nat) : Byte := if meetsOutput s a 1 then Config.freeByte s.draws a else s.mem.read a

/-- The n bytes from `a` as the Host reads them, little-endian. -/
def hostRead (s : State) (a : Nat) : Nat → Nat
  | 0 => 0
  | n + 1 => (hostByte s a).toNat + 256 * hostRead s (a + 1) n

/-- A Host load of a 32-bit word (30_encoding.md R103). Loads of read-sensitive bytes are refused (20_memory.md R72; log 11). -/
def hostLoad (a name : Nat) (s : State) : Outcome :=
  if a + 4 ≤ Config.addrSpace then
    if rangeSensitive s.platform a 4 then .refused .readSensitiveRegion
    else
      .next (nextLine (bindName name (BitVec.ofNat 32 (hostRead s a 4))
        { s with draws := if meetsOutput s a 4 then s.draws + 1 else s.draws }))
  else .fault .hostAccessOutsideDataMemory

/-- A taken branch of the script (30_encoding.md R103). The label may stand on any line, before the branch too, although R103 calls
`poll` the only loop. DESIGN CHOICE (log 26). -/
def hostGoto (l : Nat) (s : State) : Outcome :=
  match lineOfLabel s.script l with
  | some n => .next { s with line := n }
  | none => .refused .unknownLabel

/-- `if name.FIELD = v goto label` (30_encoding.md R103). -/
def hostIf (name hi lo value l : Nat) (s : State) : Outcome :=
  match boundTo name s with
  | none => .refused .unboundName
  | some w => if fieldOf w hi lo = value then hostGoto l s else .next (nextLine s)

/-- `poll REG, mask, val`, one of its reads (30_encoding.md R103): the line is left when the masked value is val. -/
def hostPoll (r : Reg) (mask value : Word) (s : State) : State := if readReg r s &&& mask = value then nextLine s else s

/-- One line of a Host script (30_encoding.md R103). -/
def hostExec (h : HostInstr) (s : State) : Outcome :=
  match h with
  | .wr width off v => withReg width off fun r => .next (nextLine (writeReg r v s))
  | .rd width off name => withReg width off fun r => .next (nextLine (bindName name (readReg r s) s))
  | .poll off mask v => withReg 32 off fun r => .next (hostPoll r mask v s)
  | .ifGoto name hi lo v l => hostIf name hi lo v l s
  | .label _ => .next (nextLine s)
  | .memW32 a v => hostStore 4 a.toNat v.toNat s
  | .memW16 a v => hostStore 2 a.toNat v.toNat s
  | .memW8 a v => hostStore 1 a.toNat v.toNat s
  | .memR32 a name => hostLoad a.toNat name s

/-- The Host's next step: its next script line, or nothing when the script has ended. -/
def hostStep (s : State) : Outcome :=
  match s.script[s.line]? with
  | some h => hostExec h s
  | none => .next s

/-- `wr REG, imm32` for a register of the map (30_encoding.md R103). -/
def wrReg (r : Reg) (v : Word) : HostInstr := .wr 32 r.offset v

/-- `rd REG -> name` for a register of the map (30_encoding.md R103). -/
def rdReg (r : Reg) (name : Nat) : HostInstr := .rd 32 r.offset name

/-- `desc S<s>, addr64, DT, r, d0, d1, d2` (30_encoding.md R104); DT is one of the five dtype names, NONE among them (R94). -/
def scriptDesc (s : Fin 5) (addr : BitVec 64) (dt : Option DType) (r : BitVec 2) (d0 d1 d2 : Word) : List HostInstr :=
  [ wrReg (.slot s .addrLo) (addr.extractLsb' 0 32),
    wrReg (.slot s .addrHi) (addr.extractLsb' 32 32),
    wrReg (.slot s .desc) ((r.setWidth 32 <<< 4) ||| (codeOfName dt).setWidth 32),
    wrReg (.slot s .dim0) d0,
    wrReg (.slot s .dim1) d1,
    wrReg (.slot s .dim2) d2 ]

/-- `block bs` (30_encoding.md R104). -/
def scriptBlock (bs : Word) : List HostInstr := [wrReg .block bs]

/-- `<mnemonic>` (30_encoding.md R102, R104). -/
def scriptCommand (i : Instr) : List HostInstr := [wrReg .cmd (encode i)]

/-- `start` (30_encoding.md R104). -/
def scriptStart : List HostInstr := [wrReg .ctrl 0x00000001#32]

/-- `start.irq` (30_encoding.md R104). -/
def scriptStartIrq : List HostInstr := [wrReg .ctrl 0x00000005#32]

/-- `wait` (30_encoding.md R104). -/
def scriptWait : List HostInstr := [.poll Reg.status.offset 0x00000001#32 0x00000000#32]

/-- `ack` (30_encoding.md R104). -/
def scriptAck : List HostInstr := [wrReg .status 0x0000000E#32]

/-- `sreset` (30_encoding.md R104). -/
def scriptSreset : List HostInstr := [wrReg .ctrl 0x00000002#32]

/-- `run <mnemonic>` (30_encoding.md R104). -/
def scriptRun (i : Instr) : List HostInstr := scriptCommand i ++ scriptStart ++ scriptWait

end Sys2Proof.Machine
end

