-- ==== Sys2Proof/Machine/Engine.lean ====
section
/-! DEFINITION. The steps of the agents (00_scope.md R7, 60_exceptions.md R170) and of the platform, and how a command comes to be
the one in flight. -/

namespace Sys2Proof.Machine

/-- Check, Execute and Complete of the command in flight (60_exceptions.md R170). A word that is no command fails the first or
the second check (R175). With no command in flight the Engine is idle (R188). -/
def engineStep (s : State) : Outcome :=
  if s.busy then
    match decode s.snap.cmd with
    | .command i => exec i s
    | .illegal why => .next (raise (illegalFailure why) s)
  else .next s

/-- A Host line and the completion of the command in flight together: the completion takes effect after the Host's write
(10_state.md R27; log 15). With no command in flight only the Host acts. -/
def togetherStep (s : State) : Outcome :=
  match hostStep s with
  | .next s' => if s.busy then engineStep s' else .next s'
  | .fault f => .fault f
  | .refused r => .refused r

/-- The platform changes its restrictions, only while no command is in flight (20_memory.md R68; log 19). -/
def remapStep (p : Platform) (s : State) : Outcome :=
  if s.busy then .refused .remapInFlight else .next { s with platform := p }

/-- What one event does, in a state from which it has been taken. -/
def eventStep (e : Event) (s : State) : Outcome :=
  match e with
  | .host => hostStep s
  | .engine => engineStep s
  | .together => togetherStep s
  | .powerOn => .next (resetEngine s)
  | .remap p => remapStep p s

/-- With no event pending, a command in flight completes (60_exceptions.md R189), and an idle engine leaves the step to the
Host (log 5). -/
def defaultStep (s : State) : Outcome := if s.busy then engineStep s else hostStep s

/-- The state in which the command word `w` has just been accepted (60_exceptions.md R171) and the Engine moves next: the
Host's write of CMD and of CTRL.START, made from outside the machine (log 13). -/
def loadCommand (w : Word) (s : State) : State := { accept { s with cmd := w } with events := [] }

end Sys2Proof.Machine
end

