-- ==== Sys2Proof/Machine/Step.lean ====
section
/-! DEFINITION. One step of the machine: the next pending event, or the default of Engine.lean. -/

namespace Sys2Proof.Machine

def step (s : State) : Host.Outcome State Fault Refusal :=
  match s.events with
  | [] => defaultStep s
  | e :: rest => eventStep e { s with events := rest }

/-- `s` with the command word `w` (its first `nbits` bits, the rest 0) accepted, so that the next step runs it (log 13). -/
def State.withFetchWord (s : State) (nbits w : Nat) : State := loadCommand (BitVec.ofNat 32 (w % 2 ^ nbits)) s

end Sys2Proof.Machine
end

