-- ==== Sys2Proof/Safety.lean ====
section
/-! DEFINITION. The terms claims are made in: when a start check is violated (60_exceptions.md R174 to R176, read as
conditions), the invariant every step keeps, the output element of each command, the engine's accesses in an arbitrary
order (20_memory.md R76), which magnitudes binary32 represents (40_numerics.md R110), the slot roles' dtypes and ranks
(30_encoding.md R95), and when the Host moves. -/

namespace Sys2Proof.Machine

/-- The place of a check in the order of 60_exceptions.md R175, R176. -/
def CheckId.position : CheckId → Nat
  | .opReserved => 1
  | .cmdRsvdBits => 2
  | .dtypeNotAllowed => 3
  | .rankNotAllowed => 4
  | .dimZero => 5
  | .blockIllegal => 6
  | .packedDimMismatch => 7
  | .scaleShapeMismatch => 8
  | .kNotDivisible => 9
  | .innerDimMismatch => 10
  | .outputShapeMismatch => 11
  | .misaligned => 12
  | .rangeWrap => 13
  | .notAdmitted => 14
  | .outputOverlap => 15

/-- The rank of a used slot is one its role allows (30_encoding.md R95). -/
def RankFits (c : Snapshot) (r : SlotRole) : Prop :=
  match r.ranks with
  | .oneOf l => (c.slot r.slot).rank.toNat ∈ l
  | .sameAs s => (c.slot r.slot).rank = (c.slot s).rank

/-- BLOCK breaks the command's block rule (60_exceptions.md R174, check 0x22). -/
def BlockBroken (i : Instr) (c : Snapshot) : Prop :=
  match i with
  | .mmtfp => False
  | .mmtQ8 => c.bs ≠ 32
  | .mmtQ4 => c.bs = 0 ∨ c.bs % 2 = 1
  | .unpackI4 => c.bs = 0 ∨ c.bs % 2 = 1
  | .dequantQ8 => c.bs ≠ 32
  | .dequantQ4 => c.bs = 0 ∨ c.bs % 2 = 1

/-- The packed dimension breaks its rule (60_exceptions.md R174, check 0x23). -/
def PackedDimBroken (i : Instr) (c : Snapshot) : Prop :=
  match i with
  | .mmtfp => False
  | .mmtQ8 => c.slotB.dim2.toNat ≠ c.bs
  | .mmtQ4 => 2 * c.slotB.dim2.toNat ≠ c.bs
  | .unpackI4 => 2 * c.slotB.last ≠ c.bs
  | .dequantQ8 => c.slotB.dim2.toNat ≠ c.bs
  | .dequantQ4 => 2 * c.slotB.dim2.toNat ≠ c.bs

/-- BS does not divide K (60_exceptions.md R174, check 0x25). -/
def DivisibilityBroken (i : Instr) (c : Snapshot) : Prop :=
  match i with
  | .mmtfp => False
  | .mmtQ8 => c.slotA.last % c.bs ≠ 0
  | .mmtQ4 => c.slotA.last % c.bs ≠ 0
  | .unpackI4 => False
  | .dequantQ8 => False
  | .dequantQ4 => False

/-- The inner dimensions disagree (60_exceptions.md R174, check 0x26). -/
def InnerDimsBroken (i : Instr) (c : Snapshot) : Prop :=
  match i with
  | .mmtfp => c.slotA.last ≠ c.slotB.dim1.toNat
  | .mmtQ8 => c.slotA.last / c.bs ≠ c.slotB.dim1.toNat
  | .mmtQ4 => c.slotA.last / c.bs ≠ c.slotB.dim1.toNat
  | .unpackI4 => False
  | .dequantQ8 => False
  | .dequantQ4 => False

/-- O's dimensions are those of a matmul by A of rank 2 or 3 (60_exceptions.md R175). -/
def MatmulShapeOk (c : Snapshot) : Prop :=
  (c.slotA.rank = 2#2 ∧ c.slotO.dims = [c.slotA.dim0.toNat, c.slotB.dim0.toNat]) ∨
    (c.slotA.rank = 3#2 ∧ c.slotO.dims = [c.slotA.dim0.toNat, c.slotA.dim1.toNat, c.slotB.dim0.toNat])

/-- O's dimensions are those of an unpacking: qs's, with the last one doubled (60_exceptions.md R175). -/
def UnpackShapeOk (c : Snapshot) : Prop :=
  (c.slotB.rank = 1#2 ∧ c.slotO.dims = [2 * c.slotB.dim0.toNat]) ∨
    (c.slotB.rank = 2#2 ∧ c.slotO.dims = [c.slotB.dim0.toNat, 2 * c.slotB.dim1.toNat]) ∨
      (c.slotB.rank = 3#2 ∧ c.slotO.dims = [c.slotB.dim0.toNat, c.slotB.dim1.toNat, 2 * c.slotB.dim2.toNat])

/-- O's dimensions are those of a dequantization (60_exceptions.md R175). -/
def DequantShapeOk (c : Snapshot) : Prop := c.slotO.dims = [c.slotB.dim0.toNat, c.slotB.dim1.toNat * c.bs]

/-- O's dimensions are the command's output shape (60_exceptions.md R175, check 0x27). -/
def OutputShapeOk (i : Instr) (c : Snapshot) : Prop :=
  match i with
  | .mmtfp => MatmulShapeOk c
  | .mmtQ8 => MatmulShapeOk c
  | .mmtQ4 => MatmulShapeOk c
  | .unpackI4 => UnpackShapeOk c
  | .dequantQ8 => DequantShapeOk c
  | .dequantQ4 => DequantShapeOk c

/-- The start check named by `f` fails at the slot named by `f` (7 for no slot), as 60_exceptions.md R174 words it. The first
two checks concern the command word, so no command violates them. -/
def Violates (i : Instr) (c : Snapshot) (p : Platform) (f : Failure) : Prop :=
  match f.check with
  | .opReserved => False
  | .cmdRsvdBits => False
  | .dtypeNotAllowed =>
    ∃ r ∈ roles i, f.slot.toNat = r.slot.val ∧ ∀ d ∈ r.dtypes, (c.slot r.slot).dtype ≠ d.code
  | .rankNotAllowed => ∃ r ∈ roles i, f.slot.toNat = r.slot.val ∧ ¬ RankFits c r
  | .dimZero => ∃ r ∈ roles i, f.slot.toNat = r.slot.val ∧ 0 ∈ (c.slot r.slot).dims
  | .blockIllegal => f.slot = 7#3 ∧ BlockBroken i c
  | .packedDimMismatch => f.slot = 1#3 ∧ PackedDimBroken i c
  | .scaleShapeMismatch =>
    ∃ s ∈ scaleSlots i, f.slot.toNat = s.val ∧ (c.slot s).dims ≠ [c.slotB.dim0.toNat, c.slotB.dim1.toNat, 1]
  | .kNotDivisible => f.slot = 0#3 ∧ DivisibilityBroken i c
  | .innerDimMismatch => f.slot = 1#3 ∧ InnerDimsBroken i c
  | .outputShapeMismatch => f.slot = 4#3 ∧ ¬ OutputShapeOk i c
  | .misaligned => ∃ r ∈ roles i, f.slot.toNat = r.slot.val ∧ (c.slot r.slot).addr % (c.slot r.slot).esize ≠ 0
  | .rangeWrap => ∃ r ∈ roles i, f.slot.toNat = r.slot.val ∧ 2 ^ 64 < (c.slot r.slot).addr + (c.slot r.slot).bytes
  | .notAdmitted =>
    ∃ r ∈ roles i, f.slot.toNat = r.slot.val ∧
      ∃ a, (c.slot r.slot).addr ≤ a ∧ a < (c.slot r.slot).addr + (c.slot r.slot).bytes ∧
        admits p a (if r.slot = 4 then .write else .read) = false
  | .outputOverlap =>
    ∃ s ∈ inputSlots i, f.slot.toNat = s.val ∧
      ∃ a, (c.slotO.addr ≤ a ∧ a < c.slotO.addr + c.slotO.bytes) ∧
        (c.slot s).addr ≤ a ∧ a < (c.slot s).addr + (c.slot s).bytes

/-- Failure `f` is reported in preference to `g`: an earlier check, or the same check at a lower slot (60_exceptions.md
R175). -/
def Failure.before (f g : Failure) : Prop :=
  f.check.position < g.check.position ∨ (f.check = g.check ∧ f.slot.toNat < g.slot.toNat)

/-- The slots a check can name (60_exceptions.md R174, column SLOT). -/
def CheckId.canName : CheckId → Nat → Bool
  | .opReserved, n => n == 7
  | .cmdRsvdBits, n => n == 7
  | .dtypeNotAllowed, n => n < 5
  | .rankNotAllowed, n => n < 5
  | .dimZero, n => n < 5
  | .blockIllegal, n => n == 7
  | .packedDimMismatch, n => n == 1
  | .scaleShapeMismatch, n => n == 2 || n == 3
  | .kNotDivisible, n => n == 0
  | .innerDimMismatch, n => n == 1
  | .outputShapeMismatch, n => n == 4
  | .misaligned, n => n < 5
  | .rangeWrap, n => n < 5
  | .notAdmitted, n => n < 5
  | .outputOverlap, n => n < 4

/-- ERR_CODE and ERR_INFO hold nothing (10_state.md R28, R29). -/
abbrev ReportEmpty (s : State) : Prop := s.errCode = 0#8 ∧ s.errCheck = 0#8 ∧ s.errSlot = 0#3

/-- ERR_CODE and ERR_INFO hold a row of 60_exceptions.md R174. -/
def ReportOfTable (s : State) : Prop :=
  ∃ id : CheckId, s.errCode = id.errClass.code ∧ s.errCheck = id.code ∧ id.canName s.errSlot.toNat = true

/-- DONE and ERROR are never both 1, and neither is 1 while BUSY is (10_state.md R27, 60_exceptions.md R171). -/
abbrev StatusConsistent (s : State) : Prop :=
  ¬ (s.done = true ∧ s.error = true) ∧ (s.busy = true → s.done = false ∧ s.error = false)

/-- The error registers hold nothing or a row of the table; nothing while a command is in flight and after a successful
completion; a row after an error completion (10_state.md R28, R29). -/
def ReportConsistent (s : State) : Prop :=
  (ReportEmpty s ∨ ReportOfTable s) ∧ (s.busy = true ∨ s.done = true → ReportEmpty s) ∧ (s.error = true → ReportOfTable s)

/-- Data memory is in canonical form and lists only addresses that exist (20_memory.md R60). -/
abbrev MemoryCanonical (s : State) : Prop := s.mem.wf = true ∧ s.mem.inSpace = true

/-- The invariant of the machine. The hazard flag is one of a command in flight. -/
structure Inv (s : State) : Prop where
  status : StatusConsistent s
  report : ReportConsistent s
  memory : MemoryCanonical s
  hazard : s.tainted = true → s.busy = true

/-- The output element of each command at an index tuple of O (41_unpack.md R130, 42_dequant.md R142, R143, 43_matmul.md R150
to R152). -/
def outputValue : Instr → Snapshot → Memory → List Nat → Nat
  | .mmtfp => matmulValue denseWeight
  | .mmtQ8 => matmulValue dq8
  | .mmtQ4 => matmulValue dq4
  | .unpackI4 => unpackValue
  | .dequantQ8 => dequantValue dq8
  | .dequantQ4 => dequantValue dq4

/-- Every check of the command passes, and it reads no read-sensitive byte: the command executes normally (60_exceptions.md
R177, 20_memory.md R72). -/
abbrev Runs (i : Instr) (c : Snapshot) (p : Platform) : Prop := check i c p = none ∧ readsSensitive i c p = false

/-- Execute with its element stores in the given order, each value read from the memory the stores before it have left
(20_memory.md R76). -/
def executeInOrder (i : Instr) (c : Snapshot) (order : List (List Nat)) (m : Memory) : Memory :=
  order.foldl (fun m' idx => store m' c.slotO idx (outputValue i c m' idx)) m

/-- The Host performs lines one after the other, without branching (30_encoding.md R103). -/
def hostRun : List HostInstr → State → Outcome
  | [], s => .next s
  | h :: hs, s =>
    match hostExec h s with
    | .next t => hostRun hs t
    | .fault f => .fault f
    | .refused r => .refused r

/-- The script line stores to the data byte at `a` (30_encoding.md R103). -/
def HostInstr.stores : HostInstr → Nat → Prop
  | .wr _ _ _, _ => False
  | .rd _ _ _, _ => False
  | .poll _ _ _, _ => False
  | .ifGoto _ _ _ _ _, _ => False
  | .label _, _ => False
  | .memW32 b _, a => b.toNat ≤ a ∧ a < b.toNat + 4
  | .memW16 b _, a => b.toNat ≤ a ∧ a < b.toNat + 2
  | .memW8 b _, a => a = b.toNat
  | .memR32 _ _, _ => False

/-- Two memories hold the same weight row j, with its scales and offsets (43_matmul.md R155). -/
def WeightRowsAgree (i : Instr) (c : Snapshot) (m n : Memory) (j : Nat) : Prop :=
  match i with
  | .mmtfp => ∀ k, k < c.slotB.dim1.toNat → elem m c.slotB [j, k] = elem n c.slotB [j, k]
  | .mmtQ8 =>
    ∀ kb, kb < c.slotB.dim1.toNat → elem m c.slotD [j, kb, 0] = elem n c.slotD [j, kb, 0] ∧
      ∀ x, x < c.slotB.dim2.toNat → elem m c.slotB [j, kb, x] = elem n c.slotB [j, kb, x]
  | .mmtQ4 =>
    ∀ kb, kb < c.slotB.dim1.toNat → elem m c.slotD [j, kb, 0] = elem n c.slotD [j, kb, 0] ∧
      elem m c.slotM [j, kb, 0] = elem n c.slotM [j, kb, 0] ∧
      ∀ x, x < c.slotB.dim2.toNat → elem m c.slotB [j, kb, x] = elem n c.slotB [j, kb, x]
  | .unpackI4 => True
  | .dequantQ8 => True
  | .dequantQ4 => True

/-- The command is one of the three matmuls (43_matmul.md). -/
def IsMatmul (i : Instr) : Prop := i = .mmtfp ∨ i = .mmtQ8 ∨ i = .mmtQ4

/-- `a` is a byte of the slot's region (20_memory.md R66). -/
abbrev InRegion (t : Slot) (a : Nat) : Prop := t.addr ≤ a ∧ a < t.addr + t.bytes

/-- A magnitude, in units of 2^-149, with at most 24 significant bits: a multiple of a power of two below 2^24 times it.
Below `f32Limit` these are the finite binary32 magnitudes (40_numerics.md R110). -/
def Representable (mag : Nat) : Prop := ∃ k t : Nat, k < 2 ^ 24 ∧ mag = k * 2 ^ t

/-- The magnitude `r` is n * 2^-d rounded to nearest, ties to even: no representable one is nearer, and if another is equally
near, `r` is the even one, an even multiple of the distance between the two (40_numerics.md R114). -/
def IsNearestEven (r n d : Nat) : Prop :=
  Representable r ∧
  ∀ m, Representable m →
    |(r * 2 ^ d : Int) - n| ≤ |(m * 2 ^ d : Int) - n| ∧
    (|(r * 2 ^ d : Int) - n| = |(m * 2 ^ d : Int) - n| → m ≠ r → (r : Int) % (2 * |(r : Int) - m|) = 0)

/-- The script line is a Host store of the n bytes of `v` at `a` (30_encoding.md R103). -/
def HostInstr.IsStore (h : HostInstr) (n : Nat) (a : BitVec 64) (v : Nat) : Prop :=
  (∃ w, h = .memW32 a w ∧ n = 4 ∧ v = w.toNat) ∨ (∃ w, h = .memW16 a w ∧ n = 2 ∧ v = w.toNat) ∨
    ∃ w, h = .memW8 a w ∧ n = 1 ∧ v = w.toNat

/-- The Host moves in the next step: alone or together with the Engine, by the event list or because it is empty and no command is
in flight (60_exceptions.md R170; log 5). -/
def HostMoves (s : State) : Prop :=
  (s.events = [] ∧ s.busy = false) ∨ ∃ rest, s.events = .host :: rest ∨ s.events = .together :: rest

/-- The DTYPE codes of the used slots are those of 30_encoding.md R95: F32 is 1, F16 2, I8 3, U8 4 (R94). -/
def DtypesOfTable (i : Instr) (c : Snapshot) : Prop :=
  match i with
  | .mmtfp => c.slots.s0.dtype = 1#4 ∧ c.slots.s1.dtype = 1#4 ∧ c.slots.s4.dtype = 1#4
  | .mmtQ8 =>
    c.slots.s0.dtype = 1#4 ∧ (c.slots.s1.dtype = 3#4 ∨ c.slots.s1.dtype = 4#4) ∧ c.slots.s2.dtype = 2#4 ∧ c.slots.s4.dtype = 1#4
  | .mmtQ4 =>
    c.slots.s0.dtype = 1#4 ∧ c.slots.s1.dtype = 4#4 ∧ c.slots.s2.dtype = 2#4 ∧ c.slots.s3.dtype = 2#4 ∧ c.slots.s4.dtype = 1#4
  | .unpackI4 => c.slots.s1.dtype = 4#4 ∧ c.slots.s4.dtype = 4#4
  | .dequantQ8 => (c.slots.s1.dtype = 3#4 ∨ c.slots.s1.dtype = 4#4) ∧ c.slots.s2.dtype = 2#4 ∧ c.slots.s4.dtype = 1#4
  | .dequantQ4 => c.slots.s1.dtype = 4#4 ∧ c.slots.s2.dtype = 2#4 ∧ c.slots.s3.dtype = 2#4 ∧ c.slots.s4.dtype = 1#4

/-- The ranks of the used slots are those of 30_encoding.md R95. -/
def RanksOfTable (i : Instr) (c : Snapshot) : Prop :=
  match i with
  | .mmtfp =>
    (c.slots.s0.rank = 2#2 ∨ c.slots.s0.rank = 3#2) ∧ c.slots.s1.rank = 2#2 ∧ c.slots.s4.rank = c.slots.s0.rank
  | .mmtQ8 =>
    (c.slots.s0.rank = 2#2 ∨ c.slots.s0.rank = 3#2) ∧ c.slots.s1.rank = 3#2 ∧ c.slots.s2.rank = 3#2 ∧
      c.slots.s4.rank = c.slots.s0.rank
  | .mmtQ4 =>
    (c.slots.s0.rank = 2#2 ∨ c.slots.s0.rank = 3#2) ∧ c.slots.s1.rank = 3#2 ∧ c.slots.s2.rank = 3#2 ∧ c.slots.s3.rank = 3#2 ∧
      c.slots.s4.rank = c.slots.s0.rank
  | .unpackI4 =>
    (c.slots.s1.rank = 1#2 ∨ c.slots.s1.rank = 2#2 ∨ c.slots.s1.rank = 3#2) ∧ c.slots.s4.rank = c.slots.s1.rank
  | .dequantQ8 => c.slots.s1.rank = 3#2 ∧ c.slots.s2.rank = 3#2 ∧ c.slots.s4.rank = 2#2
  | .dequantQ4 => c.slots.s1.rank = 3#2 ∧ c.slots.s2.rank = 3#2 ∧ c.slots.s3.rank = 3#2 ∧ c.slots.s4.rank = 2#2

/-- Two slots describe the same tensor: they agree but for the DIM words beyond the rank (10_state.md R33). -/
def Slot.SameTensor (t u : Slot) : Prop :=
  t.addrLo = u.addrLo ∧ t.addrHi = u.addrHi ∧ t.dtype = u.dtype ∧ t.rank = u.rank ∧ t.dims = u.dims

end Sys2Proof.Machine
end

