-- ==== Sys2Proof/Certificates/Slice0/Obligations.lean ====
section
/-! DEFINITION. The statements for the provers: what the rules of spec/ say the machine does. -/

open Sys2Proof Sys2Proof.Machine

/-! Encoding. -/

/-- 30_encoding.md R93, R102: the command words of the six commands, written out, decode to them, and decoding what was encoded
gives the command back. -/
def Obligations.CommandWordsDecode : Prop :=
  (∀ i : Instr, i.wellFormed = true → decode (encode i) = .command i ∧ wordWellFormed (encode i) = true) ∧
  decode 0x00000001#32 = .command .mmtfp ∧ decode 0x00000002#32 = .command .mmtQ8 ∧
  decode 0x00000003#32 = .command .mmtQ4 ∧ decode 0x00000004#32 = .command .unpackI4 ∧
  decode 0x00000005#32 = .command .dequantQ8 ∧ decode 0x00000006#32 = .command .dequantQ4

/-- 30_encoding.md R101: the decoder on every 32-bit word. -/
def Obligations.DecodeClassifiesEveryWord : Prop :=
  ∀ w : Word,
    (decode w = .illegal .opReserved ↔ ¬ (1 ≤ w.toNat % 16 ∧ w.toNat % 16 ≤ 6)) ∧
    (decode w = .illegal .rsvdBits ↔ (1 ≤ w.toNat % 16 ∧ w.toNat % 16 ≤ 6) ∧ w.toNat / 16 ≠ 0) ∧
    (∀ i : Instr, decode w = .command i ↔ w = encode i)

/-! Steps. -/

/-- The step of a machine with a command in flight, when the Engine moves, is `exec` of the command that the snapshot's CMD
decodes to (60_exceptions.md R170). That an empty event list leaves the step to the Engine is the model's choice (log 5). -/
def Obligations.StepRunsDecodedCommand : Prop :=
  ∀ (s : State) (i : Instr), s.busy = true → decode s.snap.cmd = .command i →
    (s.events = [] → step s = exec i s) ∧
    (∀ rest, s.events = .engine :: rest → step s = exec i { s with events := rest })

/-- The step of the Host is its next script line (30_encoding.md R103). The event list is the model's (log 5). -/
def Obligations.StepRunsHostLine : Prop :=
  ∀ (s : State) (h : HostInstr), s.script[s.line]? = some h →
    (s.events = [] → s.busy = false → step s = hostExec h s) ∧
    (∀ rest, s.events = .host :: rest → step s = hostExec h { s with events := rest })

/-- The state `withFetchWord` makes has just accepted the word with the live slots and BLOCK (60_exceptions.md R171; log 13),
and its next step runs it. -/
def Obligations.FetchedWordRunsNext : Prop :=
  ∀ (s : State) (i : Instr),
    step (s.withFetchWord 32 (encode i).toNat) = exec i (s.withFetchWord 32 (encode i).toNat) ∧
    (s.withFetchWord 32 (encode i).toNat).snap = ⟨encode i, s.block, s.slots⟩ ∧
    (s.withFetchWord 32 (encode i).toNat).mem = s.mem

/-- 30_encoding.md R96, R97: a word that is no command ends in error completion with ILLEGAL_CMD, slot 7, and touches no data
memory. That the completion clears the hazard flag `tainted` is the model's (log 9). -/
def Obligations.IllegalWordEndsInError : Prop :=
  ∀ s : State, s.busy = true →
    (¬ (1 ≤ s.snap.cmd.toNat % 16 ∧ s.snap.cmd.toNat % 16 ≤ 6) →
      engineStep s = .next { s with
        busy := false, error := true, errCode := 1#8, errCheck := 0x01#8, errSlot := 7#3, tainted := false }) ∧
    ((1 ≤ s.snap.cmd.toNat % 16 ∧ s.snap.cmd.toNat % 16 ≤ 6) → s.snap.cmd.toNat / 16 ≠ 0 →
      engineStep s = .next { s with
        busy := false, error := true, errCode := 1#8, errCheck := 0x02#8, errSlot := 7#3, tainted := false })

/-! Start. -/

/-- 60_exceptions.md R171: what an accepted start does, and nothing else. That it clears the hazard flag `tainted` is the model's
(log 9). -/
def Obligations.StartAcceptedWhenIdle : Prop :=
  ∀ (s : State) (v : Word), s.busy = false → v.getLsbD 0 = true → v.getLsbD 1 = false →
    writeReg .ctrl v s =
      { s with
        snap := ⟨s.cmd, s.block, s.slots⟩, done := false, error := false, errCode := 0#8, errCheck := 0#8,
        errSlot := 0#3, busy := true, irqEn := v.getLsbD 2, tainted := false } ∧
    irq (writeReg .ctrl v s) = false

/-- 60_exceptions.md R172: a start while busy sets OVERRUN and IRQ_EN, and changes nothing else. -/
def Obligations.StartWhileBusyOverruns : Prop :=
  ∀ (s : State) (v : Word), s.busy = true → v.getLsbD 0 = true → v.getLsbD 1 = false →
    writeReg .ctrl v s = { s with overrun := true, irqEn := v.getLsbD 2 }

/-! Registers. -/

/-- 10_state.md R27: STATUS reads BUSY, DONE, ERROR and OVERRUN in bits 0 to 3 and 0 in the others; a written 1 clears DONE, ERROR,
OVERRUN, a 0 leaves them; BUSY and the reserved bits ignore writes; no other register and no data byte changes. -/
def Obligations.StatusWriteOneToClear : Prop :=
  ∀ (s : State) (v : Word),
    ((readReg .status s).getLsbD 0 = s.busy ∧ (readReg .status s).getLsbD 1 = s.done ∧
      (readReg .status s).getLsbD 2 = s.error ∧ (readReg .status s).getLsbD 3 = s.overrun ∧
      ∀ k, 4 ≤ k → (readReg .status s).getLsbD k = false) ∧
    readReg .status (writeReg .status v s) = readReg .status s &&& ~~~(v &&& 0x0000000E#32) ∧
    (∀ r, r ≠ .status → readReg r (writeReg .status v s) = readReg r s) ∧
    (writeReg .status v s).mem = s.mem ∧ (writeReg .status v s).snap = s.snap

/-- 10_state.md R26, R30, R31, R34, R35, R36, R39: CMD, BLOCK and the slot words read back what was written, DESC its six low
bits, whether or not a command is in flight; a CTRL write with neither START nor SOFT_RESET changes IRQ_EN only, which is
all that CTRL reads. -/
def Obligations.WrittenRegistersReadBack : Prop :=
  ∀ (s : State) (v : Word),
    (v.getLsbD 0 = false → v.getLsbD 1 = false → writeReg .ctrl v s = { s with irqEn := v.getLsbD 2 } ∧
      readReg .ctrl (writeReg .ctrl v s) = v &&& 0x00000004#32) ∧
    readReg .cmd (writeReg .cmd v s) = v ∧ readReg .block (writeReg .block v s) = v ∧
    ∀ (j : Fin 5) (w : SlotWord),
      readReg (.slot j w) (writeReg (.slot j w) v s) = if w = .desc then v &&& 0x0000003F#32 else v

/-- 10_state.md R38: "A register write has only the effects stated for that register": a write of CMD, BLOCK or a slot word
leaves every other register, data memory and the snapshot alone. -/
def Obligations.OperandRegisterWriteFrame : Prop :=
  ∀ (s : State) (v : Word) (r r' : Reg), (r = .cmd ∨ r = .block ∨ ∃ j w, r = .slot j w) → r' ≠ r →
    readReg r' (writeReg r v s) = readReg r' s ∧ (writeReg r v s).mem = s.mem ∧ (writeReg r v s).snap = s.snap ∧
    (writeReg r v s).busy = s.busy ∧ irq (writeReg r v s) = irq s

/-- 10_state.md R24, R25, R28, R29, R37: read-only and reserved registers ignore writes; ID, VERSION and reserved offsets read
their constants. -/
def Obligations.ReadOnlyRegistersIgnoreWrites : Prop :=
  ∀ (s : State) (v : Word),
    (∀ r, r = .id ∨ r = .version ∨ r = .errCode ∨ r = .errInfo ∨ r = .reserved → writeReg r v s = s) ∧
    readReg .id s = 0x51474531#32 ∧ readReg .version s = 0x00000001#32 ∧ readReg .reserved s = 0#32

/-- 10_state.md R23, R32, 00_scope.md R8: the offsets of the map; each register stands at its own aligned offset and nowhere else;
ENGINE_BASE is 4 KiB aligned, and from an MMIO address of the block its offset is found again. -/
def Obligations.RegisterMapIsOneToOne : Prop :=
  (regAt 0x000 = .id ∧ regAt 0x004 = .version ∧ regAt 0x008 = .ctrl ∧ regAt 0x00C = .status ∧ regAt 0x010 = .errCode ∧
    regAt 0x014 = .errInfo ∧ regAt 0x018 = .cmd ∧ regAt 0x01C = .block) ∧
  (∀ s : Fin 5,
    regAt (0x040 + 0x20 * s.val + 0x00) = .slot s .addrLo ∧ regAt (0x040 + 0x20 * s.val + 0x04) = .slot s .addrHi ∧
    regAt (0x040 + 0x20 * s.val + 0x08) = .slot s .desc ∧ regAt (0x040 + 0x20 * s.val + 0x0C) = .slot s .dim0 ∧
    regAt (0x040 + 0x20 * s.val + 0x10) = .slot s .dim1 ∧ regAt (0x040 + 0x20 * s.val + 0x14) = .slot s .dim2) ∧
  (∀ r : Reg, regAt r.offset = r ∧ r.offset % 4 = 0 ∧ r.offset < 4096) ∧
  (∀ off, regAt off = .reserved ∨ (regAt off).offset = off) ∧
  Config.engineBase % 4096 = 0 ∧ ∀ off, off < 4096 → offsetOfMmio (mmioAddr off) = some off

/-- 10_state.md R37: the reserved offsets, which are multiples of 4 (R23), read 0 and ignore writes, also as the Host accesses
them. -/
def Obligations.ReservedOffsetsAreReserved : Prop :=
  ∀ off, off % 4 = 0 → ((0x020 ≤ off ∧ off ≤ 0x03C) ∨ (0x0E0 ≤ off ∧ off ≤ 0xFFC) ∨
      ∃ j, j < 5 ∧ (off = 0x040 + 0x20 * j + 0x18 ∨ off = 0x040 + 0x20 * j + 0x1C)) →
    regAt off = .reserved ∧ ∀ (s : State) (v : Word) (name : Nat),
      readReg (regAt off) s = 0#32 ∧ writeReg (regAt off) v s = s ∧
      hostExec (.wr 32 off v) s = .next { s with line := s.line + 1 } ∧
      hostExec (.rd 32 off name) s = .next { s with line := s.line + 1, binds := (name, 0#32) :: s.binds }

/-- 10_state.md R38: a 32-bit aligned access of the block does its register's write, or reads it with no side effect; any other
width or alignment is refused. -/
def Obligations.HostRegisterAccess : Prop :=
  ∀ (s : State) (width off name : Nat) (v : Word), off < 4096 →
    (width = 32 → off % 4 = 0 →
      hostExec (.wr width off v) s = .next (nextLine (writeReg (regAt off) v s)) ∧
      hostExec (.rd width off name) s =
        .next { s with line := s.line + 1, binds := (name, readReg (regAt off) s) :: s.binds }) ∧
    (width ≠ 32 ∨ off % 4 ≠ 0 →
      (∃ r, hostExec (.wr width off v) s = .refused r) ∧ ∃ r, hostExec (.rd width off name) s = .refused r)

/-- 10_state.md R39, R40, 70_reset_and_hazards.md R207: a write of CMD, BLOCK or a slot does not change the command in flight:
its completion with the write made before is its completion with the write made after. -/
def Obligations.RunningCommandIgnoresRegisterWrites : Prop :=
  ∀ (s t : State) (i : Instr) (r : Reg) (v : Word), (r = .cmd ∨ r = .block ∨ ∃ j w, r = .slot j w) →
    exec i s = .next t → exec i (writeReg r v s) = .next (writeReg r v t)

/-- 60_exceptions.md R180: when `irq` is 1, and what makes it 0. -/
def Obligations.IrqLineIsLevel : Prop :=
  ∀ (s : State) (v : Word) (b : Bool),
    (irq s = true ↔ s.irqEn = true ∧ (s.done = true ∨ s.error = true)) ∧
    irq { s with overrun := b } = irq s ∧
    ((s.done = true → v.getLsbD 1 = true) → (s.error = true → v.getLsbD 2 = true) →
      irq (writeReg .status v s) = false) ∧
    (s.busy = false → v.getLsbD 0 = true → irq (writeReg .ctrl v s) = false) ∧
    (v.getLsbD 2 = false → irq (writeReg .ctrl v s) = false) ∧
    (v.getLsbD 2 = false → v.getLsbD 0 = false → v.getLsbD 1 = false →
      (writeReg .ctrl v s).done = s.done ∧ (writeReg .ctrl v s).error = s.error) ∧
    irq (resetEngine s) = false

/-! Reset. -/

/-- 10_state.md R45, 70_reset_and_hazards.md R200, R201, R209: after a SOFT_RESET write, with or without START, every register
reads its reset value, no command is in flight and `irq` is 0. That power-on reset is an event (log 5) whose step gives the
whole state of that write, the Host's part and data memory kept, is the model's reading of R200 (log 17). -/
def Obligations.SoftResetRestoresRegisters : Prop :=
  ∀ (s : State) (v : Word) (r : Reg), v.getLsbD 1 = true →
    (∀ rest, s.events = .powerOn :: rest → step s = .next (writeReg .ctrl v { s with events := rest })) ∧
    readReg r (writeReg .ctrl v s) =
        (if r = .id then 0x51474531#32 else if r = .version then 0x00000001#32 else 0#32) ∧
    (writeReg .ctrl v s).busy = false ∧ irq (writeReg .ctrl v s) = false

/-- 70_reset_and_hazards.md R202, R203: reset changes no data byte but those of an aborted command's output region, which
become unspecified; no completion and no interrupt. The free value is any value (log 8). -/
def Obligations.ResetAbortsCommandInFlight : Prop :=
  ∀ s : State, s.mem.wf = true →
    (s.busy = false → (resetEngine s).mem = s.mem) ∧
    (∀ a, ¬ InRegion s.snap.slotO a → (resetEngine s).mem.read a = s.mem.read a) ∧
    (s.busy = true → ∀ a, InRegion s.snap.slotO a → a < 2 ^ 64 →
      (resetEngine s).mem.read a = Config.freeByte s.draws a) ∧
    (resetEngine s).done = false ∧ (resetEngine s).error = false ∧ (resetEngine s).busy = false ∧
    irq (resetEngine s) = false

/-- 10_state.md R45: the registers of the machine right after reset. -/
def Obligations.ResetStateRegisters : Prop :=
  (∀ r : Reg, readReg r State.reset =
    if r = .id then 0x51474531#32 else if r = .version then 0x00000001#32 else 0#32) ∧
  State.reset.busy = false ∧ irq State.reset = false

/-! Start checks. -/

/-- 60_exceptions.md R173, R174: the error code and the id of each check. -/
def Obligations.CheckCodesAreTheTable : Prop :=
  ([.opReserved, .cmdRsvdBits, .dtypeNotAllowed, .rankNotAllowed, .dimZero, .blockIllegal, .packedDimMismatch,
      .scaleShapeMismatch, .kNotDivisible, .innerDimMismatch, .outputShapeMismatch, .misaligned, .rangeWrap,
      .notAdmitted, .outputOverlap] : List CheckId).map (fun id => (id.code.toNat, id.errClass.code.toNat)) =
    [(0x01, 1), (0x02, 1), (0x10, 2), (0x20, 3), (0x21, 3), (0x22, 3), (0x23, 3), (0x24, 3), (0x25, 3), (0x26, 3),
      (0x27, 3), (0x30, 5), (0x40, 6), (0x41, 6), (0x50, 7)]

/-- 30_encoding.md R95: the table of the slot roles written out. The used slots, the inputs among them and the scale and offset
slots of each command; which slot each role is; and the dtype and rank columns, by what a start reports. (The BLOCK column is
`BlockBroken`'s, below.) -/
def Obligations.SlotRolesAreTheTable : Prop :=
  ([.mmtfp, .mmtQ8, .mmtQ4, .unpackI4, .dequantQ8, .dequantQ4] : List Instr).map
      (fun i => ((roles i).map fun r => r.slot.val, (inputSlots i).map Fin.val, (scaleSlots i).map Fin.val)) =
    [([0, 1, 4], [0, 1], []), ([0, 1, 2, 4], [0, 1, 2], [2]), ([0, 1, 2, 3, 4], [0, 1, 2, 3], [2, 3]),
      ([1, 4], [1], []), ([1, 2, 4], [1, 2], [2]), ([1, 2, 3, 4], [1, 2, 3], [2, 3])] ∧
  ∀ (i : Instr) (c : Snapshot) (p : Platform),
    [c.slotA, c.slotB, c.slotD, c.slotM, c.slotO] = [c.slots.s0, c.slots.s1, c.slots.s2, c.slots.s3, c.slots.s4] ∧
    [c.slot 0, c.slot 1, c.slot 2, c.slot 3, c.slot 4] = [c.slots.s0, c.slots.s1, c.slots.s2, c.slots.s3, c.slots.s4] ∧
    ((∃ f, check i c p = some f ∧ f.check = .dtypeNotAllowed) ↔ ¬ DtypesOfTable i c) ∧
    ((∃ f, check i c p = some f ∧ f.check = .rankNotAllowed) ↔ DtypesOfTable i c ∧ ¬ RanksOfTable i c)

/-- 60_exceptions.md R174, R175, R176: the failure reported is the first violated check in the fixed order, at its lowest slot,
and nothing is reported exactly when no check is violated. -/
def Obligations.CheckReportsFirstViolation : Prop :=
  ∀ (i : Instr) (c : Snapshot) (p : Platform),
    (∀ f, check i c p = some f ↔ Violates i c p f ∧ ∀ g, Violates i c p g → g ≠ f → f.before g) ∧
    (check i c p = none ↔ ∀ f, ¬ Violates i c p f)

/-- 60_exceptions.md R178: error completion of every command: code, check and slot are recorded, BUSY is cleared, ERROR set, and
nothing else changes, no data byte among it. That it clears the hazard flag `tainted` is the model's (log 9). -/
def Obligations.FailedCheckEndsInError : Prop :=
  ∀ (i : Instr) (s : State) (f : Failure), check i s.snap s.platform = some f →
    ∃ t, exec i s = .next t ∧
      t = { s with
        errCode := f.check.errClass.code, errCheck := f.check.code, errSlot := f.slot, busy := false, error := true,
        tainted := false } ∧
      (readReg .errCode t).toNat = f.check.errClass.code.toNat ∧
      (readReg .errInfo t).toNat = f.slot.toNat * 256 + f.check.code.toNat

/-- 60_exceptions.md R183, R173: no command raises code 4 or a code above 7. -/
def Obligations.NoCommandRaisesOverflow : Prop :=
  ∀ (i : Instr) (s t : State), exec i s = .next t → t.errCode ≠ s.errCode →
    t.errCode.toNat ≠ 4 ∧ 1 ≤ t.errCode.toNat ∧ t.errCode.toNat ≤ 7

/-! Commands. -/

/-- 43_matmul.md R150: MMTFP completes, writes every output element and nothing else. -/
def Obligations.MmtfpWritesDotProducts : Prop :=
  ∀ s : State, s.mem.wf = true → s.tainted = false → Runs .mmtfp s.snap s.platform →
    ∃ m : Memory,
      exec .mmtfp s = .next { s with mem := m, busy := false, done := true } ∧
      (∀ a, ¬ InRegion s.snap.slotO a → m.read a = s.mem.read a) ∧
      (s.snap.slotA.rank = 2#2 → ∀ i j, i < s.snap.slotA.dim0.toNat → j < s.snap.slotB.dim0.toNat →
        elem m s.snap.slotO [i, j] =
          (canon32 (dot32 (fun k => F32.ofBits (BitVec.ofNat 32 (elem s.mem s.snap.slotA [i, k])))
            (fun k => F32.ofBits (BitVec.ofNat 32 (elem s.mem s.snap.slotB [j, k]))) s.snap.slotA.dim1.toNat)).toNat) ∧
      (s.snap.slotA.rank = 3#2 → ∀ b i j, b < s.snap.slotA.dim0.toNat → i < s.snap.slotA.dim1.toNat →
        j < s.snap.slotB.dim0.toNat →
        elem m s.snap.slotO [b, i, j] =
          (canon32 (dot32 (fun k => F32.ofBits (BitVec.ofNat 32 (elem s.mem s.snap.slotA [b, i, k])))
            (fun k => F32.ofBits (BitVec.ofNat 32 (elem s.mem s.snap.slotB [j, k]))) s.snap.slotA.dim2.toNat)).toNat)

/-- 43_matmul.md R151: MMT_Q8 completes, writes every output element and nothing else. -/
def Obligations.MmtQ8WritesDotProducts : Prop :=
  ∀ s : State, s.mem.wf = true → s.tainted = false → Runs .mmtQ8 s.snap s.platform →
    ∃ m : Memory,
      exec .mmtQ8 s = .next { s with mem := m, busy := false, done := true } ∧
      (∀ a, ¬ InRegion s.snap.slotO a → m.read a = s.mem.read a) ∧
      (s.snap.slotA.rank = 2#2 → ∀ i j, i < s.snap.slotA.dim0.toNat → j < s.snap.slotB.dim0.toNat →
        elem m s.snap.slotO [i, j] =
          (canon32 (dot32 (fun k => F32.ofBits (BitVec.ofNat 32 (elem s.mem s.snap.slotA [i, k])))
            (dq8 s.snap s.mem j) s.snap.slotA.dim1.toNat)).toNat) ∧
      (s.snap.slotA.rank = 3#2 → ∀ b i j, b < s.snap.slotA.dim0.toNat → i < s.snap.slotA.dim1.toNat →
        j < s.snap.slotB.dim0.toNat →
        elem m s.snap.slotO [b, i, j] =
          (canon32 (dot32 (fun k => F32.ofBits (BitVec.ofNat 32 (elem s.mem s.snap.slotA [b, i, k])))
            (dq8 s.snap s.mem j) s.snap.slotA.dim2.toNat)).toNat)

/-- 43_matmul.md R152: MMT_Q4 completes, writes every output element and nothing else. -/
def Obligations.MmtQ4WritesDotProducts : Prop :=
  ∀ s : State, s.mem.wf = true → s.tainted = false → Runs .mmtQ4 s.snap s.platform →
    ∃ m : Memory,
      exec .mmtQ4 s = .next { s with mem := m, busy := false, done := true } ∧
      (∀ a, ¬ InRegion s.snap.slotO a → m.read a = s.mem.read a) ∧
      (s.snap.slotA.rank = 2#2 → ∀ i j, i < s.snap.slotA.dim0.toNat → j < s.snap.slotB.dim0.toNat →
        elem m s.snap.slotO [i, j] =
          (canon32 (dot32 (fun k => F32.ofBits (BitVec.ofNat 32 (elem s.mem s.snap.slotA [i, k])))
            (dq4 s.snap s.mem j) s.snap.slotA.dim1.toNat)).toNat) ∧
      (s.snap.slotA.rank = 3#2 → ∀ b i j, b < s.snap.slotA.dim0.toNat → i < s.snap.slotA.dim1.toNat →
        j < s.snap.slotB.dim0.toNat →
        elem m s.snap.slotO [b, i, j] =
          (canon32 (dot32 (fun k => F32.ofBits (BitVec.ofNat 32 (elem s.mem s.snap.slotA [b, i, k])))
            (dq4 s.snap s.mem j) s.snap.slotA.dim2.toNat)).toNat)

/-- 41_unpack.md R130, R131: UNPACK_I4 completes; packed byte p gives its low nibble to element 2p and its high nibble to element
2p + 1; nothing else is written. -/
def Obligations.UnpackWritesNibbles : Prop :=
  ∀ s : State, s.mem.wf = true → s.tainted = false → Runs .unpackI4 s.snap s.platform →
    ∃ m : Memory,
      exec .unpackI4 s = .next { s with mem := m, busy := false, done := true } ∧
      (∀ a, ¬ InRegion s.snap.slotO a → m.read a = s.mem.read a) ∧
      (∀ lead p, validIdx s.snap.slotB.dims (lead ++ [p]) = true →
        elem m s.snap.slotO (lead ++ [2 * p]) = elem s.mem s.snap.slotB (lead ++ [p]) % 16 ∧
        elem m s.snap.slotO (lead ++ [2 * p + 1]) = elem s.mem s.snap.slotB (lead ++ [p]) / 16)

/-- 42_dequant.md R142, R140: DEQUANT_Q8 completes, writes scale times the signed (I8) or unsigned (U8) byte to every output
element, and nothing else. -/
def Obligations.DequantQ8WritesWeights : Prop :=
  ∀ s : State, s.mem.wf = true → s.tainted = false → Runs .dequantQ8 s.snap s.platform →
    ∃ m : Memory,
      exec .dequantQ8 s = .next { s with mem := m, busy := false, done := true } ∧
      (∀ a, ¬ InRegion s.snap.slotO a → m.read a = s.mem.read a) ∧
      (∀ n k, n < s.snap.slotB.dim0.toNat → k < s.snap.slotB.dim1.toNat * 32 →
        elem m s.snap.slotO [n, k] =
          (canon32 (mul32 (f16ToF32 (BitVec.ofNat 16 (elem s.mem s.snap.slotD [n, k / 32, 0])))
            (intToF32
              (if s.snap.slotB.dtype = 3#4 then (BitVec.ofNat 8 (elem s.mem s.snap.slotB [n, k / 32, k % 32])).toInt
               else (elem s.mem s.snap.slotB [n, k / 32, k % 32] : Int))))).toNat)

/-- 42_dequant.md R143, R141: DEQUANT_Q4 completes, writes scale times the nibble plus the offset to every output element, and
nothing else. -/
def Obligations.DequantQ4WritesWeights : Prop :=
  ∀ s : State, s.mem.wf = true → s.tainted = false → Runs .dequantQ4 s.snap s.platform →
    ∃ m : Memory,
      exec .dequantQ4 s = .next { s with mem := m, busy := false, done := true } ∧
      (∀ a, ¬ InRegion s.snap.slotO a → m.read a = s.mem.read a) ∧
      (∀ n kb j, n < s.snap.slotB.dim0.toNat → kb < s.snap.slotB.dim1.toNat → j < s.snap.bs →
        elem m s.snap.slotO [n, kb * s.snap.bs + j] =
          (canon32 (add32
            (mul32 (f16ToF32 (BitVec.ofNat 16 (elem s.mem s.snap.slotD [n, kb, 0])))
              (intToF32
                (if j % 2 = 0 then (elem s.mem s.snap.slotB [n, kb, j / 2] % 16 : Nat)
                 else (elem s.mem s.snap.slotB [n, kb, j / 2] / 16 : Nat) : Nat)))
            (f16ToF32 (BitVec.ofNat 16 (elem s.mem s.snap.slotM [n, kb, 0]))))).toNat)

/-- 41_unpack.md R132: every byte UNPACK_I4 writes lies in [0, 15]. -/
def Obligations.UnpackedBytesBelowSixteen : Prop :=
  ∀ s : State, s.mem.wf = true → s.tainted = false → Runs .unpackI4 s.snap s.platform →
    ∃ t, exec .unpackI4 s = .next t ∧ ∀ a, InRegion s.snap.slotO a → (t.mem.read a).toNat ≤ 15

/-- 41_unpack.md R133: a packed byte is its two nibbles, and each pair of nibbles is one packed byte's. -/
def Obligations.UnpackingIsInvertible : Prop :=
  (∀ b : Byte, b = (nibbleAt b 0).setWidth 8 ||| ((nibbleAt b 1).setWidth 8 <<< 4)) ∧
  (∀ lo hi : BitVec 4, ∃ b : Byte, nibbleAt b 0 = lo ∧ nibbleAt b 1 = hi)

/-- 20_memory.md R78, R79: after a Host write into a region of the command in flight the command still completes, and every
output byte is a free value (log 8); no other byte changes. -/
def Obligations.HazardLeavesOutputUnspecified : Prop :=
  ∀ (i : Instr) (s : State), s.mem.wf = true → s.tainted = true → Runs i s.snap s.platform →
    ∃ m : Memory,
      exec i s = .next { s with
        mem := m, busy := false, done := true, tainted := false, draws := s.draws + 1 } ∧
      (∀ a, ¬ InRegion s.snap.slotO a → m.read a = s.mem.read a) ∧
      (∀ a, InRegion s.snap.slotO a → m.read a = Config.freeByte s.draws a)

/-- 20_memory.md R72: a command that would read a byte whose reads have side effects is refused. -/
def Obligations.ReadSensitiveInputIsRefused : Prop :=
  ∀ (i : Instr) (s : State) (j : Fin 5) (r : PlatformRange) (a : Nat), check i s.snap s.platform = none →
    j ∈ inputSlots i → InRegion (s.snap.slot j) a → r ∈ s.platform → r.restriction = .readSensitive →
    r.base ≤ a → a < r.base + r.size → exec i s = .refused .readSensitiveRegion

/-- 60_exceptions.md R177, R178, R189: when the Engine moves, by its event or because no event is pending (log 5), the command in
flight ends, with exactly one of DONE and ERROR; the only exception is a read-sensitive input. That it ends in one step is the
model's (log 6). -/
def Obligations.CommandInFlightCompletes : Prop :=
  ∀ s : State, Inv s → s.busy = true → (s.events = [] ∨ ∃ rest, s.events = .engine :: rest) →
    (∀ i, decode s.snap.cmd = .command i → readsSensitive i s.snap s.platform = false) →
    ∃ t, step s = .next t ∧ t.busy = false ∧ (t.done = true ∧ t.error = false ∧ ReportEmpty t ∨
      t.done = false ∧ t.error = true ∧ ReportOfTable t ∧ t.mem = s.mem)

/-- 10_state.md R27: a completion together with a Host write of STATUS leaves DONE, or ERROR, at 1. -/
def Obligations.CompletionWinsOverClear : Prop :=
  ∀ (s : State) (rest : List Event) (v : Word) (i : Instr), s.events = .together :: rest → s.busy = true →
    s.script[s.line]? = some (.wr 32 0x00C v) → decode s.snap.cmd = .command i →
    (Runs i s.snap s.platform → ∃ t, step s = .next t ∧ t.done = true ∧ t.busy = false) ∧
    (∀ f, check i s.snap s.platform = some f → ∃ t, step s = .next t ∧ t.error = true ∧ t.busy = false)

/-! The Host and data memory. -/

/-- 20_memory.md R78, R79, R60, 30_encoding.md R103: a Host store of 4, 2 or 1 bytes lands, touches its bytes alone, and sets the
hazard flag (log 9) exactly when a command is in flight and a byte of the store lies in its output region or in an input
region it uses (a word that is no command uses none); past the end of the space it faults (log 14). -/
def Obligations.HostStoreMarksHazard : Prop :=
  ∀ (s : State) (h : HostInstr) (n : Nat) (a : BitVec 64) (v : Nat), s.mem.wf = true → h.IsStore n a v →
    (a.toNat + n ≤ 2 ^ 64 →
      ∃ m b, hostExec h s = .next { s with mem := m, tainted := b, line := s.line + 1 } ∧
        memRead m a.toNat n = v ∧
        (∀ x, x < a.toNat ∨ a.toNat + n ≤ x → m.read x = s.mem.read x) ∧
        (b = true ↔ s.tainted = true ∨ s.busy = true ∧ ∃ x, a.toNat ≤ x ∧ x < a.toNat + n ∧
          (InRegion s.snap.slotO x ∨
            ∃ i, decode s.snap.cmd = .command i ∧ ∃ j ∈ inputSlots i, InRegion (s.snap.slot j) x))) ∧
    (2 ^ 64 < a.toNat + n → hostExec h s = .fault .hostAccessOutsideDataMemory)

/-- 20_memory.md R79: a Host load gives any value for a byte of the output region of the command in flight, and the stored byte
for every other; it changes no data byte. -/
def Obligations.HostLoadDuringCommand : Prop :=
  ∀ (s : State) (a : BitVec 64) (name : Nat), a.toNat + 4 ≤ 2 ^ 64 → rangeSensitive s.platform a.toNat 4 = false →
    ∃ t v, hostExec (.memR32 a name) s = .next t ∧ t.mem = s.mem ∧ t.binds = (name, v) :: s.binds ∧
      ∀ k, k < 4 → v.toNat / 256 ^ k % 256 =
        (if s.busy = true ∧ InRegion s.snap.slotO (a.toNat + k) then Config.freeByte s.draws (a.toNat + k)
         else s.mem.read (a.toNat + k)).toNat

/-- 30_encoding.md R103: `poll` of any register, `label:`, and `if name.FIELD = v goto label` on the value last bound to the name.
That the label's line may come before the goto (log 26), and that of several lines with the label the first is meant (log
27), is the model's choice. -/
def Obligations.ScriptControlFlow : Prop :=
  ∀ (s : State) (off : Nat) (mask v : Word) (name hi lo value l n : Nat) (w : Word) (newer older : List (Nat × Word)),
    (off < 4096 → off % 4 = 0 →
      (readReg (regAt off) s &&& mask = v → hostExec (.poll off mask v) s = .next { s with line := s.line + 1 }) ∧
      (readReg (regAt off) s &&& mask ≠ v → hostExec (.poll off mask v) s = .next s)) ∧
    hostExec (.label l) s = .next { s with line := s.line + 1 } ∧
    (s.binds = newer ++ (name, w) :: older → (∀ b ∈ newer, b.1 ≠ name) →
      (w.toNat / 2 ^ lo % 2 ^ (hi + 1 - lo) = value →
        s.script[n]? = some (.label l) → (∀ k, k < n → s.script[k]? ≠ some (.label l)) →
        hostExec (.ifGoto name hi lo value l) s = .next { s with line := n }) ∧
      (w.toNat / 2 ^ lo % 2 ^ (hi + 1 - lo) ≠ value →
        hostExec (.ifGoto name hi lo value l) s = .next { s with line := s.line + 1 }))

/-- 30_encoding.md R104, R94: `desc` programs one slot and nothing else, with the code of any of the five dtype names. -/
def Obligations.DescProgramsSlot : Prop :=
  ([none, some .f32, some .f16, some .i8, some .u8] : List (Option DType)).map codeOfName = [0x0#4, 0x1#4, 0x2#4, 0x3#4, 0x4#4] ∧
  ∀ (s : State) (j : Fin 5) (addr : BitVec 64) (dt : Option DType) (r : BitVec 2) (d0 d1 d2 : Word),
    ∃ t : Slot, hostRun (scriptDesc j addr dt r d0 d1 d2) s =
        .next { s with slots := s.slots.set j t, line := s.line + 6 } ∧
      t.addr = addr.toNat ∧ t.dtype = codeOfName dt ∧ t.rank = r ∧ t.dim0 = d0 ∧ t.dim1 = d1 ∧ t.dim2 = d2

/-- 00_scope.md R11, 20_memory.md R61: a write of n bytes is little-endian, touches its n bytes alone, and is read back. -/
def Obligations.MemoryAccessIsLittleEndian : Prop :=
  ∀ (m : Memory) (a n v : Nat), m.wf = true →
    memRead (memWrite m a n v) a n = v % 2 ^ (8 * n) ∧
    (∀ i, i < n → ((memWrite m a n v).read (a + i)).toNat = v / 2 ^ (8 * i) % 256) ∧
    (∀ b, b < a ∨ a + n ≤ b → (memWrite m a n v).read b = m.read b) ∧ (memWrite m a n v).wf = true

/-- 20_memory.md R62 to R67: the size of an element by dtype code; the elements of a slot lie in its region, share no byte, cover it without padding, and are aligned if
the base is; they stand in row-major order, so that a `[N, KB, BS]` tensor and its flattening `[N, KB*BS]` have the same
elements at the same addresses. -/
def Obligations.ElementsTileTheirRegion : Prop :=
  ∀ t : Slot,
    ((t.dtype = 1#4 → t.esize = 4) ∧ (t.dtype = 2#4 → t.esize = 2) ∧ (t.dtype = 3#4 → t.esize = 1) ∧
      (t.dtype = 4#4 → t.esize = 1)) ∧
    (∀ idx jdx : List Nat, validIdx t.dims idx = true → validIdx t.dims jdx = true →
      (t.addr ≤ t.ea idx ∧ t.ea idx + t.esize ≤ t.addr + t.bytes) ∧
      (idx ≠ jdx → t.ea idx + t.esize ≤ t.ea jdx ∨ t.ea jdx + t.esize ≤ t.ea idx) ∧
      (t.addr % t.esize = 0 → t.ea idx % t.esize = 0)) ∧
    (∀ a, InRegion t a → ∃ idx, validIdx t.dims idx = true ∧ t.ea idx ≤ a ∧ a < t.ea idx + t.esize) ∧
    (t.rank = 1#2 → t.last = t.dim0.toNat ∧ t.bytes = t.esize * t.dim0.toNat ∧ ∀ i, t.ea [i] = t.addr + t.esize * i) ∧
    (t.rank = 2#2 → t.last = t.dim1.toNat ∧ t.bytes = t.esize * (t.dim0.toNat * t.dim1.toNat) ∧
      ∀ i j, t.ea [i, j] = t.addr + t.esize * (i * t.dim1.toNat + j)) ∧
    (t.rank = 3#2 → t.last = t.dim2.toNat ∧ t.bytes = t.esize * (t.dim0.toNat * t.dim1.toNat * t.dim2.toNat) ∧
      ∀ i j k, t.ea [i, j, k] = t.addr + t.esize * ((i * t.dim1.toNat + j) * t.dim2.toNat + k)) ∧
    (∀ (lead : List Nat) (k : Nat), validIdx t.dims (lead ++ [k + 1]) = true →
      t.ea (lead ++ [k + 1]) = t.ea (lead ++ [k]) + t.esize) ∧
    ∀ u : Slot, t.rank = 3#2 → u.rank = 2#2 → u.addr = t.addr → u.dtype = t.dtype →
      u.dim1.toNat = t.dim1.toNat * t.dim2.toNat →
      ∀ n kb j, t.ea [n, kb, j] = u.ea [n, kb * t.dim2.toNat + j]

/-! Numerics. -/

/-- 40_numerics.md R114, R117: `roundMag` is the nearest magnitude of 24 significant bits, subnormals included, and of two
equally near ones the even one. -/
def Obligations.RoundingIsNearestEven : Prop := ∀ n d : Nat, IsNearestEven (roundMag n d) n d

/-- 40_numerics.md R114 to R117: the product and the sum of two finite operands, subnormal ones included, are the exact product
(m * n units of 2^-298) and the exact sum rounded to nearest even, and a rounded magnitude of 2^128 (2^128 * 2^149 units of
2^-149) or more is an infinity of the exact result's sign. -/
def Obligations.FiniteArithmeticIsRounded : Prop :=
  ∀ (a b : Bool) (m n : Nat),
    (∃ r, IsNearestEven r (m * n) 149 ∧
      (r < 2 ^ 128 * 2 ^ 149 → mul32 (.fin a m) (.fin b n) = .fin (a ^^ b) r) ∧
      (2 ^ 128 * 2 ^ 149 ≤ r → mul32 (.fin a m) (.fin b n) = .inf (a ^^ b))) ∧
    (∃ r, IsNearestEven r (m + n) 0 ∧
      (r < 2 ^ 128 * 2 ^ 149 → add32 (.fin a m) (.fin a n) = .fin a r) ∧
      (2 ^ 128 * 2 ^ 149 ≤ r → add32 (.fin a m) (.fin a n) = .inf a)) ∧
    (m < n → ∃ r, IsNearestEven r (n - m) 0 ∧
      (r < 2 ^ 128 * 2 ^ 149 → add32 (.fin a m) (.fin (!a) n) = .fin (!a) r ∧ add32 (.fin a n) (.fin (!a) m) = .fin a r) ∧
      (2 ^ 128 * 2 ^ 149 ≤ r → add32 (.fin a m) (.fin (!a) n) = .inf (!a) ∧ add32 (.fin a n) (.fin (!a) m) = .inf a)) ∧
    add32 (.fin a m) (.fin (!a) m) = .fin false 0

/-- 40_numerics.md R115, R116, R118: the special cases of `mul32` and its sign, the special cases of `add32` and the signs of its
zero sums. -/
def Obligations.SpecialValuesOfArithmetic : Prop :=
  ∀ (x : F32) (a b : Bool) (m n : Nat),
    mul32 .nan x = .nan ∧ mul32 x .nan = .nan ∧
    mul32 (.inf a) (.fin b 0) = .nan ∧ mul32 (.fin b 0) (.inf a) = .nan ∧
    (m ≠ 0 → mul32 (.inf a) (.fin b m) = .inf (a ^^ b) ∧ mul32 (.fin b m) (.inf a) = .inf (b ^^ a)) ∧
    mul32 (.inf a) (.inf b) = .inf (a ^^ b) ∧
    (mul32 (.fin a m) (.fin b n) = .inf (a ^^ b) ∨ ∃ k, mul32 (.fin a m) (.fin b n) = .fin (a ^^ b) k) ∧
    add32 .nan x = .nan ∧ add32 x .nan = .nan ∧
    add32 (.inf a) (.inf (!a)) = .nan ∧ add32 (.inf a) (.inf a) = .inf a ∧
    add32 (.inf a) (.fin b m) = .inf a ∧ add32 (.fin b m) (.inf a) = .inf a ∧
    (m ≠ 0 → add32 (.fin a m) (.fin (!a) m) = .fin false 0) ∧
    add32 (.fin false 0) (.fin true 0) = .fin false 0 ∧ add32 (.fin true 0) (.fin false 0) = .fin false 0 ∧
    add32 (.fin true 0) (.fin true 0) = .fin true 0 ∧ add32 (.fin false 0) (.fin false 0) = .fin false 0

/-- 40_numerics.md R119, R110: the value of a binary32 pattern by sign, exponent and fraction, in units of 2^-149; `canon32` of it
is the pattern, but for a NaN, which is 0x7FC00000. -/
def Obligations.CanonicalBitsRoundTrip : Prop :=
  ∀ (b : Word) (s : Bool) (e f : Nat), s = decide (2 ^ 31 ≤ b.toNat) → e = b.toNat / 2 ^ 23 % 256 → f = b.toNat % 2 ^ 23 →
    (1 ≤ e → e ≤ 254 → F32.ofBits b = .fin s ((2 ^ 23 + f) * 2 ^ (e - 1))) ∧
    (e = 0 → F32.ofBits b = .fin s f) ∧
    (e = 255 → f = 0 → F32.ofBits b = .inf s) ∧
    (e = 255 → f ≠ 0 → F32.ofBits b = .nan) ∧
    canon32 (F32.ofBits b) = if e = 255 ∧ f ≠ 0 then 0x7FC00000#32 else b

/-- 40_numerics.md R111, R112, R113: the value of each promotion, in units of 2^-149 (a binary16 value of exponent field e ≥ 1 is
(2^10 + f) * 2^(e-25), that is (2^10 + f) * 2^(e+124) units; a subnormal is f * 2^-24, that is f * 2^125 units), and each is
a binary32 value as it stands, a normal one for a binary16 subnormal. -/
def Obligations.PromotionsAreExact : Prop :=
  (∀ (h : BitVec 16) (s : Bool) (e f : Nat), s = decide (2 ^ 15 ≤ h.toNat) → e = h.toNat / 2 ^ 10 % 32 → f = h.toNat % 2 ^ 10 →
    (1 ≤ e → e ≤ 30 → f16ToF32 h = .fin s ((2 ^ 10 + f) * 2 ^ (e + 124))) ∧
    (e = 0 → f16ToF32 h = .fin s (f * 2 ^ 125)) ∧
    (e = 31 → f = 0 → f16ToF32 h = .inf s) ∧
    (e = 31 → f ≠ 0 → f16ToF32 h = .nan) ∧
    (e = 0 → f ≠ 0 → (canon32 (f16ToF32 h)).toNat / 2 ^ 23 % 256 ≠ 0) ∧
    F32.ofBits (canon32 (f16ToF32 h)) = f16ToF32 h) ∧
  (∀ v : Int, -128 ≤ v → v ≤ 255 →
    intToF32 v = .fin (decide (v < 0)) (v.natAbs * 2 ^ 149) ∧ F32.ofBits (canon32 (intToF32 v)) = intToF32 v)

/-- 40_numerics.md R124: a finite scale times a quantized value is exact, and the special cases. -/
def Obligations.ScalingIsExact : Prop :=
  ∀ (d : BitVec 16) (q : Int), q.natAbs ≤ 255 →
    (∀ a m, f16ToF32 d = .fin a m →
      mul32 (f16ToF32 d) (intToF32 q) = .fin (a ^^ decide (q < 0)) (m * q.natAbs)) ∧
    (∀ a, f16ToF32 d = .inf a →
      (q ≠ 0 → mul32 (f16ToF32 d) (intToF32 q) = .inf (a ^^ decide (q < 0))) ∧
      (q = 0 → mul32 (f16ToF32 d) (intToF32 q) = .nan)) ∧
    (f16ToF32 d = .nan → mul32 (f16ToF32 d) (intToF32 q) = .nan)

/-- 40_numerics.md R121: starting from the first product gives what starting from -0 and adding every product gives. -/
def Obligations.DotProductFromMinusZero : Prop :=
  ∀ (a w : Nat → F32) (K : Nat), 1 ≤ K →
    dot32 a w K = (List.range K).foldl (fun acc k => add32 acc (mul32 (a k) (w k))) (.fin true 0)

/-! Whole commands. -/

/-- 43_matmul.md R153: DEQUANT_Q8 into W followed by MMTFP with A and W leaves the memory that MMT_Q8 leaves, and so do DEQUANT_Q4
followed by MMTFP, and MMT_Q4. -/
def Obligations.DequantThenDenseEqualsFused : Prop :=
  ∀ (dq mm : Instr) (s1 t1 s2 s3 : State),
    (dq = .dequantQ8 ∧ mm = .mmtQ8) ∨ (dq = .dequantQ4 ∧ mm = .mmtQ4 ∧ s3.snap.slotM = s1.snap.slotM) →
    s1.mem.wf = true → s1.tainted = false → s2.tainted = false → s3.tainted = false →
    Runs dq s1.snap s1.platform → exec dq s1 = .next t1 → s2.mem = t1.mem → s3.mem = t1.mem →
    s2.snap.slotB = s1.snap.slotO → s3.snap.slotB = s1.snap.slotB → s3.snap.slotD = s1.snap.slotD →
    s3.snap.slotA = s2.snap.slotA → s3.snap.slotO = s2.snap.slotO →
    Runs .mmtfp s2.snap s2.platform → Runs mm s3.snap s3.platform →
    ∃ t2 t3, exec .mmtfp s2 = .next t2 ∧ exec mm s3 = .next t3 ∧ t2.mem = t3.mem

/-- 43_matmul.md R154: a slice of a batched matmul's output is the output of the same command on that slice of A. -/
def Obligations.BatchSlicesAreIndependentRuns : Prop :=
  ∀ (i : Instr) (s3 s2 : State) (b : Nat), IsMatmul i → s3.mem.wf = true → s2.mem = s3.mem →
    s3.tainted = false → s2.tainted = false → Runs i s3.snap s3.platform → Runs i s2.snap s2.platform →
    s3.snap.slotA.rank = 3#2 → s2.snap.slotA.rank = 2#2 → b < s3.snap.slotA.dim0.toNat →
    s2.snap.slotA.addr =
      s3.snap.slotA.addr + 4 * b * s3.snap.slotA.dim1.toNat * s3.snap.slotA.dim2.toNat →
    s2.snap.slotA.dim0 = s3.snap.slotA.dim1 → s2.snap.slotA.dim1 = s3.snap.slotA.dim2 →
    s2.snap.slotB = s3.snap.slotB → s2.snap.slotD = s3.snap.slotD → s2.snap.slotM = s3.snap.slotM →
    s2.snap.block = s3.snap.block →
    ∃ t3 t2, exec i s3 = .next t3 ∧ exec i s2 = .next t2 ∧
      ∀ r j, r < s3.snap.slotA.dim1.toNat → j < s3.snap.slotB.dim0.toNat →
        elem t3.mem s3.snap.slotO [b, r, j] = elem t2.mem s2.snap.slotO [r, j]

/-- 43_matmul.md R155: an output element of a matmul depends only on its row of A and its weight row with scales and
offsets. -/
def Obligations.OutputDependsOnItsRowsOnly : Prop :=
  ∀ (i : Instr) (s u : State) (lead : List Nat) (j : Nat), IsMatmul i → s.mem.wf = true → u.mem.wf = true →
    s.tainted = false → u.tainted = false → u.snap = s.snap → Runs i s.snap s.platform → Runs i u.snap u.platform →
    validIdx s.snap.slotO.dims (lead ++ [j]) = true →
    (∀ k, k < s.snap.slotA.last → elem u.mem s.snap.slotA (lead ++ [k]) = elem s.mem s.snap.slotA (lead ++ [k])) →
    WeightRowsAgree i s.snap u.mem s.mem j →
    ∃ t v, exec i s = .next t ∧ exec i u = .next v ∧
      elem v.mem s.snap.slotO (lead ++ [j]) = elem t.mem s.snap.slotO (lead ++ [j])

/-- 20_memory.md R76: whatever the order of the element stores, and though each value is read from the memory as it then stands,
the memory a command leaves is the same. -/
def Obligations.ExecutionOrderIsUnobservable : Prop :=
  ∀ (i : Instr) (s : State) (order : List (List Nat)), s.mem.wf = true → s.tainted = false →
    Runs i s.snap s.platform → order.Perm (indices s.snap.slotO.dims) →
    ∃ t, exec i s = .next t ∧ t.mem = executeInOrder i s.snap order s.mem

/-- 30_encoding.md R99: whatever stands in a slot the command does not use, it does the same. Nor does it read the DIM words of a
slot beyond its rank (10_state.md R33), nor MMTFP BLOCK (30_encoding.md R95). -/
def Obligations.UnusedOperandsHaveNoEffect : Prop :=
  ∀ (i : Instr) (s t : State) (j : Fin 5) (u : Slot) (bs : Word), exec i s = .next t →
    ((∀ r ∈ roles i, r.slot ≠ j) ∨ u.SameTensor (s.snap.slot j) →
      exec i { s with snap := { s.snap with slots := s.snap.slots.set j u } } =
        .next { t with snap := { t.snap with slots := t.snap.slots.set j u } }) ∧
    (i = .mmtfp →
      exec i { s with snap := { s.snap with block := bs } } = .next { t with snap := { t.snap with block := bs } })

/-! Invariants and whole-machine rules. -/

/-- The machine right after reset meets the invariant. -/
def Obligations.ResetMeetsInvariant : Prop := Inv State.reset

/-- Every step keeps the invariant: DONE and ERROR are never both 1 (10_state.md R27), the error registers hold nothing or a row of
the table (R28, R29), and data memory keeps its canonical form and its addresses. -/
def Obligations.StepKeepsInvariant : Prop :=
  ∀ s t : State, Inv s → step s = .next t → Inv t

/-- 20_memory.md R70, R83: a data byte that a step changes is one the Host, moving in it, stores to, or one of the output region of
the command in flight. Which agents move in a step is the model's event list (log 5). -/
def Obligations.StepChangesOnlyOutputAndHostBytes : Prop :=
  ∀ (s t : State) (a : Nat), step s = .next t → t.mem.read a ≠ s.mem.read a →
    (s.busy = true ∧ InRegion s.snap.slotO a) ∨ (HostMoves s ∧ ∃ h, s.script[s.line]? = some h ∧ h.stores a)

/-- 10_state.md R40, 20_memory.md R68: while a command stays in flight its snapshot does not change, nor does `Admit` before it
ends. -/
def Obligations.SnapshotAndAdmitFixedInFlight : Prop :=
  ∀ s t : State, s.busy = true → step s = .next t → t.platform = s.platform ∧ (t.busy = true → t.snap = s.snap)

/-- 60_exceptions.md R190, 70_reset_and_hazards.md R200, R202: a command in flight ends by a completion, by power-on reset or by a
write of CTRL.SOFT_RESET that the Host, moving in the step, makes, and by nothing else. That power-on reset of a running machine
is an event is the model's choice (log 5, 17). -/
def Obligations.CommandEndsByCompletionOrReset : Prop :=
  ∀ s t : State, s.busy = true → step s = .next t → t.busy = false →
    (t.done = true ∨ t.error = true) ∨ (∃ rest, s.events = .powerOn :: rest) ∨
      HostMoves s ∧ ∃ v, s.script[s.line]? = some (.wr 32 0x008 v) ∧ v.getLsbD 1 = true
end

