-- ==== Sys2Proof/Laws/Memory.lean ====
section
/-! SUPPORT. What reads, writes and unspecified fills of data memory do, and that each keeps the canonical form. -/

namespace Sys2Proof.Machine

/-- `wf` of a non-empty memory, as propositions. -/
theorem Memory.wf_cons {k : Nat} {v : Byte} {m : Memory} :
    Memory.wf ((k, v) :: m) = true ↔
      v ≠ Config.unlistedByte ∧ (∀ c ∈ m, k < c.1) ∧ Memory.wf m = true := by
  simp [Memory.wf, and_assoc]

/-- An address that is not listed reads as the unlisted byte. -/
theorem Memory.read_of_not_listed {m : Memory} {a : Nat} (h : ∀ c ∈ m, c.1 ≠ a) :
    m.read a = Config.unlistedByte := by
  induction m with
  | nil => rfl
  | cons c m ih =>
    have hc : c.1 ≠ a := h c (by simp)
    have := ih fun d hd => h d (by simp [hd])
    simp [Memory.read, hc, this]

/-- Below its first listed address a memory in canonical form reads as the unlisted byte. -/
theorem Memory.read_below {k : Nat} {m : Memory} {a : Nat} (h : ∀ c ∈ m, k < c.1) (ha : a ≤ k) :
    m.read a = Config.unlistedByte :=
  Memory.read_of_not_listed fun c hc => by have := h c hc; omega

/-- A write leaves every other byte alone. -/
theorem Memory.read_write_other (m : Memory) {a b : Nat} (v : Byte) (h : b ≠ a) :
    (m.write a v).read b = m.read b := by
  induction m with
  | nil =>
    unfold Memory.write
    split <;> simp [Memory.read, Ne.symm h]
  | cons c m ih =>
    obtain ⟨k, w⟩ := c
    unfold Memory.write
    split
    · split <;> simp [Memory.read, Ne.symm h]
    · split
      · next hk => subst hk; split <;> simp [Memory.read, Ne.symm h]
      · simp [Memory.read, ih]

/-- A byte read after it was written is the byte written. -/
theorem Memory.read_write_same {m : Memory} (hm : m.wf = true) (a : Nat) (v : Byte) :
    (m.write a v).read a = v := by
  induction m with
  | nil =>
    unfold Memory.write
    split <;> simp_all [Memory.read]
  | cons c m ih =>
    obtain ⟨k, w⟩ := c
    obtain ⟨hw, hk, hm⟩ := Memory.wf_cons.mp hm
    unfold Memory.write
    split
    · next hak =>
      split
      · next hv =>
        rw [hv]
        refine Memory.read_of_not_listed fun c hc => ?_
        rcases List.mem_cons.mp hc with rfl | hc
        · simp; omega
        · have := hk c hc; omega
      · simp [Memory.read]
    · split
      · next hak =>
        subst hak
        split
        · next hv => rw [hv]; exact Memory.read_below hk le_rfl
        · simp [Memory.read]
      · next hak => simp [Memory.read, Ne.symm hak, ih hm]

/-- The addresses a write lists are the written one and those listed before. -/
theorem Memory.listed_of_write {m : Memory} {a : Nat} {v : Byte} {c : Host.Cell} (h : c ∈ m.write a v) :
    c.1 = a ∨ c ∈ m := by
  induction m with
  | nil =>
    unfold Memory.write at h
    split at h <;> simp_all
  | cons d m ih =>
    obtain ⟨k, w⟩ := d
    unfold Memory.write at h
    split at h
    · split at h
      · exact .inr h
      · rcases List.mem_cons.mp h with rfl | h
        · exact .inl rfl
        · exact .inr h
    · split at h
      · split at h
        · exact .inr (by simp [h])
        · rcases List.mem_cons.mp h with rfl | h
          · exact .inl rfl
          · exact .inr (by simp [h])
      · rcases List.mem_cons.mp h with rfl | h
        · exact .inr (by simp)
        · rcases ih h with h | h
          · exact .inl h
          · exact .inr (by simp [h])

/-- A write keeps the canonical form. -/
theorem Memory.write_wf {m : Memory} (hm : m.wf = true) (a : Nat) (v : Byte) : (m.write a v).wf = true := by
  induction m with
  | nil =>
    unfold Memory.write
    split
    · rfl
    · next hv => exact Memory.wf_cons.mpr ⟨hv, by simp, rfl⟩
  | cons c m ih =>
    obtain ⟨k, w⟩ := c
    obtain ⟨hw, hk, hm'⟩ := Memory.wf_cons.mp hm
    unfold Memory.write
    split
    · next hak =>
      split
      · exact hm
      · next hv =>
        refine Memory.wf_cons.mpr ⟨hv, fun c hc => ?_, hm⟩
        rcases List.mem_cons.mp hc with rfl | hc
        · exact hak
        · exact lt_trans hak (hk c hc)
    · split
      · next hak =>
        split
        · exact hm'
        · next hv => subst hak; exact Memory.wf_cons.mpr ⟨hv, hk, hm'⟩
      · next hlt hne =>
        refine Memory.wf_cons.mpr ⟨hw, fun c hc => ?_, ih hm'⟩
        rcases Memory.listed_of_write hc with h | h
        · omega
        · exact hk c h

/-- A write at an address that exists lists no address that does not. -/
theorem Memory.write_inSpace {m : Memory} (hm : m.inSpace = true) {a : Nat} (ha : a < Config.addrSpace) (v : Byte) :
    (m.write a v).inSpace = true := by
  simp only [Memory.inSpace, List.all_eq_true, decide_eq_true_eq] at hm ⊢
  intro c hc
  rcases Memory.listed_of_write hc with h | h
  · omega
  · exact hm c h

/-- Two memories in canonical form that read alike are the same list. -/
theorem Memory.ext_of_read {m n : Memory} (hm : m.wf = true) (hn : n.wf = true) (h : ∀ a, m.read a = n.read a) : m = n := by
  induction m generalizing n with
  | nil =>
    cases n with
    | nil => rfl
    | cons d n =>
      obtain ⟨l, w⟩ := d
      have := h l
      simp [Memory.read] at this
      exact absurd this.symm (Memory.wf_cons.mp hn).1
  | cons c m ih =>
    obtain ⟨k, v⟩ := c
    obtain ⟨hv, hk, hm'⟩ := Memory.wf_cons.mp hm
    cases n with
    | nil =>
      have := h k
      simp [Memory.read] at this
      exact absurd this hv
    | cons d n =>
      obtain ⟨l, w⟩ := d
      obtain ⟨hw, hl, hn'⟩ := Memory.wf_cons.mp hn
      have hkl : k = l := by
        rcases Nat.lt_trichotomy k l with hlt | heq | hgt
        · have := h k
          rw [Memory.read, if_pos rfl, Memory.read_of_not_listed] at this
          · exact absurd this hv
          · intro c hc
            rcases List.mem_cons.mp hc with rfl | hc
            · simp; omega
            · have := hl c hc; omega
        · exact heq
        · have := h l
          rw [Memory.read_of_not_listed, Memory.read, if_pos rfl] at this
          · exact absurd this.symm hw
          · intro c hc
            rcases List.mem_cons.mp hc with rfl | hc
            · simp; omega
            · have := hk c hc; omega
      subst hkl
      have hvw : v = w := by simpa [Memory.read] using h k
      subst hvw
      congr 1
      refine ih hm' hn' fun a => ?_
      by_cases ha : k = a
      · subst ha
        rw [Memory.read_below hk le_rfl, Memory.read_below hl le_rfl]
      · simpa [Memory.read, ha] using h a

/-- A wide write leaves every byte outside its range alone. -/
theorem memWrite_read_other (m : Memory) (a n v : Nat) {b : Nat} (h : b < a ∨ a + n ≤ b) :
    (memWrite m a n v).read b = m.read b := by
  induction n generalizing m a v with
  | zero => rfl
  | succ n ih =>
    rw [memWrite, ih _ _ _ (by omega), Memory.read_write_other _ _ (by omega)]

/-- A wide write keeps the canonical form. -/
theorem memWrite_wf {m : Memory} (hm : m.wf = true) (a n v : Nat) : (memWrite m a n v).wf = true := by
  induction n generalizing m a v with
  | zero => exact hm
  | succ n ih => exact ih (Memory.write_wf hm _ _) _ _

/-- A wide write inside the address space lists no address outside it. -/
theorem memWrite_inSpace {m : Memory} (hm : m.inSpace = true) {a n : Nat} (h : a + n ≤ Config.addrSpace) (v : Nat) :
    (memWrite m a n v).inSpace = true := by
  induction n generalizing m a v with
  | zero => exact hm
  | succ n ih => exact ih (Memory.write_inSpace hm (by omega) _) (by omega) _

/-- Byte i of a wide write is byte i of the value, least significant first (20_memory.md R61). -/
theorem memWrite_read_byte {m : Memory} (hm : m.wf = true) (a n v : Nat) {i : Nat} (h : i < n) :
    (memWrite m a n v).read (a + i) = BitVec.ofNat 8 (v / 256 ^ i) := by
  induction n generalizing m a v i with
  | zero => omega
  | succ n ih =>
    rw [memWrite]
    cases i with
    | zero =>
      rw [memWrite_read_other _ _ _ _ (by omega), Nat.add_zero, Memory.read_write_same hm]
      simp
    | succ i =>
      have := ih (Memory.write_wf hm a (BitVec.ofNat 8 v)) (a + 1) (v / 256) (i := i) (by omega)
      rw [show a + (i + 1) = a + 1 + i by omega, this, Nat.div_div_eq_div_mul, Nat.pow_succ, Nat.mul_comm]

/-- A wide read depends on the bytes of its range alone. -/
theorem memRead_congr {m n : Memory} (a k : Nat) (h : ∀ b, a ≤ b → b < a + k → m.read b = n.read b) :
    memRead m a k = memRead n a k := by
  induction k generalizing a with
  | zero => rfl
  | succ k ih =>
    rw [memRead, memRead, h a le_rfl (by omega), ih (a + 1) fun b hb hb' => h b (by omega) (by omega)]

/-- A wide read is a number of its width. -/
theorem memRead_lt (m : Memory) (a k : Nat) : memRead m a k < 256 ^ k := by
  induction k generalizing a with
  | zero => simp [memRead]
  | succ k ih =>
    have h1 := (m.read a).isLt
    have h2 := ih (a + 1)
    rw [memRead, Nat.pow_succ]
    omega

/-- A wide read after a wide write of the same range gives the value's low bytes (00_scope.md R11). -/
theorem memRead_memWrite {m : Memory} (hm : m.wf = true) (a n v : Nat) : memRead (memWrite m a n v) a n = v % 256 ^ n := by
  induction n generalizing m a v with
  | zero => simp [memRead, Nat.mod_one]
  | succ n ih =>
    have hlow : (memWrite m a (n + 1) v).read a = BitVec.ofNat 8 v := by
      simpa using memWrite_read_byte hm a (n + 1) v (i := 0) (by omega)
    have hsplit : v % 256 ^ (n + 1) = v % 256 + 256 * (v / 256 % 256 ^ n) := by
      rw [Nat.pow_succ, Nat.mul_comm, Nat.mod_mul]
    rw [memRead, hlow, memWrite, ih (Memory.write_wf hm _ _), BitVec.toNat_ofNat, hsplit]

/-- An unspecified fill leaves every byte outside its range alone. -/
theorem scramble_read_other (draw : Nat) (m : Memory) (a n : Nat) {b : Nat} (h : b < a ∨ a + n ≤ b) :
    (scramble draw m a n).read b = m.read b := by
  induction n generalizing m a with
  | zero => rfl
  | succ n ih => rw [scramble, ih _ _ (by omega), Memory.read_write_other _ _ (by omega)]

/-- Each byte of an unspecified fill is the free value of its draw and address. -/
theorem scramble_read_inside (draw : Nat) {m : Memory} (hm : m.wf = true) (a n : Nat) {b : Nat} (h : a ≤ b) (h' : b < a + n) :
    (scramble draw m a n).read b = Config.freeByte draw b := by
  induction n generalizing m a with
  | zero => omega
  | succ n ih =>
    rw [scramble]
    rcases Nat.eq_or_lt_of_le h with rfl | hlt
    · rw [scramble_read_other _ _ _ _ (by omega), Memory.read_write_same hm]
    · exact ih (Memory.write_wf hm _ _) _ (by omega) (by omega)

/-- An unspecified fill keeps the canonical form. -/
theorem scramble_wf (draw : Nat) {m : Memory} (hm : m.wf = true) (a n : Nat) : (scramble draw m a n).wf = true := by
  induction n generalizing m a with
  | zero => exact hm
  | succ n ih => exact ih (Memory.write_wf hm _ _) _

/-- An unspecified fill inside the address space lists no address outside it. -/
theorem scramble_inSpace (draw : Nat) {m : Memory} (hm : m.inSpace = true) {a n : Nat} (h : a + n ≤ Config.addrSpace) :
    (scramble draw m a n).inSpace = true := by
  induction n generalizing m a with
  | zero => exact hm
  | succ n ih => exact ih (Memory.write_inSpace hm (by omega) _) (by omega)

end Sys2Proof.Machine
end

