-- ==== Sys2Proof/Laws/Operands.lean ====
section
/-! SUPPORT. Index tuples, linear indices, regions and element accesses (20_memory.md R62 to R66). -/

namespace Sys2Proof.Machine

/-- `validIdx` of a non-empty tuple. -/
theorem validIdx_cons {d i : Nat} {ds is : List Nat} :
    validIdx (d :: ds) (i :: is) = true ↔ i < d ∧ validIdx ds is = true := by simp [validIdx]

/-- The code of a dtype name names that dtype, and NONE's names none (30_encoding.md R94). -/
@[simp] theorem dtypeOfCode_codeOfName (d : Option DType) : dtypeOfCode (codeOfName d) = d := by
  rcases d with _ | d
  · rfl
  · cases d <;> rfl

/-- The output loop runs over exactly the index tuples of the dimensions. -/
theorem mem_indices {ds is : List Nat} : is ∈ indices ds ↔ validIdx ds is = true := by
  induction ds generalizing is with
  | nil => cases is <;> simp [indices, validIdx]
  | cons d ds ih =>
    cases is with
    | nil => simp [indices, validIdx]
    | cons i is => simp [indices, validIdx, ih]

/-- The output loop visits no index tuple twice. -/
theorem indices_nodup (ds : List Nat) : (indices ds).Nodup := by
  induction ds with
  | nil => simp [indices]
  | cons d ds ih =>
    rw [indices, List.nodup_flatMap]
    refine ⟨fun i _ => ih.map fun a b h => (List.cons.inj h).2, ?_⟩
    refine List.nodup_range.imp fun {a b} hab => ?_
    refine List.disjoint_left.mpr ?_
    intro x hx hy
    simp only [List.mem_map] at hx hy
    obtain ⟨u, -, rfl⟩ := hx
    obtain ⟨w, -, hw⟩ := hy
    exact hab (List.cons.inj hw).1.symm

/-- The linear index of an index tuple is below the element count (20_memory.md R64). -/
theorem lin_lt_prod {ds is : List Nat} (h : validIdx ds is = true) : lin ds is < prod ds := by
  induction ds generalizing is with
  | nil => cases is <;> simp_all [validIdx, lin, prod]
  | cons d ds ih =>
    cases is with
    | nil => simp [validIdx] at h
    | cons i is =>
      obtain ⟨hi, his⟩ := validIdx_cons.mp h
      have := ih his
      calc lin (d :: ds) (i :: is) = i * prod ds + lin ds is := rfl
        _ < i * prod ds + prod ds := by omega
        _ = (i + 1) * prod ds := by ring
        _ ≤ d * prod ds := Nat.mul_le_mul_right _ hi

/-- Two index tuples with the same linear index are the same (20_memory.md R64). -/
theorem lin_injective {ds is js : List Nat} (hi : validIdx ds is = true) (hj : validIdx ds js = true)
    (h : lin ds is = lin ds js) : is = js := by
  induction ds generalizing is js with
  | nil => cases is <;> cases js <;> simp_all [validIdx]
  | cons d ds ih =>
    cases is with
    | nil => simp [validIdx] at hi
    | cons i is =>
      cases js with
      | nil => simp [validIdx] at hj
      | cons j js =>
        obtain ⟨-, hi'⟩ := validIdx_cons.mp hi
        obtain ⟨-, hj'⟩ := validIdx_cons.mp hj
        have li := lin_lt_prod hi'
        have lj := lin_lt_prod hj'
        have hp : 0 < prod ds := by omega
        simp only [lin] at h
        have e1 : (i * prod ds + lin ds is) / prod ds = i := by
          rw [Nat.add_comm, Nat.add_mul_div_right _ _ hp, Nat.div_eq_of_lt li, Nat.zero_add]
        have e2 : (j * prod ds + lin ds js) / prod ds = j := by
          rw [Nat.add_comm, Nat.add_mul_div_right _ _ hp, Nat.div_eq_of_lt lj, Nat.zero_add]
        have hij : i = j := by rw [← e1, h, e2]
        subst hij
        rw [ih hi' hj' (by omega)]

/-- Each element of a slot lies inside its region (20_memory.md R65, R66). -/
theorem Slot.ea_in_region (t : Slot) {idx : List Nat} (h : validIdx t.dims idx = true) :
    t.addr ≤ t.ea idx ∧ t.ea idx + t.esize ≤ t.addr + t.bytes := by
  have hl := lin_lt_prod h
  have : t.esize * (lin t.dims idx + 1) ≤ t.esize * prod t.dims := Nat.mul_le_mul_left _ hl
  rw [Nat.mul_add, Nat.mul_one] at this
  unfold Slot.ea Slot.bytes Slot.count
  omega

/-- The elements of a slot share no byte (20_memory.md R63, R64). -/
theorem Slot.ea_disjoint (t : Slot) {i j : List Nat} (hi : validIdx t.dims i = true) (hj : validIdx t.dims j = true)
    (hne : i ≠ j) : t.ea i + t.esize ≤ t.ea j ∨ t.ea j + t.esize ≤ t.ea i := by
  have hl : lin t.dims i ≠ lin t.dims j := fun h => hne (lin_injective hi hj h)
  unfold Slot.ea
  rcases Nat.lt_or_gt_of_ne hl with h | h
  · left
    have := Nat.mul_le_mul_left t.esize h
    rw [Nat.mul_succ] at this
    omega
  · right
    have := Nat.mul_le_mul_left t.esize h
    rw [Nat.mul_succ] at this
    omega

/-- Two byte ranges meet exactly when some byte is in both (20_memory.md R66). -/
theorem rangesMeet_iff {a n b k : Nat} :
    rangesMeet a n b k = true ↔ ∃ x, (a ≤ x ∧ x < a + n) ∧ b ≤ x ∧ x < b + k := by
  simp only [rangesMeet, decide_eq_true_eq]
  constructor
  · intro h
    exact ⟨max a b, by omega, by omega⟩
  · rintro ⟨x, h1, h2⟩
    omega

/-- An element read depends on the bytes of the slot's region alone (20_memory.md R69). -/
theorem elem_congr {m n : Memory} (t : Slot) {idx : List Nat} (hv : validIdx t.dims idx = true)
    (h : ∀ a, t.addr ≤ a → a < t.addr + t.bytes → m.read a = n.read a) : elem m t idx = elem n t idx := by
  obtain ⟨h1, h2⟩ := t.ea_in_region hv
  exact memRead_congr _ _ fun b hb hb' => h b (by omega) (by omega)

/-- A store leaves every byte outside its element alone. -/
theorem store_read_other (m : Memory) (t : Slot) (idx : List Nat) (v : Nat) {b : Nat}
    (h : b < t.ea idx ∨ t.ea idx + t.esize ≤ b) : (store m t idx v).read b = m.read b :=
  memWrite_read_other _ _ _ _ h

/-- A store keeps the canonical form. -/
theorem store_wf {m : Memory} (hm : m.wf = true) (t : Slot) (idx : List Nat) (v : Nat) : (store m t idx v).wf = true :=
  memWrite_wf hm _ _ _

/-- An element read after it was stored is the value stored (20_memory.md R65). -/
theorem elem_store_same {m : Memory} (hm : m.wf = true) (t : Slot) (idx : List Nat) (v : Nat) :
    elem (store m t idx v) t idx = v % 256 ^ t.esize := memRead_memWrite hm _ _ _

/-- A store leaves the slot's other elements alone. -/
theorem elem_store_other (m : Memory) (t : Slot) {i j : List Nat} (hi : validIdx t.dims i = true)
    (hj : validIdx t.dims j = true) (hne : i ≠ j) (v : Nat) : elem (store m t i v) t j = elem m t j := by
  refine memRead_congr _ _ fun b hb hb' => ?_
  rcases t.ea_disjoint hi hj hne with h | h
  · exact store_read_other _ _ _ _ (by omega)
  · exact store_read_other _ _ _ _ (by omega)

/-- Stores to some elements of a slot, in any order, leave every byte outside its region alone. -/
theorem foldl_store_read_outside (t : Slot) (value : List Nat → Nat) {l : List (List Nat)}
    (hl : ∀ idx ∈ l, validIdx t.dims idx = true) (m : Memory) {a : Nat} (ha : a < t.addr ∨ t.addr + t.bytes ≤ a) :
    (l.foldl (fun m' idx => store m' t idx (value idx)) m).read a = m.read a := by
  induction l generalizing m with
  | nil => rfl
  | cons idx l ih =>
    obtain ⟨h1, h2⟩ := t.ea_in_region (hl idx (by simp))
    rw [List.foldl_cons, ih (fun i hi => hl i (by simp [hi])), store_read_other _ _ _ _ (by omega)]

/-- Stores keep the canonical form. -/
theorem foldl_store_wf (t : Slot) (value : List Nat → Nat) (l : List (List Nat)) {m : Memory} (hm : m.wf = true) :
    (l.foldl (fun m' idx => store m' t idx (value idx)) m).wf = true := by
  induction l generalizing m with
  | nil => exact hm
  | cons idx l ih => exact ih (store_wf hm _ _ _)

/-- Stores to a slot inside the address space list no address outside it. -/
theorem foldl_store_inSpace (t : Slot) (value : List Nat → Nat) {l : List (List Nat)}
    (hl : ∀ idx ∈ l, validIdx t.dims idx = true) (ht : t.addr + t.bytes ≤ Config.addrSpace) {m : Memory}
    (hm : m.inSpace = true) : (l.foldl (fun m' idx => store m' t idx (value idx)) m).inSpace = true := by
  induction l generalizing m with
  | nil => exact hm
  | cons idx l ih =>
    obtain ⟨h1, h2⟩ := t.ea_in_region (hl idx (by simp))
    exact ih (fun i hi => hl i (by simp [hi])) (memWrite_inSpace hm (by omega) _)

/-- Stores to other elements of a slot leave an element alone. -/
theorem foldl_store_elem_other (t : Slot) (value : List Nat → Nat) {l : List (List Nat)}
    (hl : ∀ idx ∈ l, validIdx t.dims idx = true) (m : Memory) {j : List Nat} (hj : validIdx t.dims j = true) (hne : j ∉ l) :
    elem (l.foldl (fun m' idx => store m' t idx (value idx)) m) t j = elem m t j := by
  induction l generalizing m with
  | nil => rfl
  | cons idx l ih =>
    have h1 : idx ≠ j := fun h => hne (by simp [h])
    have h2 : j ∉ l := fun h => hne (by simp [h])
    rw [List.foldl_cons, ih (fun i hi => hl i (by simp [hi])) _ h2, elem_store_other _ _ (hl idx (by simp)) hj h1]

/-- After stores to distinct elements of a slot, in any order, each holds its value. -/
theorem foldl_store_elem (t : Slot) (value : List Nat → Nat) {l : List (List Nat)}
    (hl : ∀ idx ∈ l, validIdx t.dims idx = true) (hd : l.Nodup) {m : Memory} (hm : m.wf = true) {j : List Nat} (hj : j ∈ l) :
    elem (l.foldl (fun m' idx => store m' t idx (value idx)) m) t j = value j % 256 ^ t.esize := by
  induction l generalizing m with
  | nil => simp at hj
  | cons idx l ih =>
    obtain ⟨hn, hd⟩ := List.nodup_cons.mp hd
    have hl' : ∀ i ∈ l, validIdx t.dims i = true := fun i hi => hl i (by simp [hi])
    rw [List.foldl_cons]
    rcases List.mem_cons.mp hj with rfl | hj'
    · rw [foldl_store_elem_other t value hl' _ (hl j (by simp)) hn, elem_store_same hm]
    · exact ih hl' hd (store_wf hm _ _ _) hj'

/-- The output loop writes no byte outside the slot's region (20_memory.md R70). -/
theorem storeAll_read_outside (t : Slot) (value : List Nat → Nat) (m : Memory) {a : Nat}
    (ha : a < t.addr ∨ t.addr + t.bytes ≤ a) : (storeAll t value m).read a = m.read a :=
  foldl_store_read_outside t value (fun _ h => mem_indices.mp h) m ha

/-- After the output loop each element of the slot holds its value (20_memory.md R70). -/
theorem storeAll_elem (t : Slot) (value : List Nat → Nat) {m : Memory} (hm : m.wf = true) {idx : List Nat}
    (h : validIdx t.dims idx = true) : elem (storeAll t value m) t idx = value idx % 256 ^ t.esize :=
  foldl_store_elem t value (fun _ h => mem_indices.mp h) (indices_nodup _) hm (mem_indices.mpr h)

/-- The output loop keeps the canonical form. -/
theorem storeAll_wf (t : Slot) (value : List Nat → Nat) {m : Memory} (hm : m.wf = true) : (storeAll t value m).wf = true :=
  foldl_store_wf t value _ hm

/-- The output loop of a slot inside the address space lists no address outside it. -/
theorem storeAll_inSpace (t : Slot) (value : List Nat → Nat) (ht : t.addr + t.bytes ≤ Config.addrSpace) {m : Memory}
    (hm : m.inSpace = true) : (storeAll t value m).inSpace = true :=
  foldl_store_inSpace t value (fun _ h => mem_indices.mp h) ht hm

/-- The output loop depends on the values at index tuples of the slot alone. -/
theorem storeAll_congr (t : Slot) {v w : List Nat → Nat} (h : ∀ idx, validIdx t.dims idx = true → v idx = w idx) (m : Memory) :
    storeAll t v m = storeAll t w m := by
  have hl : ∀ l : List (List Nat), (∀ idx ∈ l, validIdx t.dims idx = true) → ∀ m,
      l.foldl (fun m' idx => store m' t idx (v idx)) m = l.foldl (fun m' idx => store m' t idx (w idx)) m := by
    intro l
    induction l with
    | nil => intros; rfl
    | cons x l ih =>
      intro hx m
      simp only [List.foldl_cons, h x (hx x (by simp))]
      exact ih (fun i hi => hx i (by simp [hi])) _
  exact hl _ (fun _ hx => mem_indices.mp hx) m

end Sys2Proof.Machine
end

