-- ==== Sys2Proof/Laws/Checks.lean ====
section
/-! SUPPORT. What the start checks say (60_exceptions.md R174 to R176). -/

namespace Sys2Proof.Machine

/-- `Admit` of a byte, as a statement about the platform's ranges (20_memory.md R68). -/
theorem admits_iff {p : Platform} {a : Nat} {kind : AccessKind} :
    admits p a kind = true ↔ ∀ r ∈ p, r.restriction.forbids kind = true → ¬ (r.base ≤ a ∧ a < r.base + r.size) := by
  simp only [admits, List.all_eq_true, PlatformRange.holds]
  refine forall₂_congr fun r _ => ?_
  cases r.restriction.forbids kind
  · simp
  · simp
    omega

/-- The range check says that every byte of the range is admitted (60_exceptions.md R176 step 14). -/
theorem rangeAdmitted_iff {p : Platform} {a n : Nat} {kind : AccessKind} :
    rangeAdmitted p a n kind = true ↔ ∀ x, a ≤ x → x < a + n → admits p x kind = true := by
  simp only [rangeAdmitted, List.all_eq_true, admits_iff]
  constructor
  · intro h x h1 h2 r hr hf hb
    have := h r hr
    rw [hf, rangesMeet_iff.mpr ⟨x, ⟨h1, h2⟩, hb⟩] at this
    simp at this
  · intro h r hr
    by_cases hf : r.restriction.forbids kind = true
    · by_cases hm : rangesMeet a n r.base r.size = true
      · obtain ⟨x, ⟨h1, h2⟩, hb⟩ := rangesMeet_iff.mp hm
        exact absurd hb (h x h1 h2 r hr hf)
      · simp [hm]
    · simp [hf]

/-- No used slot is reported exactly when none is rejected. -/
theorem firstSlot_eq_none {i : Instr} {id : CheckId} {bad : SlotRole → Bool} :
    firstSlot i id bad = none ↔ ∀ r ∈ roles i, bad r = false := by
  simp [firstSlot]

/-- All thirteen checks of a command pass exactly when `check` reports nothing (60_exceptions.md R175). -/
theorem check_eq_none_iff {i : Instr} {c : Snapshot} {p : Platform} :
    check i c p = none ↔
      (∀ r ∈ roles i, dtypeAllowed c r = true) ∧ (∀ r ∈ roles i, rankAllowed c r = true) ∧
      (∀ r ∈ roles i, (c.slot r.slot).dims.contains 0 = false) ∧ blockLegal i c = true ∧
      packedDimAgrees i c = true ∧ (∀ s ∈ scaleSlots i, (c.slot s).dims = scaleShape c) ∧
      blockDividesK i c = true ∧ innerDimsAgree i c = true ∧ c.slotO.dims = outputShape i c ∧
      (∀ r ∈ roles i, (c.slot r.slot).addr % (c.slot r.slot).esize = 0) ∧
      (∀ r ∈ roles i, (c.slot r.slot).addr + (c.slot r.slot).bytes ≤ Config.addrSpace) ∧
      (∀ r ∈ roles i, rangeAdmitted p (c.slot r.slot).addr (c.slot r.slot).bytes (slotAccess r.slot) = true) ∧
      (∀ s ∈ inputSlots i, regionsMeet c.slotO (c.slot s) = false) := by
  simp [check, checkDtype, checkRank, checkDims, checkScales, checkAlign, checkRange, checkAdmit, checkOverlap,
    firstSlot, failUnless]

/-- A used slot's DTYPE is allowed exactly when it is the code of a dtype of its role (30_encoding.md R94, R95). -/
theorem dtypeAllowed_iff {c : Snapshot} {r : SlotRole} :
    dtypeAllowed c r = true ↔ ∃ d ∈ r.dtypes, (c.slot r.slot).dtype = d.code := by
  unfold dtypeAllowed
  generalize (c.slot r.slot).dtype = x
  constructor
  · intro h
    cases hd : dtypeOfCode x with
    | none => simp [hd] at h
    | some d =>
      rw [hd] at h
      refine ⟨d, by simpa using h, ?_⟩
      revert hd
      revert x
      cases d <;> decide
  · rintro ⟨d, hd, rfl⟩
    cases d <;> simpa [dtypeOfCode, DType.code] using hd

/-- S4 is a used slot of every command (30_encoding.md R95). -/
theorem slotO_used (i : Instr) : ∃ r ∈ roles i, r.slot = 4 := by cases i <;> simp [roles]

/-- The output region of a command that passes its checks lies inside the address space (60_exceptions.md R176 step 13). -/
theorem output_in_space {i : Instr} {c : Snapshot} {p : Platform} (h : check i c p = none) :
    c.slotO.addr + c.slotO.bytes ≤ Config.addrSpace := by
  obtain ⟨r, hr, hs⟩ := slotO_used i
  have := (check_eq_none_iff.mp h).2.2.2.2.2.2.2.2.2.2.1 r hr
  rw [hs] at this
  exact this

/-- The output region of a command that passes its checks shares no byte with an input region (60_exceptions.md R176
step 15). -/
theorem output_apart {i : Instr} {c : Snapshot} {p : Platform} (h : check i c p = none) {s : Fin 5} (hs : s ∈ inputSlots i)
    {a : Nat} (ha : InRegion (c.slot s) a) : a < c.slotO.addr ∨ c.slotO.addr + c.slotO.bytes ≤ a := by
  have hm := (check_eq_none_iff.mp h).2.2.2.2.2.2.2.2.2.2.2.2 s hs
  by_contra hc
  have : regionsMeet c.slotO (c.slot s) = true := rangesMeet_iff.mpr ⟨a, by omega, ha⟩
  rw [this] at hm
  exact absurd hm (by simp)

end Sys2Proof.Machine
end

