-- ==== Sys2Proof/Laws/Decode.lean ====
section
/-! SUPPORT. What the decoder and the encoder say field by field (30_encoding.md R91, R93, R101, R102). -/

namespace Sys2Proof

/-- OP is the word's low hex digit (30_encoding.md R91). -/
theorem fieldOp_toNat (w : Word) : (fieldOp w).toNat = w.toNat % 16 := by
  simp [fieldOp, BitVec.extractLsb'_toNat]

/-- RSVD is the rest of the word (30_encoding.md R91). -/
theorem fieldRsvd_toNat (w : Word) : (fieldRsvd w).toNat = w.toNat / 16 := by
  have := w.isLt
  rw [fieldRsvd, BitVec.extractLsb'_toNat, Nat.shiftRight_eq_div_pow]
  omega

/-- RSVD is 0 exactly when the word is its OP (30_encoding.md R97). -/
theorem fieldRsvd_eq_zero {w : Word} : fieldRsvd w = 0#28 ↔ w.toNat / 16 = 0 := by
  rw [← fieldRsvd_toNat, ← BitVec.toNat_inj]
  rfl

/-- The reserved values of OP (30_encoding.md R96). -/
theorem instrOfOp_eq_none : ∀ {op : BitVec 4}, instrOfOp op = none ↔ ¬ (1 ≤ op.toNat ∧ op.toNat ≤ 6) := by decide

/-- The opcode map and its inverse (30_encoding.md R93). -/
theorem instrOfOp_eq_some {op : BitVec 4} {i : Instr} : instrOfOp op = some i ↔ op = opcode i := by
  revert op
  cases i <;> decide

/-- A command word is the number of its command (30_encoding.md R102). -/
theorem encode_toNat (i : Instr) : (encode i).toNat = (opcode i).toNat := by cases i <;> rfl

/-- The decoder's three answers, by the fields of the word (30_encoding.md R101). -/
theorem decode_cases (w : Word) :
    (decode w = .illegal .opReserved ∧ instrOfOp (fieldOp w) = none) ∨
      (decode w = .illegal .rsvdBits ∧ (∃ i, instrOfOp (fieldOp w) = some i) ∧ fieldRsvd w ≠ 0#28) ∨
      ∃ i, decode w = .command i ∧ instrOfOp (fieldOp w) = some i ∧ fieldRsvd w = 0#28 := by
  unfold decode
  cases h : instrOfOp (fieldOp w) with
  | none => exact .inl ⟨rfl, rfl⟩
  | some i =>
    by_cases hz : fieldRsvd w = 0#28
    · exact .inr (.inr ⟨i, by simp [hz], rfl, hz⟩)
    · exact .inr (.inl ⟨by simp [hz], ⟨i, rfl⟩, hz⟩)

end Sys2Proof
end

