-- ==== Sys2Proof/Laws/Numerics.lean ====
section
/-! SUPPORT. What rounding, packing and reading of binary32 values do (40_numerics.md R110 to R124). -/

namespace Sys2Proof.Machine

/-- Rounding, with its two parts named: the kept significand, rounded, times the unit of the last kept bit. -/
theorem roundMag_eq (n d : Nat) :
    ∃ k : Nat, roundMag n d = k * 2 ^ (max (n.log2 - 23) d - d) ∧
      (k = n / 2 ^ max (n.log2 - 23) d ∨ k = n / 2 ^ max (n.log2 - 23) d + 1) := by
  unfold roundMag
  simp only
  split
  · exact ⟨_, rfl, .inr rfl⟩
  · exact ⟨_, rfl, .inl rfl⟩

/-- The significand that rounding keeps has at most 24 bits. -/
theorem kept_lt (n d : Nat) : n / 2 ^ max (n.log2 - 23) d < 2 ^ 24 := by
  rcases Nat.eq_zero_or_pos n with rfl | hn
  · simp
  · have h1 : n < 2 ^ (n.log2 + 1) := Nat.lt_log2_self
    have h2 : 2 ^ (n.log2 + 1) ≤ 2 ^ (max (n.log2 - 23) d + 24) := Nat.pow_le_pow_right (by omega) (by omega)
    rw [Nat.div_lt_iff_lt_mul (by positivity), ← Nat.pow_add, Nat.add_comm 24]
    omega

/-- A rounded magnitude has at most 24 significant bits. -/
theorem roundMag_representable (n d : Nat) : Representable (roundMag n d) := by
  obtain ⟨k, hk, hk'⟩ := roundMag_eq n d
  have hlt := kept_lt n d
  rcases Nat.lt_or_ge k (2 ^ 24) with h | h
  · exact ⟨k, _, h, hk⟩
  · have : k = 2 ^ 24 := by omega
    refine ⟨1, 24 + (max (n.log2 - 23) d - d), by norm_num, ?_⟩
    rw [hk, this, Nat.one_mul, Nat.pow_add]

/-- Dropping no more bits than a number ends in zeros is exact. -/
theorem drop_exact {k t d drop n : Nat} (hn : n = k * 2 ^ (t + d)) (h1 : drop ≤ t + d) (h2 : d ≤ drop) :
    n % 2 ^ drop = 0 ∧ n / 2 ^ drop * 2 ^ (drop - d) * 2 ^ d = n := by
  have hdvd : 2 ^ drop ∣ n := hn ▸ dvd_mul_of_dvd_right (pow_dvd_pow 2 h1) k
  exact ⟨Nat.mod_eq_zero_of_dvd hdvd, by
    rw [Nat.mul_assoc, ← Nat.pow_add, Nat.sub_add_cancel h2, Nat.div_mul_cancel hdvd]⟩

/-- The number of leading bits of a 24-bit significand in place. -/
theorem log2_lt_of_significand {k u : Nat} (hk : k < 2 ^ 24) (hpos : k ≠ 0) : (k * 2 ^ u).log2 < 24 + u := by
  have hne : k * 2 ^ u ≠ 0 := Nat.mul_ne_zero hpos (by positivity)
  rw [Nat.log2_lt hne, Nat.pow_add]
  exact Nat.mul_lt_mul_of_pos_right hk (by positivity)

/-- A magnitude that binary32 represents is rounded to itself. -/
theorem roundMag_exact {m : Nat} (hm : Representable m) (d : Nat) : roundMag (m * 2 ^ d) d = m := by
  obtain ⟨k, t, hk, rfl⟩ := hm
  rcases Nat.eq_zero_or_pos k with rfl | hpos
  · simp [roundMag]
  · have hlog := log2_lt_of_significand (u := t + d) hk (by omega)
    rw [Nat.mul_assoc, ← Nat.pow_add]
    generalize hn : k * 2 ^ (t + d) = n at hlog
    obtain ⟨hrest, hback⟩ := drop_exact (drop := max (n.log2 - 23) d) hn.symm (by omega) (le_max_right _ _)
    have hval : roundMag n d = n / 2 ^ max (n.log2 - 23) d * 2 ^ (max (n.log2 - 23) d - d) := by
      have hp : 2 ^ max (n.log2 - 23) d ≠ 0 := by positivity
      unfold roundMag
      simp [hrest, hp.symm]
    rw [hval]
    have hp : 0 < 2 ^ d := by positivity
    refine Nat.eq_of_mul_eq_mul_right hp ?_
    rw [hback, ← hn, Nat.pow_add, Nat.mul_assoc]

/-- A finite value that binary32 represents (40_numerics.md R110). -/
def F32.Valid : F32 → Prop
  | .nan => True
  | .inf _ => True
  | .fin _ mag => Representable mag ∧ mag < f32Limit

/-- Every rounding gives a binary32 value. -/
theorem roundF32_valid (neg : Bool) (n d : Nat) : (roundF32 neg n d).Valid := by
  have hr := roundMag_representable n d
  unfold roundF32
  generalize roundMag n d = r at *
  by_cases h : r < f32Limit
  · rw [if_pos h]
    exact ⟨hr, h⟩
  · rw [if_neg h]
    trivial

/-- A value that binary32 represents is rounded to itself. -/
theorem roundF32_exact (neg : Bool) {m : Nat} (hm : Representable m) (hlt : m < f32Limit) (d : Nat) :
    roundF32 neg (m * 2 ^ d) d = .fin neg m := by
  unfold roundF32
  rw [roundMag_exact hm, if_pos hlt]

/-- Every product is a binary32 value. -/
theorem mul32_valid (x y : F32) : (mul32 x y).Valid := by
  cases x with
  | nan => trivial
  | inf a =>
    cases y with
    | nan => trivial
    | inf b => trivial
    | fin b n => by_cases h : n = 0 <;> simp [mul32, h, F32.Valid]
  | fin a m =>
    cases y with
    | nan => trivial
    | inf b => by_cases h : m = 0 <;> simp [mul32, h, F32.Valid]
    | fin b n =>
      rw [mul32]
      exact roundF32_valid _ _ _

/-- Zero is a binary32 value. -/
theorem zero_valid (neg : Bool) : (F32.fin neg 0).Valid := ⟨⟨0, 0, by omega, rfl⟩, by decide⟩

/-- Every sum is a binary32 value. -/
theorem add32_valid (x y : F32) : (add32 x y).Valid := by
  cases x with
  | nan => trivial
  | inf a =>
    cases y with
    | nan => trivial
    | inf b => by_cases h : a = b <;> simp [add32, h, F32.Valid]
    | fin b n => trivial
  | fin a m =>
    cases y with
    | nan => trivial
    | inf b => trivial
    | fin b n =>
      by_cases h : signedMag a m + signedMag b n = 0
      · rw [add32, if_pos h]
        exact zero_valid _
      · rw [add32, if_neg h]
        exact roundF32_valid _ _ _

/-- The bit fields of a sign, an exponent and a fraction put together (40_numerics.md R110). -/
theorem ofBits_fields (neg : Bool) {e f : Nat} (he : e < 256) (hf : f < 2 ^ 23) :
    (BitVec.ofNat 32 (signBit neg + (e * 2 ^ 23 + f))).getLsbD 31 = neg ∧
      ((BitVec.ofNat 32 (signBit neg + (e * 2 ^ 23 + f))).extractLsb' 23 8).toNat = e ∧
      ((BitVec.ofNat 32 (signBit neg + (e * 2 ^ 23 + f))).extractLsb' 0 23).toNat = f := by
  have hb : signBit neg + (e * 2 ^ 23 + f) < 2 ^ 32 := by
    cases neg <;> simp [signBit] <;> omega
  refine ⟨?_, ?_, ?_⟩
  · rw [BitVec.getLsbD, BitVec.toNat_ofNat, Nat.mod_eq_of_lt hb, Nat.testBit_eq_decide_div_mod_eq]
    cases neg <;> simp [signBit] <;> omega
  · rw [BitVec.extractLsb'_toNat, BitVec.toNat_ofNat, Nat.mod_eq_of_lt hb, Nat.shiftRight_eq_div_pow]
    cases neg <;> simp [signBit] <;> omega
  · rw [BitVec.extractLsb'_toNat, BitVec.toNat_ofNat, Nat.mod_eq_of_lt hb, Nat.shiftRight_eq_div_pow]
    cases neg <;> simp [signBit] <;> omega

/-- The fields `packMag` makes of a magnitude that binary32 represents. -/
theorem packMag_fields {mag : Nat} (hm : Representable mag) (hlt : mag < f32Limit) :
    ∃ e f, e < 255 ∧ f < 2 ^ 23 ∧ packMag mag = e * 2 ^ 23 + f ∧
      (e = 0 ∧ mag = f ∨ e ≠ 0 ∧ mag = (2 ^ 23 + f) * 2 ^ (e - 1)) := by
  rcases Nat.lt_or_ge mag (2 ^ 23) with hs | hs
  · refine ⟨0, mag, by norm_num, hs, ?_, .inl ⟨rfl, rfl⟩⟩
    have : mag.log2 - 23 = 0 := by
      rcases Nat.eq_zero_or_pos mag with rfl | hpos
      · simp
      · have := (Nat.log2_lt (n := mag) (k := 23) (by omega)).mpr hs
        omega
    simp [packMag, this]
  · obtain ⟨k, t, hk, hmag⟩ := hm
    have hne : mag ≠ 0 := by omega
    have hlog : 23 ≤ mag.log2 := (Nat.le_log2 hne).mpr hs
    have hlog' : mag.log2 < 128 + 149 := (Nat.log2_lt hne).mpr (hlt.trans_eq (Nat.pow_add 2 128 149).symm)
    have hlogt : mag.log2 < 24 + t := hmag ▸ log2_lt_of_significand hk (by rintro rfl; simp at hmag; omega)
    have hup : mag < 2 ^ (mag.log2 + 1) := Nat.lt_log2_self
    have hlo : 2 ^ mag.log2 ≤ mag := Nat.log2_self_le hne
    generalize hL : mag.log2 = L at *
    obtain ⟨u, rfl⟩ := Nat.exists_eq_add_of_le hlog
    have hdvd : 2 ^ u ∣ mag := hmag ▸ dvd_mul_of_dvd_right (pow_dvd_pow 2 (by omega)) k
    obtain ⟨g, rfl⟩ := hdvd
    have hp : 0 < 2 ^ u := by positivity
    rw [Nat.pow_add, Nat.mul_comm] at hlo
    rw [show 23 + u + 1 = u + 24 by omega, Nat.pow_add] at hup
    have hg1 : 2 ^ 23 ≤ g := Nat.le_of_mul_le_mul_left hlo hp
    have hg2 : g < 2 ^ 24 := Nat.lt_of_mul_lt_mul_left hup
    refine ⟨u + 1, g - 2 ^ 23, by omega, by omega, ?_, .inr ⟨by omega, ?_⟩⟩
    · rw [packMag, hL, Nat.add_sub_cancel_left, Nat.mul_div_cancel_left _ hp]
      omega
    · rw [Nat.add_sub_cancel, show 2 ^ 23 + (g - 2 ^ 23) = g by omega, Nat.mul_comm]

/-- Reading back the canonical bits of a binary32 value gives the value (40_numerics.md R119). -/
theorem ofBits_canon32 {x : F32} (hx : x.Valid) : F32.ofBits (canon32 x) = x := by
  cases x with
  | nan => decide
  | inf neg => cases neg <;> decide
  | fin neg mag =>
    obtain ⟨hm, hlt⟩ := hx
    obtain ⟨e, f, he, hf, hpack, hval⟩ := packMag_fields hm hlt
    obtain ⟨h1, h2, h3⟩ := ofBits_fields neg (e := e) (by omega) hf
    rw [canon32, hpack]
    unfold F32.ofBits
    simp only [h1, h2, h3]
    rw [if_neg (by omega)]
    rcases hval with ⟨he0, hv⟩ | ⟨he0, hv⟩
    · rw [if_pos he0, hv]
    · rw [if_neg he0, hv]

/-- Dot products see a NaN weight as a NaN whatever its bits: reading back what DEQUANT wrote gives the weight itself
(43_matmul.md R153). -/
theorem ofBits_of_written {x : F32} (hx : x.Valid) (n : Nat) (h : n = (canon32 x).toNat) :
    F32.ofBits (BitVec.ofNat 32 n) = x := by
  rw [h, BitVec.ofNat_toNat, BitVec.setWidth_eq, ofBits_canon32 hx]

/-- `dot32` depends on its first K terms alone (40_numerics.md R121). -/
theorem dot32_congr {a b w v : Nat → F32} {K : Nat} (hK : 1 ≤ K) (ha : ∀ k, k < K → a k = b k)
    (hw : ∀ k, k < K → w k = v k) : dot32 a w K = dot32 b v K := by
  have hthrough : ∀ n, n < K → dotThrough a w n = dotThrough b v n := by
    intro n hn
    induction n with
    | zero => rw [dotThrough, dotThrough, ha 0 hn, hw 0 hn]
    | succ n ih => rw [dotThrough, dotThrough, ih (by omega), ha _ hn, hw _ hn]
  exact hthrough (K - 1) (by omega)

end Sys2Proof.Machine
end

