-- ==== Sys2Proof/Laws/Ops.lean ====
section
/-! SUPPORT. Everything the shared operations of a command's life can do (60_exceptions.md R170 to R179). -/

namespace Sys2Proof.Machine

/-- Every meaning is `runCommand` of its own output element. -/
theorem exec_eq_runCommand (i : Instr) (s : State) : exec i s = runCommand i (outputValue i) s := by cases i <;> rfl

/-- A command that fails a check completes with the error it reports (60_exceptions.md R178). -/
theorem exec_of_check_some {i : Instr} {s : State} {f : Failure} (h : check i s.snap s.platform = some f) :
    exec i s = .next (raise f s) := by
  rw [exec_eq_runCommand, runCommand, h]

/-- A command that passes its checks and reads no read-sensitive byte completes successfully (60_exceptions.md R177). -/
theorem exec_of_runs {i : Instr} {s : State} (h : Runs i s.snap s.platform) :
    exec i s = .next (finish (execute (outputValue i) s)) := by
  rw [exec_eq_runCommand, runCommand, h.1]
  simp [h.2]

/-- The three ends of a command: an error completion, a refusal for a read-sensitive byte, a successful completion. -/
theorem exec_cases (i : Instr) (s : State) :
    (∃ f, check i s.snap s.platform = some f ∧ exec i s = .next (raise f s)) ∨
      (check i s.snap s.platform = none ∧ readsSensitive i s.snap s.platform = true ∧
        exec i s = .refused .readSensitiveRegion) ∨
      (Runs i s.snap s.platform ∧ exec i s = .next (finish (execute (outputValue i) s))) := by
  cases hc : check i s.snap s.platform with
  | some f => exact .inl ⟨f, rfl, exec_of_check_some hc⟩
  | none =>
    cases hr : readsSensitive i s.snap s.platform with
    | true =>
      refine .inr (.inl ⟨rfl, rfl, ?_⟩)
      rw [exec_eq_runCommand, runCommand, hc]
      simp [hr]
    | false => exact .inr (.inr ⟨⟨hc, hr⟩, exec_of_runs ⟨hc, hr⟩⟩)

/-- Without a hazard, Execute changes data memory alone, by the output loop. -/
theorem execute_of_untainted {value : Snapshot → Memory → List Nat → Nat} {s : State} (h : s.tainted = false) :
    execute value s = { s with mem := storeAll s.snap.slotO (value s.snap s.mem) s.mem } := by
  simp [execute, h]

/-- After a hazard, Execute gives every output byte an unspecified value (20_memory.md R78, R79). -/
theorem execute_of_tainted {value : Snapshot → Memory → List Nat → Nat} {s : State} (h : s.tainted = true) :
    execute value s =
      { s with
        mem := scramble s.draws s.mem s.snap.slotO.addr s.snap.slotO.bytes
        draws := s.draws + 1 } := by
  simp [execute, h]

/-- Execute changes data memory in the output region alone (20_memory.md R70). -/
theorem execute_read_outside (value : Snapshot → Memory → List Nat → Nat) (s : State) {a : Nat}
    (ha : a < s.snap.slotO.addr ∨ s.snap.slotO.addr + s.snap.slotO.bytes ≤ a) :
    (execute value s).mem.read a = s.mem.read a := by
  cases h : s.tainted with
  | false => rw [execute_of_untainted h]; exact storeAll_read_outside _ _ _ ha
  | true => rw [execute_of_tainted h]; exact scramble_read_other _ _ _ _ ha

/-- Execute keeps the canonical form of data memory. -/
theorem execute_wf (value : Snapshot → Memory → List Nat → Nat) {s : State} (hm : s.mem.wf = true) :
    (execute value s).mem.wf = true := by
  cases h : s.tainted with
  | false => rw [execute_of_untainted h]; exact storeAll_wf _ _ hm
  | true => rw [execute_of_tainted h]; exact scramble_wf _ hm _ _

/-- Execute of a command whose output region exists lists no address that does not. -/
theorem execute_inSpace (value : Snapshot → Memory → List Nat → Nat) {s : State} (hm : s.mem.inSpace = true)
    (ht : s.snap.slotO.addr + s.snap.slotO.bytes ≤ Config.addrSpace) : (execute value s).mem.inSpace = true := by
  cases h : s.tainted with
  | false => rw [execute_of_untainted h]; exact storeAll_inSpace _ _ ht hm
  | true => rw [execute_of_tainted h]; exact scramble_inSpace _ hm ht

/-- A slot's address exists. -/
theorem Slot.addr_lt (t : Slot) : t.addr < Config.addrSpace := by
  have h1 := t.addrHi.isLt
  have h2 := t.addrLo.isLt
  unfold Slot.addr Config.addrSpace
  omega

/-- A reset changes data memory in the output region of a command it aborts alone (70_reset_and_hazards.md R202, R203). -/
theorem resetEngine_read_outside (s : State) {a : Nat}
    (ha : s.busy = false ∨ a < s.snap.slotO.addr ∨ s.snap.slotO.addr + s.snap.slotO.bytes ≤ a) :
    (resetEngine s).mem.read a = s.mem.read a := by
  cases h : s.busy with
  | false => simp [resetEngine, abortInFlight, h]
  | true =>
    simp only [resetEngine, abortInFlight, h, if_true]
    refine scramble_read_other _ _ _ _ ?_
    rcases ha with ha | ha | ha
    · simp [h] at ha
    · exact .inl ha
    · right
      unfold abortedBytes
      omega

/-- A reset keeps the canonical form of data memory. -/
theorem resetEngine_wf {s : State} (hm : s.mem.wf = true) : (resetEngine s).mem.wf = true := by
  cases h : s.busy with
  | false => simpa [resetEngine, abortInFlight, h] using hm
  | true => simpa [resetEngine, abortInFlight, h] using scramble_wf _ hm _ _

/-- A reset lists no address that does not exist. -/
theorem resetEngine_inSpace {s : State} (hm : s.mem.inSpace = true) : (resetEngine s).mem.inSpace = true := by
  cases h : s.busy with
  | false => simpa [resetEngine, abortInFlight, h] using hm
  | true =>
    have ha := s.snap.slotO.addr_lt
    have : s.snap.slotO.addr + abortedBytes s.snap ≤ Config.addrSpace := by
      unfold abortedBytes
      omega
    simpa [resetEngine, abortInFlight, h] using scramble_inSpace _ hm this

end Sys2Proof.Machine
end

