-- ==== Sys2Proof/Laws/PerInstr.lean ====
section
/-! SUPPORT. What holds of every command as syntax, command by command. -/

namespace Sys2Proof.Laws.EncodingFields

/-- The fields of the command word are the row of the opcode map (30_encoding.md R91, R93), the word passes the tests of
R96 and R97, and the table word of the row decodes to the command. -/
def Statement (i : Instr) : Prop :=
  fieldOp (encode i) = opcode i ∧ fieldRsvd (encode i) = 0#28 ∧ opAssigned (encode i) = true ∧
    rsvdClear (encode i) = true ∧ decodeTableWord 32 (encode i).toNat = some i

theorem mmtfp : Statement .mmtfp := by unfold Statement; decide
theorem mmtQ8 : Statement .mmtQ8 := by unfold Statement; decide
theorem mmtQ4 : Statement .mmtQ4 := by unfold Statement; decide
theorem unpackI4 : Statement .unpackI4 := by unfold Statement; decide
theorem dequantQ8 : Statement .dequantQ8 := by unfold Statement; decide
theorem dequantQ4 : Statement .dequantQ4 := by unfold Statement; decide

end Sys2Proof.Laws.EncodingFields
end

