-- ==== Sys2Proof/Laws/Values.lean ====
section
/-! SUPPORT. What the checks say of a command's shapes, and that an output element depends on the input regions alone
(20_memory.md R69, R76). -/

namespace Sys2Proof.Machine

/-- An index tuple of dimensions that end in `d` ends in an index below `d` (00_scope.md R12). -/
theorem validIdx_append_singleton {ds is : List Nat} {d : Nat} :
    validIdx (ds ++ [d]) is = true ↔ ∃ js j, is = js ++ [j] ∧ validIdx ds js = true ∧ j < d := by
  induction ds generalizing is with
  | nil =>
    constructor
    · intro h
      match is, h with
      | [j], h => exact ⟨[], j, rfl, rfl, by simpa [validIdx] using h⟩
      | [], h => cases h
      | _ :: _ :: _, h => simp [validIdx] at h
    · rintro ⟨js, j, rfl, h1, h2⟩
      cases js with
      | nil => simp [validIdx, h2]
      | cons _ _ => simp [validIdx] at h1
  | cons e es ih =>
    cases is with
    | nil => simp [validIdx]
    | cons k ks =>
      simp only [List.cons_append, validIdx_cons, ih]
      constructor
      · rintro ⟨hk, js, j, rfl, h1, h2⟩
        exact ⟨k :: js, j, rfl, validIdx_cons.mpr ⟨hk, h1⟩, h2⟩
      · rintro ⟨js, j, he, h1, h2⟩
        cases js with
        | nil => simp [validIdx] at h1
        | cons l ls =>
          simp only [List.cons_append, List.cons.injEq] at he
          obtain ⟨rfl, rfl⟩ := he
          exact ⟨(validIdx_cons.mp h1).1, ls, j, rfl, (validIdx_cons.mp h1).2, h2⟩

/-- Every element number below the count is the linear index of an index tuple (20_memory.md R64). -/
theorem lin_surjective {ds : List Nat} {n : Nat} (h : n < prod ds) : ∃ is, validIdx ds is = true ∧ lin ds is = n := by
  induction ds generalizing n with
  | nil => exact ⟨[], rfl, by simp only [prod] at h; simp [lin]; omega⟩
  | cons d ds ih =>
    have hp : 0 < prod ds := by
      rcases Nat.eq_zero_or_pos (prod ds) with hz | hz
      · simp [prod, hz] at h
      · exact hz
    obtain ⟨is, hv, hl⟩ := ih (Nat.mod_lt n hp)
    refine ⟨n / prod ds :: is, validIdx_cons.mpr ⟨?_, hv⟩, ?_⟩
    · exact Nat.div_lt_of_lt_mul (by rwa [prod, Nat.mul_comm] at h)
    · simp only [lin, hl]
      rw [Nat.mul_comm]
      exact Nat.div_add_mod n (prod ds)

/-- The dimensions of a slot of rank 1. -/
theorem Slot.dims_rank_one {t : Slot} (h : t.rank.toNat = 1) : t.dims = [t.dim0.toNat] := by simp [Slot.dims, h]

/-- The dimensions of a slot of rank 2. -/
theorem Slot.dims_rank_two {t : Slot} (h : t.rank.toNat = 2) : t.dims = [t.dim0.toNat, t.dim1.toNat] := by
  simp [Slot.dims, h]

/-- The dimensions of a slot of rank 3. -/
theorem Slot.dims_rank_three {t : Slot} (h : t.rank.toNat = 3) :
    t.dims = [t.dim0.toNat, t.dim1.toNat, t.dim2.toNat] := by simp [Slot.dims, h]

/-- The last dimension stands last (00_scope.md R12). -/
theorem Slot.dims_eq_append_last {t : Slot} (h : t.dims ≠ []) : t.dims = t.dims.dropLast ++ [t.last] := by
  have := List.dropLast_concat_getLast h
  rw [Slot.last, List.getLastD_eq_getLast?, List.getLast?_eq_some_getLast h]
  exact this.symm

/-- What the checks of a matmul say of A and O (60_exceptions.md R175): A has a last dimension K ≥ 1, and O's dimensions are A's
with K replaced by N. -/
theorem matmul_shape {i : Instr} {c : Snapshot} {p : Platform} (hi : IsMatmul i) (h : check i c p = none) :
    (c.slotA.rank.toNat = 2 ∨ c.slotA.rank.toNat = 3) ∧ c.slotA.dims = c.slotA.dims.dropLast ++ [c.slotA.last] ∧
      1 ≤ c.slotA.last ∧ c.slotO.dims = c.slotA.dims.dropLast ++ [c.slotB.dim0.toNat] := by
  obtain ⟨-, hrank, hdim, -, -, -, -, -, hout, -⟩ := check_eq_none_iff.mp h
  have hrole : (⟨0, [.f32], .oneOf [2, 3]⟩ : SlotRole) ∈ roles i := by
    rcases hi with rfl | rfl | rfl <;> simp [roles]
  have hr : c.slotA.rank.toNat = 2 ∨ c.slotA.rank.toNat = 3 := by
    simpa [rankAllowed, Snapshot.slot, Slots.get, Snapshot.slotA] using hrank _ hrole
  have hne : c.slotA.dims ≠ [] := by
    rcases hr with hr | hr
    · simp [Slot.dims_rank_two hr]
    · simp [Slot.dims_rank_three hr]
  have happ := Slot.dims_eq_append_last hne
  refine ⟨hr, happ, ?_, ?_⟩
  · have hz : c.slotA.dims.contains 0 = false := hdim _ hrole
    rw [happ] at hz
    simp at hz
    omega
  · rw [hout]
    rcases hi with rfl | rfl | rfl <;> rfl

/-- What the checks of MMTFP say of B: shape `[N, K]` (43_matmul.md R150). -/
theorem dense_shape {c : Snapshot} {p : Platform} (h : check .mmtfp c p = none) :
    c.slotB.dims = [c.slotB.dim0.toNat, c.slotA.last] := by
  obtain ⟨-, hrank, -, -, -, -, -, hin, -⟩ := check_eq_none_iff.mp h
  have hr : c.slotB.rank.toNat = 2 := by
    simpa [rankAllowed, Snapshot.slot, Slots.get, Snapshot.slotB] using
      hrank ⟨1, [.f32], .oneOf [2]⟩ (by simp [roles])
  have hk : c.slotA.last = c.slotB.dim1.toNat := by simpa [innerDimsAgree] using hin
  rw [Slot.dims_rank_two hr, hk]

/-- The commands that read q8 weights. -/
def ReadsQ8 (i : Instr) : Prop := i = .mmtQ8 ∨ i = .dequantQ8

/-- The commands that read q4 weights. -/
def ReadsQ4 (i : Instr) : Prop := i = .mmtQ4 ∨ i = .dequantQ4

/-- What the checks of a q8 command say of qs and d (42_dequant.md R140). -/
theorem q8_shape {i : Instr} {c : Snapshot} {p : Platform} (hi : ReadsQ8 i) (h : check i c p = none) :
    c.slotB.dims = [c.slotB.dim0.toNat, c.slotB.dim1.toNat, 32] ∧
      c.slotD.dims = [c.slotB.dim0.toNat, c.slotB.dim1.toNat, 1] ∧ c.bs = 32 := by
  obtain ⟨-, hrank, -, hbl, hpd, hsc, -⟩ := check_eq_none_iff.mp h
  have hr : c.slotB.rank.toNat = 3 := by
    have : (⟨1, [.i8, .u8], .oneOf [3]⟩ : SlotRole) ∈ roles i := by rcases hi with rfl | rfl <;> simp [roles]
    simpa [rankAllowed, Snapshot.slot, Slots.get, Snapshot.slotB] using hrank _ this
  have hb : c.bs = 32 := by rcases hi with rfl | rfl <;> simpa [blockLegal, Config.q8Block] using hbl
  have h2 : c.slotB.dim2.toNat = c.bs := by rcases hi with rfl | rfl <;> simpa [packedDimAgrees] using hpd
  refine ⟨by rw [Slot.dims_rank_three hr, h2, hb], ?_, hb⟩
  exact hsc 2 (by rcases hi with rfl | rfl <;> simp [scaleSlots])

/-- What the checks of a q4 command say of qs, d and m (42_dequant.md R141). -/
theorem q4_shape {i : Instr} {c : Snapshot} {p : Platform} (hi : ReadsQ4 i) (h : check i c p = none) :
    c.slotB.dims = [c.slotB.dim0.toNat, c.slotB.dim1.toNat, c.slotB.dim2.toNat] ∧
      c.slotD.dims = [c.slotB.dim0.toNat, c.slotB.dim1.toNat, 1] ∧
      c.slotM.dims = [c.slotB.dim0.toNat, c.slotB.dim1.toNat, 1] ∧ c.bs = 2 * c.slotB.dim2.toNat ∧ 0 < c.bs := by
  obtain ⟨-, hrank, -, hbl, hpd, hsc, -⟩ := check_eq_none_iff.mp h
  have hr : c.slotB.rank.toNat = 3 := by
    have : (⟨1, [.u8], .oneOf [3]⟩ : SlotRole) ∈ roles i := by rcases hi with rfl | rfl <;> simp [roles]
    simpa [rankAllowed, Snapshot.slot, Slots.get, Snapshot.slotB] using hrank _ this
  have h2 : 2 * c.slotB.dim2.toNat = c.bs := by rcases hi with rfl | rfl <;> simpa [packedDimAgrees] using hpd
  have hb : c.bs ≠ 0 := by
    rcases hi with rfl | rfl <;> simp only [blockLegal, Bool.and_eq_true, bne_iff_ne] at hbl <;> exact hbl.1
  refine ⟨Slot.dims_rank_three hr, ?_, ?_, h2.symm, Nat.pos_of_ne_zero hb⟩
  · exact hsc 2 (by rcases hi with rfl | rfl <;> simp [scaleSlots])
  · exact hsc 3 (by rcases hi with rfl | rfl <;> simp [scaleSlots])

/-- K of a quantized matmul is the blocks of a row times BS (42_dequant.md R144). -/
theorem blocks_cover {i : Instr} {c : Snapshot} {p : Platform} (hi : i = .mmtQ8 ∨ i = .mmtQ4) (h : check i c p = none) :
    c.slotA.last = c.slotB.dim1.toNat * c.bs := by
  obtain ⟨-, -, -, -, -, -, hdv, hin, -⟩ := check_eq_none_iff.mp h
  have h1 : c.slotA.last % c.bs = 0 := by rcases hi with rfl | rfl <;> simpa [blockDividesK] using hdv
  have h2 : c.slotA.last / c.bs = c.slotB.dim1.toNat := by rcases hi with rfl | rfl <;> simpa [innerDimsAgree] using hin
  rw [← h2, Nat.div_mul_cancel (Nat.dvd_of_mod_eq_zero h1)]

/-- What the checks of UNPACK_I4 say of qs and O (41_unpack.md R130). -/
theorem unpack_shape {c : Snapshot} {p : Platform} (h : check .unpackI4 c p = none) :
    c.slotB.dims = c.slotB.dims.dropLast ++ [c.slotB.last] ∧ c.slotO.dims = c.slotB.dims.dropLast ++ [2 * c.slotB.last] := by
  obtain ⟨-, hrank, -, -, -, -, -, -, hout, -⟩ := check_eq_none_iff.mp h
  have hr : c.slotB.rank.toNat = 1 ∨ c.slotB.rank.toNat = 2 ∨ c.slotB.rank.toNat = 3 := by
    simpa [rankAllowed, Snapshot.slot, Slots.get, Snapshot.slotB] using
      hrank ⟨1, [.u8], .oneOf [1, 2, 3]⟩ (by simp [roles])
  refine ⟨Slot.dims_eq_append_last ?_, hout⟩
  rcases hr with hr | hr | hr
  · simp [Slot.dims_rank_one hr]
  · simp [Slot.dims_rank_two hr]
  · simp [Slot.dims_rank_three hr]

/-- `dq8` depends on its element and its scale alone (42_dequant.md R140). -/
theorem dq8_congr {c : Snapshot} {m n : Memory} {r k : Nat}
    (hd : elem m c.slotD [r, k / 32, 0] = elem n c.slotD [r, k / 32, 0])
    (hq : elem m c.slotB [r, k / 32, k % 32] = elem n c.slotB [r, k / 32, k % 32]) : dq8 c m r k = dq8 c n r k := by
  simp only [dq8, readF16, Config.q8Block, hd, hq]

/-- `dq4` depends on its packed byte, its scale and its offset alone (42_dequant.md R141). -/
theorem dq4_congr {c : Snapshot} {m n : Memory} {r k : Nat}
    (hd : elem m c.slotD [r, k / c.bs, 0] = elem n c.slotD [r, k / c.bs, 0])
    (ho : elem m c.slotM [r, k / c.bs, 0] = elem n c.slotM [r, k / c.bs, 0])
    (hq : elem m c.slotB [r, k / c.bs, k % c.bs / 2] = elem n c.slotB [r, k / c.bs, k % c.bs / 2]) :
    dq4 c m r k = dq4 c n r k := by
  simp only [dq4, readF16, packedByte, List.cons_append, List.nil_append, hd, ho, hq]

/-- Two memories agree on the input regions of a command. -/
def InputsAgree (i : Instr) (c : Snapshot) (m n : Memory) : Prop :=
  ∀ s ∈ inputSlots i, ∀ a, InRegion (c.slot s) a → m.read a = n.read a

/-- Memories that agree on the input regions hold the same input elements. -/
theorem InputsAgree.elem_eq {i : Instr} {c : Snapshot} {m n : Memory} (h : InputsAgree i c m n) {s : Fin 5}
    (hs : s ∈ inputSlots i) {idx : List Nat} (hv : validIdx (c.slot s).dims idx = true) :
    elem m (c.slot s) idx = elem n (c.slot s) idx :=
  elem_congr _ hv fun a h1 h2 => h s hs a ⟨h1, h2⟩

/-- The q8 weights of a command depend on its input regions alone. -/
theorem dq8_eq_of_inputsAgree {i : Instr} {c : Snapshot} {p : Platform} {m n : Memory} (hi : ReadsQ8 i)
    (h : check i c p = none) (hmn : InputsAgree i c m n) {r k : Nat} (hr : r < c.slotB.dim0.toNat)
    (hk : k < c.slotB.dim1.toNat * 32) : dq8 c m r k = dq8 c n r k := by
  obtain ⟨hB, hD, -⟩ := q8_shape hi h
  have hb : k / 32 < c.slotB.dim1.toNat := Nat.div_lt_of_lt_mul (by omega)
  have hj : k % 32 < 32 := Nat.mod_lt _ (by omega)
  refine dq8_congr (hmn.elem_eq (s := 2) ?_ ?_) (hmn.elem_eq (s := 1) ?_ ?_)
  · rcases hi with rfl | rfl <;> decide
  · show validIdx c.slotD.dims _ = true
    rw [hD]
    simp [validIdx, hr, hb]
  · rcases hi with rfl | rfl <;> decide
  · show validIdx c.slotB.dims _ = true
    rw [hB]
    simp [validIdx, hr, hb, hj]

/-- The q4 weights of a command depend on its input regions alone. -/
theorem dq4_eq_of_inputsAgree {i : Instr} {c : Snapshot} {p : Platform} {m n : Memory} (hi : ReadsQ4 i)
    (h : check i c p = none) (hmn : InputsAgree i c m n) {r k : Nat} (hr : r < c.slotB.dim0.toNat)
    (hk : k < c.slotB.dim1.toNat * c.bs) : dq4 c m r k = dq4 c n r k := by
  obtain ⟨hB, hD, hM, h2, hpos⟩ := q4_shape hi h
  have hb : k / c.bs < c.slotB.dim1.toNat := Nat.div_lt_of_lt_mul (by rwa [Nat.mul_comm])
  have hj : k % c.bs / 2 < c.slotB.dim2.toNat := by
    have := Nat.mod_lt k hpos
    omega
  refine dq4_congr (hmn.elem_eq (s := 2) ?_ ?_) (hmn.elem_eq (s := 3) ?_ ?_) (hmn.elem_eq (s := 1) ?_ ?_)
  · rcases hi with rfl | rfl <;> decide
  · show validIdx c.slotD.dims _ = true
    rw [hD]
    simp [validIdx, hr, hb]
  · rcases hi with rfl | rfl <;> decide
  · show validIdx c.slotM.dims _ = true
    rw [hM]
    simp [validIdx, hr, hb]
  · rcases hi with rfl | rfl <;> decide
  · show validIdx c.slotB.dims _ = true
    rw [hB]
    simp [validIdx, hr, hb, hj]

/-- A matmul's output element depends on its row of A and its weights alone. -/
theorem matmulValue_congr {i : Instr} {c : Snapshot} {p : Platform} {m n : Memory}
    {weight : Snapshot → Memory → Nat → Nat → F32} (hi : IsMatmul i) (h : check i c p = none) {lead : List Nat} {j : Nat}
    (hA : ∀ k, k < c.slotA.last → elem m c.slotA (lead ++ [k]) = elem n c.slotA (lead ++ [k]))
    (hW : ∀ k, k < c.slotA.last → weight c m j k = weight c n j k) :
    matmulValue weight c m (lead ++ [j]) = matmulValue weight c n (lead ++ [j]) := by
  obtain ⟨-, -, hK, -⟩ := matmul_shape hi h
  simp only [matmulValue, List.dropLast_concat, List.getLastD_concat]
  exact congrArg (fun x => (canon32 x).toNat) (dot32_congr hK (fun k hk => by simp only [readF32, hA k hk]) hW)

/-- An output element depends on the input regions alone (20_memory.md R69). -/
theorem outputValue_congr {i : Instr} {c : Snapshot} {p : Platform} {m n : Memory} (h : check i c p = none)
    (hmn : InputsAgree i c m n) {idx : List Nat} (hv : validIdx c.slotO.dims idx = true) :
    outputValue i c m idx = outputValue i c n idx := by
  have hmat : ∀ weight, IsMatmul i →
      (∀ j, j < c.slotB.dim0.toNat → ∀ k, k < c.slotA.last → weight c m j k = weight c n j k) →
      matmulValue weight c m idx = matmulValue weight c n idx := by
    intro weight hi hW
    obtain ⟨-, hA, -, hO⟩ := matmul_shape hi h
    rw [hO, validIdx_append_singleton] at hv
    obtain ⟨lead, j, rfl, hl, hj⟩ := hv
    refine matmulValue_congr hi h (fun k hk => hmn.elem_eq (s := 0) ?_ ?_) (hW j hj)
    · rcases hi with rfl | rfl | rfl <;> decide
    · show validIdx c.slotA.dims _ = true
      rw [hA, validIdx_append_singleton]
      exact ⟨lead, k, rfl, hl, hk⟩
  have hdeq : ∀ weight w, c.slotO.dims = [c.slotB.dim0.toNat, w] →
      (∀ j, j < c.slotB.dim0.toNat → ∀ k, k < w → weight c m j k = weight c n j k) →
      dequantValue weight c m idx = dequantValue weight c n idx := by
    intro weight w hO hW
    rw [hO] at hv
    match idx, hv with
    | [j, k], hv =>
      simp only [validIdx, Bool.and_eq_true, decide_eq_true_eq] at hv
      simp only [dequantValue, List.headD_cons, List.getLastD_cons, List.getLastD_nil, hW j hv.1 k hv.2.1]
    | [], hv => cases hv
    | [_], hv => simp [validIdx] at hv
    | _ :: _ :: _ :: _, hv => simp [validIdx] at hv
  obtain ⟨-, -, -, -, -, -, -, -, hout, -⟩ := check_eq_none_iff.mp h
  cases i with
  | mmtfp =>
    refine hmat _ (.inl rfl) fun j hj k hk => ?_
    have : elem m c.slotB [j, k] = elem n c.slotB [j, k] := hmn.elem_eq (s := 1) (by decide) (by
      show validIdx c.slotB.dims _ = true
      rw [dense_shape h]
      simp [validIdx, hj, hk])
    simp only [denseWeight, readF32, this]
  | mmtQ8 =>
    refine hmat _ (.inr (.inl rfl)) fun j hj k hk => dq8_eq_of_inputsAgree (.inl rfl) h hmn hj ?_
    rwa [blocks_cover (.inl rfl) h, (q8_shape (.inl rfl) h).2.2] at hk
  | mmtQ4 =>
    refine hmat _ (.inr (.inr rfl)) fun j hj k hk => dq4_eq_of_inputsAgree (.inl rfl) h hmn hj ?_
    rwa [blocks_cover (.inr rfl) h] at hk
  | unpackI4 =>
    obtain ⟨hB, hO⟩ := unpack_shape h
    rw [hO, validIdx_append_singleton] at hv
    obtain ⟨lead, x, rfl, hl, hx⟩ := hv
    have : elem m c.slotB (lead ++ [x / 2]) = elem n c.slotB (lead ++ [x / 2]) := hmn.elem_eq (s := 1) (by decide) (by
      show validIdx c.slotB.dims _ = true
      rw [hB, validIdx_append_singleton]
      exact ⟨lead, x / 2, rfl, hl, by omega⟩)
    simp only [outputValue, unpackValue, packedByte, List.dropLast_concat, List.getLastD_concat, this]
  | dequantQ8 =>
    refine hdeq _ _ hout fun j hj k hk => dq8_eq_of_inputsAgree (.inr rfl) h hmn hj ?_
    rwa [(q8_shape (.inr rfl) h).2.2] at hk
  | dequantQ4 => exact hdeq _ _ hout fun j hj k hk => dq4_eq_of_inputsAgree (.inr rfl) h hmn hj hk

/-- A memory that differs from another in the output region alone holds the same inputs (60_exceptions.md R176, check 0x50). -/
theorem inputsAgree_of_output {i : Instr} {c : Snapshot} {p : Platform} {m n : Memory} (h : check i c p = none)
    (hmn : ∀ a, ¬ InRegion c.slotO a → m.read a = n.read a) : InputsAgree i c m n :=
  fun _ hs a ha => hmn a fun ho => by
    rcases output_apart h hs ha with h1 | h1
    · exact absurd ho.1 (by omega)
    · exact absurd ho.2 (by omega)

/-- A q8 weight is a binary32 value. -/
theorem dq8_valid (c : Snapshot) (m : Memory) (r k : Nat) : (dq8 c m r k).Valid := mul32_valid _ _

/-- A q4 weight is a binary32 value. -/
theorem dq4_valid (c : Snapshot) (m : Memory) (r k : Nat) : (dq4 c m r k).Valid := add32_valid _ _

/-- The dtype of a used slot is one its role allows (30_encoding.md R95). -/
theorem dtype_of_allowed {c : Snapshot} {r : SlotRole} (h : dtypeAllowed c r = true) :
    ∃ d ∈ r.dtypes, dtypeOfCode (c.slot r.slot).dtype = some d := by
  cases hd : dtypeOfCode (c.slot r.slot).dtype with
  | some d => exact ⟨d, by simpa [dtypeAllowed, hd] using h, rfl⟩
  | none => simp [dtypeAllowed, hd] at h

/-- The output elements of every command but UNPACK_I4 are 4 bytes long (30_encoding.md R95). -/
theorem output_esize {i : Instr} {c : Snapshot} {p : Platform} (h : check i c p = none) (hi : i ≠ .unpackI4) :
    c.slotO.esize = 4 := by
  obtain ⟨r, hr, hs, hd⟩ : ∃ r ∈ roles i, r.slot = 4 ∧ r.dtypes = [.f32] := by cases i <;> simp [roles] at hi ⊢
  obtain ⟨d, hmem, he⟩ := dtype_of_allowed ((check_eq_none_iff.mp h).1 r hr)
  obtain rfl : d = .f32 := by simpa [hd] using hmem
  rw [hs] at he
  have he' : dtypeOfCode c.slotO.dtype = some .f32 := he
  simp [Slot.esize, he', DType.esize]

/-- The output elements of UNPACK_I4 are bytes (30_encoding.md R95). -/
theorem unpack_output_esize {c : Snapshot} {p : Platform} (h : check .unpackI4 c p = none) : c.slotO.esize = 1 := by
  obtain ⟨d, hmem, he⟩ := dtype_of_allowed ((check_eq_none_iff.mp h).1 ⟨4, [.u8], .sameAs 1⟩ (by simp [roles]))
  obtain rfl : d = .u8 := by simpa using hmem
  have he' : dtypeOfCode c.slotO.dtype = some .u8 := he
  simp [Slot.esize, he', DType.esize]

end Sys2Proof.Machine
end

