-- ==== Sys2Proof/Laws/Same.lean ====
section
/-! SUPPORT. A command depends on its used slots as tensors, and on BLOCK unless it is MMTFP, and on nothing else of its snapshot
(10_state.md R33, 30_encoding.md R95, R99). -/

namespace Sys2Proof.Machine

theorem Slot.SameTensor.addr_eq {t u : Slot} (h : t.SameTensor u) : t.addr = u.addr := by
  rw [Slot.addr, Slot.addr, h.1, h.2.1]

theorem Slot.SameTensor.rank_eq {t u : Slot} (h : t.SameTensor u) : t.rank = u.rank := h.2.2.2.1

theorem Slot.SameTensor.dims_eq {t u : Slot} (h : t.SameTensor u) : t.dims = u.dims := h.2.2.2.2

theorem Slot.SameTensor.esize_eq {t u : Slot} (h : t.SameTensor u) : t.esize = u.esize := by
  rw [Slot.esize, Slot.esize, h.2.2.1]

theorem Slot.SameTensor.last_eq {t u : Slot} (h : t.SameTensor u) : t.last = u.last := by
  rw [Slot.last, Slot.last, h.dims_eq]

theorem Slot.SameTensor.bytes_eq {t u : Slot} (h : t.SameTensor u) : t.bytes = u.bytes := by
  rw [Slot.bytes, Slot.bytes, Slot.count, Slot.count, h.esize_eq, h.dims_eq]

theorem Slot.SameTensor.ea_eq {t u : Slot} (h : t.SameTensor u) (idx : List Nat) : t.ea idx = u.ea idx := by
  rw [Slot.ea, Slot.ea, h.addr_eq, h.esize_eq, h.dims_eq]

theorem Slot.SameTensor.elem_eq {t u : Slot} (h : t.SameTensor u) (m : Memory) (idx : List Nat) :
    elem m t idx = elem m u idx := by
  rw [elem, elem, h.ea_eq, h.esize_eq]

theorem Slot.SameTensor.store_eq {t u : Slot} (h : t.SameTensor u) (m : Memory) (idx : List Nat) (v : Nat) :
    store m t idx v = store m u idx v := by
  rw [store, store, h.ea_eq, h.esize_eq]

theorem Slot.SameTensor.storeAll_eq {t u : Slot} (h : t.SameTensor u) (v : List Nat → Nat) (m : Memory) :
    storeAll t v m = storeAll u v m := by
  rw [storeAll, storeAll, h.dims_eq]
  exact congrArg (fun f => List.foldl f m (indices u.dims)) (funext₂ fun m' idx => h.store_eq m' idx (v idx))

/-- The dimensions within the rank are the same. -/
theorem Slot.SameTensor.dims_used {t u : Slot} (h : t.SameTensor u) :
    (1 ≤ t.rank.toNat → t.dim0 = u.dim0) ∧ (2 ≤ t.rank.toNat → t.dim1 = u.dim1) ∧ (3 ≤ t.rank.toNat → t.dim2 = u.dim2) := by
  have hd := h.dims_eq
  have hr : u.rank.toNat = t.rank.toNat := by rw [h.rank_eq]
  have hlt : t.rank.toNat < 4 := t.rank.isLt
  simp only [← BitVec.toNat_inj]
  rcases (by omega : t.rank.toNat = 0 ∨ t.rank.toNat = 1 ∨ t.rank.toNat = 2 ∨ t.rank.toNat = 3) with h0 | h0 | h0 | h0 <;>
    simp only [Slot.dims, hr, h0, List.take, List.cons.injEq, and_true] at hd <;> omega

/-- The two snapshots name the same tensors in the slots that the command uses, and the same BLOCK unless it is MMTFP. -/
def SameOperands (i : Instr) (c d : Snapshot) : Prop :=
  (∀ r ∈ roles i, (c.slot r.slot).SameTensor (d.slot r.slot)) ∧ (i ≠ .mmtfp → c.bs = d.bs)

/-- S4 is used by every command (30_encoding.md R95). -/
theorem SameOperands.slotO {i : Instr} {c d : Snapshot} (h : SameOperands i c d) : c.slotO.SameTensor d.slotO := by
  obtain ⟨r, hr, hs⟩ := slotO_used i
  have := h.1 r hr
  rwa [hs] at this

/-- S1 is used by every command (30_encoding.md R95). -/
theorem SameOperands.slotB {i : Instr} {c d : Snapshot} (h : SameOperands i c d) : c.slotB.SameTensor d.slotB := by
  obtain ⟨r, hr, hs⟩ : ∃ r ∈ roles i, r.slot = 1 := by cases i <;> simp [roles]
  have := h.1 r hr
  rwa [hs] at this

/-- Whether a test of each used slot fails does not depend on the rest of the snapshot. -/
theorem firstSlot_congr {i : Instr} {id : CheckId} {bad bad' : SlotRole → Bool} (h : ∀ r ∈ roles i, bad r = bad' r) :
    firstSlot i id bad = firstSlot i id bad' := by
  unfold firstSlot
  congr 1
  revert h
  generalize roles i = l
  intro h
  induction l with
  | nil => rfl
  | cons a l ih =>
    rw [List.find?_cons, List.find?_cons, h a (by simp), ih fun r hr => h r (by simp [hr])]

/-- The first listed slot that a test rejects. -/
theorem find_congr {l : List (Fin 5)} {bad bad' : Fin 5 → Bool} (h : ∀ s ∈ l, bad s = bad' s) : l.find? bad = l.find? bad' := by
  induction l with
  | nil => rfl
  | cons a l ih => rw [List.find?_cons, List.find?_cons, h a (by simp), ih fun r hr => h r (by simp [hr])]

/-- An input slot is a used slot. -/
theorem inputSlots_used {i : Instr} {s : Fin 5} (h : s ∈ inputSlots i) : ∃ r ∈ roles i, r.slot = s := by
  simp only [inputSlots, List.mem_filter, List.mem_map] at h
  exact h.1

/-- A scale slot is a used slot. -/
theorem scaleSlots_used {i : Instr} {s : Fin 5} (h : s ∈ scaleSlots i) : ∃ r ∈ roles i, r.slot = s := by
  revert s
  cases i <;> decide

/-- The rank of S1, once it is allowed, covers the dimensions that the command reads by name. -/
theorem rank_slotB {i : Instr} {c : Snapshot} (h : ∀ r ∈ roles i, rankAllowed c r = true) :
    1 ≤ c.slotB.rank.toNat ∧ (i ≠ .unpackI4 → 2 ≤ c.slotB.rank.toNat) ∧
      (i ≠ .unpackI4 → i ≠ .mmtfp → 3 ≤ c.slotB.rank.toNat) := by
  have key : ∀ dts l, (⟨1, dts, .oneOf l⟩ : SlotRole) ∈ roles i → c.slotB.rank.toNat ∈ l := by
    intro dts l hr
    simpa [rankAllowed, Snapshot.slot, Slots.get, Snapshot.slotB] using h _ hr
  cases i with
  | mmtfp => have := key [.f32] [2] (by simp [roles]); simp at this; simp [this]
  | mmtQ8 => have := key [.i8, .u8] [3] (by simp [roles]); simp at this; simp [this]
  | mmtQ4 => have := key [.u8] [3] (by simp [roles]); simp at this; simp [this]
  | unpackI4 => have := key [.u8] [1, 2, 3] (by simp [roles]); simp at this; simp; omega
  | dequantQ8 => have := key [.i8, .u8] [3] (by simp [roles]); simp at this; simp [this]
  | dequantQ4 => have := key [.u8] [3] (by simp [roles]); simp at this; simp [this]

/-- The checks agree when each of their parts does. -/
theorem check_eq_of_parts {i : Instr} {c d : Snapshot} {p : Platform} (hd : checkDtype i c = checkDtype i d)
    (hr : checkRank i c = checkRank i d) (e1 : checkDims i c = checkDims i d) (e2 : blockLegal i c = blockLegal i d)
    (e3 : packedDimAgrees i c = packedDimAgrees i d) (e4 : checkScales i c = checkScales i d)
    (e5 : blockDividesK i c = blockDividesK i d) (e6 : innerDimsAgree i c = innerDimsAgree i d)
    (e7 : outputShape i c = outputShape i d) (e8 : checkAlign i c = checkAlign i d) (e9 : checkRange i c = checkRange i d)
    (e10 : checkAdmit i c p = checkAdmit i d p) (e11 : checkOverlap i c = checkOverlap i d)
    (e12 : c.slotO.dims = d.slotO.dims) : check i c p = check i d p := by
  rw [check, hd, hr, e1, e2, e3, e4, e5, e6, e7, e8, e9, e10, e11, e12, check]

/-- The checks of a command depend on its operands alone (60_exceptions.md R175, 30_encoding.md R99). -/
theorem check_congr {i : Instr} {c d : Snapshot} (h : SameOperands i c d) (p : Platform) : check i c p = check i d p := by
  have hin : ∀ s ∈ inputSlots i, (c.slot s).SameTensor (d.slot s) := fun s hs => by
    obtain ⟨r, hr, rfl⟩ := inputSlots_used hs
    exact h.1 r hr
  have hsame : ∀ r ∈ roles i, ∀ s, r.ranks = .sameAs s → (c.slot s).rank = (d.slot s).rank := by
    intro r hr s hs
    have : ∃ q ∈ roles i, q.slot = s := by
      revert hr hs
      cases i <;> simp only [roles, List.mem_cons, List.not_mem_nil, or_false] <;> rintro (rfl | rfl | rfl | rfl | rfl) <;>
        simp <;> rintro rfl <;> simp
    obtain ⟨q, hq, rfl⟩ := this
    exact (h.1 q hq).rank_eq
  have hdt : checkDtype i c = checkDtype i d :=
    firstSlot_congr fun r hr => by simp only [dtypeAllowed, (h.1 r hr).2.2.1]
  have hallow : ∀ r ∈ roles i, rankAllowed c r = rankAllowed d r := by
    intro r hr
    unfold rankAllowed
    cases hk : r.ranks with
    | oneOf l => simp only [(h.1 r hr).rank_eq]
    | sameAs s => simp only [(h.1 r hr).rank_eq, hsame r hr s hk]
  have hrk : checkRank i c = checkRank i d := firstSlot_congr fun r hr => by rw [hallow r hr]
  have hO := h.slotO
  have hB := h.slotB
  cases hd : checkDtype i d with
  | some f => simp only [check, hdt, hd, List.findSome?_cons, id]
  | none =>
    cases hr : checkRank i d with
    | some f => simp only [check, hdt, hrk, hd, hr, List.findSome?_cons, id]
    | none =>
      have hok : ∀ r ∈ roles i, rankAllowed c r = true := fun r hrm => by
        rw [hallow r hrm]
        simpa using firstSlot_eq_none.mp hr r hrm
      obtain ⟨r1, r2, r3⟩ := rank_slotB hok
      obtain ⟨d1, d2, d3⟩ := hB.dims_used
      have h0 := d1 r1
      have hA : IsMatmul i → c.slotA.SameTensor d.slotA := fun hm => hin 0 (by rcases hm with rfl | rfl | rfl <;> decide)
      have e1 : checkDims i c = checkDims i d := firstSlot_congr fun r hr => by rw [(h.1 r hr).dims_eq]
      have e2 : blockLegal i c = blockLegal i d := by
        cases i <;> first | rfl | simp only [blockLegal, h.2 (by simp)]
      have e3 : packedDimAgrees i c = packedDimAgrees i d := by
        cases i with
        | mmtfp => rfl
        | mmtQ8 | dequantQ8 => simp only [packedDimAgrees, h.2 (by simp), d3 (r3 (by simp) (by simp))]
        | unpackI4 => simp only [packedDimAgrees, hB.last_eq, h.2 (by simp)]
        | mmtQ4 | dequantQ4 => simp only [packedDimAgrees, h.2 (by simp), d3 (r3 (by simp) (by simp))]
      have e4 : checkScales i c = checkScales i d := by
        unfold checkScales
        congr 1
        refine find_congr fun s hs => ?_
        obtain ⟨r, hr, rfl⟩ := scaleSlots_used hs
        have hne : i ≠ .unpackI4 := by rintro rfl; simp [scaleSlots] at hs
        rw [scaleShape, scaleShape, (h.1 r hr).dims_eq, h0, d2 (r2 hne)]
      have e5 : blockDividesK i c = blockDividesK i d := by
        cases i <;> first | rfl | simp only [blockDividesK, h.2 (by simp), (hA (by simp [IsMatmul])).last_eq]
      have e6 : innerDimsAgree i c = innerDimsAgree i d := by
        cases i with
        | mmtfp => simp only [innerDimsAgree, (hA (by simp [IsMatmul])).last_eq, d2 (r2 (by simp))]
        | mmtQ8 | mmtQ4 =>
          simp only [innerDimsAgree, h.2 (by simp), (hA (by simp [IsMatmul])).last_eq, d2 (r2 (by simp))]
        | unpackI4 | dequantQ8 | dequantQ4 => rfl
      have e7 : outputShape i c = outputShape i d := by
        cases i with
        | mmtfp | mmtQ8 | mmtQ4 => simp only [outputShape, matmulShape, (hA (by simp [IsMatmul])).dims_eq, h0]
        | unpackI4 => simp only [outputShape, hB.dims_eq, hB.last_eq]
        | dequantQ8 | dequantQ4 => simp only [outputShape, dequantShape, h.2 (by simp), h0, d2 (r2 (by simp))]
      have e8 : checkAlign i c = checkAlign i d :=
        firstSlot_congr fun r hr => by rw [(h.1 r hr).addr_eq, (h.1 r hr).esize_eq]
      have e9 : checkRange i c = checkRange i d :=
        firstSlot_congr fun r hr => by rw [(h.1 r hr).addr_eq, (h.1 r hr).bytes_eq]
      have e10 : checkAdmit i c p = checkAdmit i d p :=
        firstSlot_congr fun r hr => by rw [(h.1 r hr).addr_eq, (h.1 r hr).bytes_eq]
      have e11 : checkOverlap i c = checkOverlap i d := by
        refine congrArg (Option.map fun s => failAt .outputOverlap s) (find_congr fun s hs => ?_)
        show regionsMeet _ _ = regionsMeet _ _
        rw [regionsMeet, regionsMeet, hO.addr_eq, hO.bytes_eq, (hin s hs).addr_eq, (hin s hs).bytes_eq]
      exact check_eq_of_parts hdt hrk e1 e2 e3 e4 e5 e6 e7 e8 e9 e10 e11 hO.dims_eq

/-- Whether a command reads a read-sensitive byte depends on its operands alone. -/
theorem readsSensitive_congr {i : Instr} {c d : Snapshot} (h : SameOperands i c d) (p : Platform) :
    readsSensitive i c p = readsSensitive i d p := by
  unfold readsSensitive
  rw [Bool.eq_iff_iff, List.any_eq_true, List.any_eq_true]
  refine exists_congr fun s => and_congr_right fun hs => ?_
  obtain ⟨r, hr, rfl⟩ := inputSlots_used hs
  rw [(h.1 r hr).addr_eq, (h.1 r hr).bytes_eq]

/-- The output elements of a command depend on its operands alone (30_encoding.md R99). -/
theorem outputValue_sameOperands {i : Instr} {c d : Snapshot} (h : SameOperands i c d) : outputValue i c = outputValue i d := by
  have hB := h.slotB
  have hin : ∀ s ∈ inputSlots i, (c.slot s).SameTensor (d.slot s) := fun s hs => by
    obtain ⟨r, hr, rfl⟩ := inputSlots_used hs
    exact h.1 r hr
  have hty : c.slotB.dtype = d.slotB.dtype := hB.2.2.1
  have hmat : c.slotA.SameTensor d.slotA → ∀ weight, weight c = weight d → matmulValue weight c = matmulValue weight d := by
    intro hA weight hw
    funext m idx
    simp only [matmulValue, readF32, hA.elem_eq, hA.last_eq, hw]
  have hdq : ∀ weight, weight c = weight d → dequantValue weight c = dequantValue weight d := by
    intro weight hw
    funext m idx
    simp only [dequantValue, hw]
  have hq8 : c.slotD.SameTensor d.slotD → dq8 c = dq8 d := by
    intro hD
    funext m n k
    simp only [dq8, readF16, hD.elem_eq, hB.elem_eq, q8Value, hty]
  have hq4 : c.bs = d.bs → c.slotD.SameTensor d.slotD → c.slotM.SameTensor d.slotM → dq4 c = dq4 d := by
    intro hb hD hM
    funext m n k
    simp only [dq4, readF16, packedByte, hD.elem_eq, hM.elem_eq, hB.elem_eq, hb]
  cases i with
  | mmtfp =>
    refine hmat (hin 0 (by decide)) _ ?_
    funext m j k
    simp only [denseWeight, readF32, hB.elem_eq]
  | mmtQ8 => exact hmat (hin 0 (by decide)) _ (hq8 (hin 2 (by decide)))
  | mmtQ4 => exact hmat (hin 0 (by decide)) _ (hq4 (h.2 (by simp)) (hin 2 (by decide)) (hin 3 (by decide)))
  | unpackI4 =>
    funext m idx
    simp only [outputValue, unpackValue, packedByte, hB.elem_eq]
  | dequantQ8 => exact hdq _ (hq8 (hin 2 (by decide)))
  | dequantQ4 => exact hdq _ (hq4 (h.2 (by simp)) (hin 2 (by decide)) (hin 3 (by decide)))

end Sys2Proof.Machine
end

