-- ==== Sys2Proof/Laws/State.lean ====
section
/-! SUPPORT. One lemma per field per update of State: what each shared operation leaves in each field. No later proof unfolds an
update. -/

namespace Sys2Proof.Machine

/-! Accept (60_exceptions.md R171). -/

@[simp] theorem accept_irqEn (s : State) : (accept s).irqEn = s.irqEn := rfl
@[simp] theorem accept_busy (s : State) : (accept s).busy = true := rfl
@[simp] theorem accept_done (s : State) : (accept s).done = false := rfl
@[simp] theorem accept_error (s : State) : (accept s).error = false := rfl
@[simp] theorem accept_overrun (s : State) : (accept s).overrun = s.overrun := rfl
@[simp] theorem accept_errCode (s : State) : (accept s).errCode = 0#8 := rfl
@[simp] theorem accept_errCheck (s : State) : (accept s).errCheck = 0#8 := rfl
@[simp] theorem accept_errSlot (s : State) : (accept s).errSlot = 0#3 := rfl
@[simp] theorem accept_cmd (s : State) : (accept s).cmd = s.cmd := rfl
@[simp] theorem accept_block (s : State) : (accept s).block = s.block := rfl
@[simp] theorem accept_slots (s : State) : (accept s).slots = s.slots := rfl
@[simp] theorem accept_snap (s : State) : (accept s).snap = s.live := rfl
@[simp] theorem accept_tainted (s : State) : (accept s).tainted = false := rfl
@[simp] theorem accept_mem (s : State) : (accept s).mem = s.mem := rfl
@[simp] theorem accept_platform (s : State) : (accept s).platform = s.platform := rfl
@[simp] theorem accept_script (s : State) : (accept s).script = s.script := rfl
@[simp] theorem accept_line (s : State) : (accept s).line = s.line := rfl
@[simp] theorem accept_binds (s : State) : (accept s).binds = s.binds := rfl
@[simp] theorem accept_events (s : State) : (accept s).events = s.events := rfl
@[simp] theorem accept_draws (s : State) : (accept s).draws = s.draws := rfl

/-! Error completion (60_exceptions.md R178). -/

@[simp] theorem raise_irqEn (f : Failure) (s : State) : (raise f s).irqEn = s.irqEn := rfl
@[simp] theorem raise_busy (f : Failure) (s : State) : (raise f s).busy = false := rfl
@[simp] theorem raise_done (f : Failure) (s : State) : (raise f s).done = s.done := rfl
@[simp] theorem raise_error (f : Failure) (s : State) : (raise f s).error = true := rfl
@[simp] theorem raise_overrun (f : Failure) (s : State) : (raise f s).overrun = s.overrun := rfl
@[simp] theorem raise_errCode (f : Failure) (s : State) : (raise f s).errCode = f.check.errClass.code := rfl
@[simp] theorem raise_errCheck (f : Failure) (s : State) : (raise f s).errCheck = f.check.code := rfl
@[simp] theorem raise_errSlot (f : Failure) (s : State) : (raise f s).errSlot = f.slot := rfl
@[simp] theorem raise_cmd (f : Failure) (s : State) : (raise f s).cmd = s.cmd := rfl
@[simp] theorem raise_block (f : Failure) (s : State) : (raise f s).block = s.block := rfl
@[simp] theorem raise_slots (f : Failure) (s : State) : (raise f s).slots = s.slots := rfl
@[simp] theorem raise_snap (f : Failure) (s : State) : (raise f s).snap = s.snap := rfl
@[simp] theorem raise_tainted (f : Failure) (s : State) : (raise f s).tainted = false := rfl
@[simp] theorem raise_mem (f : Failure) (s : State) : (raise f s).mem = s.mem := rfl
@[simp] theorem raise_platform (f : Failure) (s : State) : (raise f s).platform = s.platform := rfl
@[simp] theorem raise_script (f : Failure) (s : State) : (raise f s).script = s.script := rfl
@[simp] theorem raise_line (f : Failure) (s : State) : (raise f s).line = s.line := rfl
@[simp] theorem raise_binds (f : Failure) (s : State) : (raise f s).binds = s.binds := rfl
@[simp] theorem raise_events (f : Failure) (s : State) : (raise f s).events = s.events := rfl
@[simp] theorem raise_draws (f : Failure) (s : State) : (raise f s).draws = s.draws := rfl

/-! Successful completion (60_exceptions.md R177). -/

@[simp] theorem finish_irqEn (s : State) : (finish s).irqEn = s.irqEn := rfl
@[simp] theorem finish_busy (s : State) : (finish s).busy = false := rfl
@[simp] theorem finish_done (s : State) : (finish s).done = true := rfl
@[simp] theorem finish_error (s : State) : (finish s).error = s.error := rfl
@[simp] theorem finish_overrun (s : State) : (finish s).overrun = s.overrun := rfl
@[simp] theorem finish_errCode (s : State) : (finish s).errCode = s.errCode := rfl
@[simp] theorem finish_errCheck (s : State) : (finish s).errCheck = s.errCheck := rfl
@[simp] theorem finish_errSlot (s : State) : (finish s).errSlot = s.errSlot := rfl
@[simp] theorem finish_cmd (s : State) : (finish s).cmd = s.cmd := rfl
@[simp] theorem finish_block (s : State) : (finish s).block = s.block := rfl
@[simp] theorem finish_slots (s : State) : (finish s).slots = s.slots := rfl
@[simp] theorem finish_snap (s : State) : (finish s).snap = s.snap := rfl
@[simp] theorem finish_tainted (s : State) : (finish s).tainted = false := rfl
@[simp] theorem finish_mem (s : State) : (finish s).mem = s.mem := rfl
@[simp] theorem finish_platform (s : State) : (finish s).platform = s.platform := rfl
@[simp] theorem finish_script (s : State) : (finish s).script = s.script := rfl
@[simp] theorem finish_line (s : State) : (finish s).line = s.line := rfl
@[simp] theorem finish_binds (s : State) : (finish s).binds = s.binds := rfl
@[simp] theorem finish_events (s : State) : (finish s).events = s.events := rfl
@[simp] theorem finish_draws (s : State) : (finish s).draws = s.draws := rfl

/-! A Host write of STATUS (10_state.md R27). -/

@[simp] theorem writeStatus_irqEn (v : Word) (s : State) : (writeStatus v s).irqEn = s.irqEn := rfl
@[simp] theorem writeStatus_busy (v : Word) (s : State) : (writeStatus v s).busy = s.busy := rfl
@[simp] theorem writeStatus_done (v : Word) (s : State) : (writeStatus v s).done = (s.done && !v.getLsbD 1) := rfl
@[simp] theorem writeStatus_error (v : Word) (s : State) : (writeStatus v s).error = (s.error && !v.getLsbD 2) := rfl
@[simp] theorem writeStatus_overrun (v : Word) (s : State) : (writeStatus v s).overrun = (s.overrun && !v.getLsbD 3) := rfl
@[simp] theorem writeStatus_errCode (v : Word) (s : State) : (writeStatus v s).errCode = s.errCode := rfl
@[simp] theorem writeStatus_errCheck (v : Word) (s : State) : (writeStatus v s).errCheck = s.errCheck := rfl
@[simp] theorem writeStatus_errSlot (v : Word) (s : State) : (writeStatus v s).errSlot = s.errSlot := rfl
@[simp] theorem writeStatus_cmd (v : Word) (s : State) : (writeStatus v s).cmd = s.cmd := rfl
@[simp] theorem writeStatus_block (v : Word) (s : State) : (writeStatus v s).block = s.block := rfl
@[simp] theorem writeStatus_slots (v : Word) (s : State) : (writeStatus v s).slots = s.slots := rfl
@[simp] theorem writeStatus_snap (v : Word) (s : State) : (writeStatus v s).snap = s.snap := rfl
@[simp] theorem writeStatus_tainted (v : Word) (s : State) : (writeStatus v s).tainted = s.tainted := rfl
@[simp] theorem writeStatus_mem (v : Word) (s : State) : (writeStatus v s).mem = s.mem := rfl
@[simp] theorem writeStatus_platform (v : Word) (s : State) : (writeStatus v s).platform = s.platform := rfl
@[simp] theorem writeStatus_script (v : Word) (s : State) : (writeStatus v s).script = s.script := rfl
@[simp] theorem writeStatus_line (v : Word) (s : State) : (writeStatus v s).line = s.line := rfl
@[simp] theorem writeStatus_binds (v : Word) (s : State) : (writeStatus v s).binds = s.binds := rfl
@[simp] theorem writeStatus_events (v : Word) (s : State) : (writeStatus v s).events = s.events := rfl
@[simp] theorem writeStatus_draws (v : Word) (s : State) : (writeStatus v s).draws = s.draws := rfl

/-! The Host goes on to its next line (30_encoding.md R103). -/

@[simp] theorem nextLine_irqEn (s : State) : (nextLine s).irqEn = s.irqEn := rfl
@[simp] theorem nextLine_busy (s : State) : (nextLine s).busy = s.busy := rfl
@[simp] theorem nextLine_done (s : State) : (nextLine s).done = s.done := rfl
@[simp] theorem nextLine_error (s : State) : (nextLine s).error = s.error := rfl
@[simp] theorem nextLine_overrun (s : State) : (nextLine s).overrun = s.overrun := rfl
@[simp] theorem nextLine_errCode (s : State) : (nextLine s).errCode = s.errCode := rfl
@[simp] theorem nextLine_errCheck (s : State) : (nextLine s).errCheck = s.errCheck := rfl
@[simp] theorem nextLine_errSlot (s : State) : (nextLine s).errSlot = s.errSlot := rfl
@[simp] theorem nextLine_cmd (s : State) : (nextLine s).cmd = s.cmd := rfl
@[simp] theorem nextLine_block (s : State) : (nextLine s).block = s.block := rfl
@[simp] theorem nextLine_slots (s : State) : (nextLine s).slots = s.slots := rfl
@[simp] theorem nextLine_snap (s : State) : (nextLine s).snap = s.snap := rfl
@[simp] theorem nextLine_tainted (s : State) : (nextLine s).tainted = s.tainted := rfl
@[simp] theorem nextLine_mem (s : State) : (nextLine s).mem = s.mem := rfl
@[simp] theorem nextLine_platform (s : State) : (nextLine s).platform = s.platform := rfl
@[simp] theorem nextLine_script (s : State) : (nextLine s).script = s.script := rfl
@[simp] theorem nextLine_line (s : State) : (nextLine s).line = s.line + 1 := rfl
@[simp] theorem nextLine_binds (s : State) : (nextLine s).binds = s.binds := rfl
@[simp] theorem nextLine_events (s : State) : (nextLine s).events = s.events := rfl
@[simp] theorem nextLine_draws (s : State) : (nextLine s).draws = s.draws := rfl

/-! The Host binds a value to a name (30_encoding.md R103). -/

@[simp] theorem bindName_irqEn (name : Nat) (v : Word) (s : State) : (bindName name v s).irqEn = s.irqEn := rfl
@[simp] theorem bindName_busy (name : Nat) (v : Word) (s : State) : (bindName name v s).busy = s.busy := rfl
@[simp] theorem bindName_done (name : Nat) (v : Word) (s : State) : (bindName name v s).done = s.done := rfl
@[simp] theorem bindName_error (name : Nat) (v : Word) (s : State) : (bindName name v s).error = s.error := rfl
@[simp] theorem bindName_overrun (name : Nat) (v : Word) (s : State) : (bindName name v s).overrun = s.overrun := rfl
@[simp] theorem bindName_errCode (name : Nat) (v : Word) (s : State) : (bindName name v s).errCode = s.errCode := rfl
@[simp] theorem bindName_errCheck (name : Nat) (v : Word) (s : State) : (bindName name v s).errCheck = s.errCheck := rfl
@[simp] theorem bindName_errSlot (name : Nat) (v : Word) (s : State) : (bindName name v s).errSlot = s.errSlot := rfl
@[simp] theorem bindName_cmd (name : Nat) (v : Word) (s : State) : (bindName name v s).cmd = s.cmd := rfl
@[simp] theorem bindName_block (name : Nat) (v : Word) (s : State) : (bindName name v s).block = s.block := rfl
@[simp] theorem bindName_slots (name : Nat) (v : Word) (s : State) : (bindName name v s).slots = s.slots := rfl
@[simp] theorem bindName_snap (name : Nat) (v : Word) (s : State) : (bindName name v s).snap = s.snap := rfl
@[simp] theorem bindName_tainted (name : Nat) (v : Word) (s : State) : (bindName name v s).tainted = s.tainted := rfl
@[simp] theorem bindName_mem (name : Nat) (v : Word) (s : State) : (bindName name v s).mem = s.mem := rfl
@[simp] theorem bindName_platform (name : Nat) (v : Word) (s : State) : (bindName name v s).platform = s.platform := rfl
@[simp] theorem bindName_script (name : Nat) (v : Word) (s : State) : (bindName name v s).script = s.script := rfl
@[simp] theorem bindName_line (name : Nat) (v : Word) (s : State) : (bindName name v s).line = s.line := rfl
@[simp] theorem bindName_binds (name : Nat) (v : Word) (s : State) : (bindName name v s).binds = (name, v) :: s.binds := rfl
@[simp] theorem bindName_events (name : Nat) (v : Word) (s : State) : (bindName name v s).events = s.events := rfl
@[simp] theorem bindName_draws (name : Nat) (v : Word) (s : State) : (bindName name v s).draws = s.draws := rfl

/-! Reset (10_state.md R45); `mem` and `draws` are those of `abortInFlight`. -/

@[simp] theorem resetEngine_irqEn (s : State) : (resetEngine s).irqEn = false := rfl
@[simp] theorem resetEngine_busy (s : State) : (resetEngine s).busy = false := rfl
@[simp] theorem resetEngine_done (s : State) : (resetEngine s).done = false := rfl
@[simp] theorem resetEngine_error (s : State) : (resetEngine s).error = false := rfl
@[simp] theorem resetEngine_overrun (s : State) : (resetEngine s).overrun = false := rfl
@[simp] theorem resetEngine_errCode (s : State) : (resetEngine s).errCode = 0#8 := rfl
@[simp] theorem resetEngine_errCheck (s : State) : (resetEngine s).errCheck = 0#8 := rfl
@[simp] theorem resetEngine_errSlot (s : State) : (resetEngine s).errSlot = 0#3 := rfl
@[simp] theorem resetEngine_cmd (s : State) : (resetEngine s).cmd = 0#32 := rfl
@[simp] theorem resetEngine_block (s : State) : (resetEngine s).block = 0#32 := rfl
@[simp] theorem resetEngine_slots (s : State) : (resetEngine s).slots = Slots.zero := rfl
@[simp] theorem resetEngine_snap (s : State) : (resetEngine s).snap = Snapshot.zero := rfl
@[simp] theorem resetEngine_tainted (s : State) : (resetEngine s).tainted = false := rfl
@[simp] theorem resetEngine_mem (s : State) : (resetEngine s).mem = (abortInFlight s).mem := rfl
@[simp] theorem resetEngine_draws (s : State) : (resetEngine s).draws = (abortInFlight s).draws := rfl
@[simp] theorem resetEngine_platform (s : State) : (resetEngine s).platform = s.platform := by
  cases h : s.busy <;> simp [resetEngine, abortInFlight, h]
@[simp] theorem resetEngine_script (s : State) : (resetEngine s).script = s.script := by
  cases h : s.busy <;> simp [resetEngine, abortInFlight, h]
@[simp] theorem resetEngine_line (s : State) : (resetEngine s).line = s.line := by
  cases h : s.busy <;> simp [resetEngine, abortInFlight, h]
@[simp] theorem resetEngine_binds (s : State) : (resetEngine s).binds = s.binds := by
  cases h : s.busy <;> simp [resetEngine, abortInFlight, h]
@[simp] theorem resetEngine_events (s : State) : (resetEngine s).events = s.events := by
  cases h : s.busy <;> simp [resetEngine, abortInFlight, h]

/-! Execute changes `mem` and `draws` alone (60_exceptions.md R170). -/

@[simp] theorem execute_irqEn (value : Snapshot → Memory → List Nat → Nat) (s : State) : (execute value s).irqEn = s.irqEn := by
  cases h : s.tainted <;> simp [execute, h]
@[simp] theorem execute_busy (value : Snapshot → Memory → List Nat → Nat) (s : State) : (execute value s).busy = s.busy := by
  cases h : s.tainted <;> simp [execute, h]
@[simp] theorem execute_done (value : Snapshot → Memory → List Nat → Nat) (s : State) : (execute value s).done = s.done := by
  cases h : s.tainted <;> simp [execute, h]
@[simp] theorem execute_error (value : Snapshot → Memory → List Nat → Nat) (s : State) : (execute value s).error = s.error := by
  cases h : s.tainted <;> simp [execute, h]
@[simp] theorem execute_overrun (value : Snapshot → Memory → List Nat → Nat) (s : State) : (execute value s).overrun = s.overrun := by
  cases h : s.tainted <;> simp [execute, h]
@[simp] theorem execute_errCode (value : Snapshot → Memory → List Nat → Nat) (s : State) : (execute value s).errCode = s.errCode := by
  cases h : s.tainted <;> simp [execute, h]
@[simp] theorem execute_errCheck (value : Snapshot → Memory → List Nat → Nat) (s : State) : (execute value s).errCheck = s.errCheck := by
  cases h : s.tainted <;> simp [execute, h]
@[simp] theorem execute_errSlot (value : Snapshot → Memory → List Nat → Nat) (s : State) : (execute value s).errSlot = s.errSlot := by
  cases h : s.tainted <;> simp [execute, h]
@[simp] theorem execute_cmd (value : Snapshot → Memory → List Nat → Nat) (s : State) : (execute value s).cmd = s.cmd := by
  cases h : s.tainted <;> simp [execute, h]
@[simp] theorem execute_block (value : Snapshot → Memory → List Nat → Nat) (s : State) : (execute value s).block = s.block := by
  cases h : s.tainted <;> simp [execute, h]
@[simp] theorem execute_slots (value : Snapshot → Memory → List Nat → Nat) (s : State) : (execute value s).slots = s.slots := by
  cases h : s.tainted <;> simp [execute, h]
@[simp] theorem execute_snap (value : Snapshot → Memory → List Nat → Nat) (s : State) : (execute value s).snap = s.snap := by
  cases h : s.tainted <;> simp [execute, h]
@[simp] theorem execute_tainted (value : Snapshot → Memory → List Nat → Nat) (s : State) : (execute value s).tainted = s.tainted := by
  cases h : s.tainted <;> simp [execute, h]
@[simp] theorem execute_platform (value : Snapshot → Memory → List Nat → Nat) (s : State) : (execute value s).platform = s.platform := by
  cases h : s.tainted <;> simp [execute, h]
@[simp] theorem execute_script (value : Snapshot → Memory → List Nat → Nat) (s : State) : (execute value s).script = s.script := by
  cases h : s.tainted <;> simp [execute, h]
@[simp] theorem execute_line (value : Snapshot → Memory → List Nat → Nat) (s : State) : (execute value s).line = s.line := by
  cases h : s.tainted <;> simp [execute, h]
@[simp] theorem execute_binds (value : Snapshot → Memory → List Nat → Nat) (s : State) : (execute value s).binds = s.binds := by
  cases h : s.tainted <;> simp [execute, h]
@[simp] theorem execute_events (value : Snapshot → Memory → List Nat → Nat) (s : State) : (execute value s).events = s.events := by
  cases h : s.tainted <;> simp [execute, h]

/-! Slots (10_state.md R32). -/

@[simp] theorem Slots.get_set_same (ss : Slots) (j : Fin 5) (t : Slot) : (ss.set j t).get j = t := by
  fin_cases j <;> rfl

theorem Slots.get_set_other (ss : Slots) {i j : Fin 5} (t : Slot) (h : i ≠ j) : (ss.set j t).get i = ss.get i := by
  fin_cases i <;> fin_cases j <;> simp_all [Slots.get, Slots.set]

end Sys2Proof.Machine
end

