-- ==== Sys2Proof/Laws/Step.lean ====
section
/-! SUPPORT. Everything a step, and what an agent does in it, can do when it answers a next state. -/

namespace Sys2Proof.Machine

/-- A reported failure names a slot its check can name (60_exceptions.md R174, column SLOT). -/
theorem canName_of_check {i : Instr} {c : Snapshot} {p : Platform} {f : Failure} (h : check i c p = some f) :
    f.check.canName f.slot.toNat = true := by
  have hfirst : ∀ {id : CheckId} {bad : SlotRole → Bool} {g : Failure}, firstSlot i id bad = some g →
      g.check = id ∧ g.slot.toNat < 5 := by
    intro id bad g hg
    obtain ⟨r, -, rfl⟩ := Option.map_eq_some_iff.mp hg
    exact ⟨rfl, by simp [failAt]; omega⟩
  have hunless : ∀ {ok : Bool} {g g' : Failure}, failUnless ok g = some g' → g' = g := by
    intro ok g g' hg
    cases ok <;> simp_all [failUnless]
  simp only [check, List.findSome?_cons, List.findSome?_nil, id_eq] at h
  repeat' split at h
  all_goals cases h
  all_goals rename_i hx; first
    | (obtain ⟨h1, h2⟩ := hfirst hx; simp [h1, CheckId.canName]; omega)
    | (rw [hunless hx]; decide)
    | skip
  · obtain ⟨s, hs, rfl⟩ := Option.map_eq_some_iff.mp hx
    have := List.mem_of_find?_eq_some hs
    revert this
    cases i <;> simp [scaleSlots] <;> rintro (rfl | rfl) <;> decide
  · obtain ⟨s, hs, rfl⟩ := Option.map_eq_some_iff.mp hx
    have := List.mem_of_find?_eq_some hs
    clear hs hx
    revert s
    cases i <;> decide

/-- The Engine's step: nothing when idle; else an error completion with a row of the table, or the successful completion of a
command that runs (60_exceptions.md R170, R177, R178). -/
theorem engineStep_cases {s t : State} (h : engineStep s = .next t) :
    (s.busy = false ∧ t = s) ∨
      (s.busy = true ∧ ∃ f : Failure, f.check.canName f.slot.toNat = true ∧ t = raise f s) ∨
      (s.busy = true ∧ ∃ i, decode s.snap.cmd = .command i ∧ Runs i s.snap s.platform ∧
        t = finish (execute (outputValue i) s)) := by
  unfold engineStep at h
  cases hb : s.busy with
  | false => simp only [hb] at h; cases h; exact .inl ⟨rfl, rfl⟩
  | true =>
    simp only [hb, if_true] at h
    cases hd : decode s.snap.cmd with
    | illegal why =>
      rw [hd] at h
      cases h
      exact .inr (.inl ⟨rfl, illegalFailure why, by cases why <;> rfl, rfl⟩)
    | command i =>
      rw [hd] at h
      rcases exec_cases i s with ⟨f, hf, he⟩ | ⟨-, -, he⟩ | ⟨hr, he⟩
      · cases he.symm.trans h
        exact .inr (.inl ⟨rfl, f, canName_of_check hf, rfl⟩)
      · cases he.symm.trans h
      · cases he.symm.trans h
        exact .inr (.inr ⟨rfl, i, rfl, hr, rfl⟩)

/-- A Host line writes a register, stores to data memory inside the address space, or changes the Host's own state (and the
draw counter) alone (30_encoding.md R103). -/
theorem hostExec_cases {h : HostInstr} {s t : State} (e : hostExec h s = .next t) :
    (∃ off v, h = .wr 32 off v ∧ t = nextLine (writeReg (regAt off) v s)) ∨
      (∃ n a v, (∀ x, h.stores x ↔ a ≤ x ∧ x < a + n) ∧ a + n ≤ Config.addrSpace ∧
        t = nextLine { s with
          mem := memWrite s.mem a n v, tainted := s.tainted || meetsInput s a n || meetsOutput s a n }) ∨
      (∃ l b d, t = { s with line := l, binds := b, draws := d }) := by
  have hreg : ∀ {w off k}, withReg w off k = .next t → w = 32 ∧ k (regAt off) = .next t := by
    intro w off k hk
    unfold withReg accessRefusal at hk
    split at hk
    · cases hk
    · rename_i hn
      refine ⟨?_, hk⟩
      by_contra hw
      split at hn
      · cases hn
      · simp at hn
  have hstore : ∀ {n a v}, hostStore n a v s = .next t → a + n ≤ Config.addrSpace ∧
      t = nextLine { s with
        mem := memWrite s.mem a n v, tainted := s.tainted || meetsInput s a n || meetsOutput s a n } := by
    intro n a v hk
    unfold hostStore at hk
    split at hk
    · rename_i ha; cases hk; exact ⟨ha, rfl⟩
    · cases hk
  cases h with
  | wr w off v =>
    obtain ⟨rfl, hk⟩ := hreg (w := w) (off := off) (k := fun r => .next (nextLine (writeReg r v s))) e
    cases hk
    exact .inl ⟨off, v, rfl, rfl⟩
  | rd w off name =>
    obtain ⟨-, hk⟩ := hreg (w := w) (off := off) (k := fun r => .next (nextLine (bindName name (readReg r s) s))) e
    cases hk
    exact .inr (.inr ⟨_, _, s.draws, rfl⟩)
  | poll off mask v =>
    obtain ⟨-, hk⟩ := hreg (w := 32) (off := off) (k := fun r => .next (hostPoll r mask v s)) e
    cases hk
    refine .inr (.inr ⟨(hostPoll (regAt off) mask v s).line, s.binds, s.draws, ?_⟩)
    unfold hostPoll
    split <;> rfl
  | ifGoto name hi lo v l =>
    simp only [hostExec, hostIf, hostGoto] at e
    refine .inr (.inr ⟨t.line, s.binds, s.draws, ?_⟩)
    repeat' split at e
    all_goals cases e
    all_goals rfl
  | label l => cases e; exact .inr (.inr ⟨_, s.binds, s.draws, rfl⟩)
  | memW32 a v => exact .inr (.inl ⟨4, a.toNat, v.toNat, fun _ => .rfl, hstore e⟩)
  | memW16 a v => exact .inr (.inl ⟨2, a.toNat, v.toNat, fun _ => .rfl, hstore e⟩)
  | memW8 a v =>
    exact .inr (.inl ⟨1, a.toNat, v.toNat, fun x => by simp only [HostInstr.stores]; omega, hstore e⟩)
  | memR32 a name =>
    simp only [hostExec, hostLoad] at e
    repeat' split at e
    all_goals cases e
    all_goals exact .inr (.inr ⟨_, _, _, rfl⟩)

/-- The line of a label is the first that holds it (30_encoding.md R103; log 27). -/
theorem lineOfLabel_eq_some {script : List HostInstr} {l n : Nat} (hn : script[n]? = some (.label l))
    (hfirst : ∀ k, k < n → script[k]? ≠ some (.label l)) : lineOfLabel script l = some n := by
  obtain ⟨hlt, hget⟩ := List.getElem?_eq_some_iff.mp hn
  refine List.findIdx?_eq_some_iff_getElem.mpr ⟨hlt, by simp [hget], fun k hk => ?_⟩
  have := hfirst k hk
  rw [List.getElem?_eq_getElem (by omega)] at this
  simpa using this

/-- The value bound to a name is that of its newest binding (30_encoding.md R103). -/
theorem boundTo_eq_some {s : State} {name : Nat} {w : Word} {newer older : List (Nat × Word)}
    (hs : s.binds = newer ++ (name, w) :: older) (hnew : ∀ b ∈ newer, b.1 ≠ name) : boundTo name s = some w := by
  have : newer.find? (fun b => b.1 == name) = none := by simpa using hnew
  rw [boundTo, hs, List.find?_append, this]
  simp

/-- The Host's step: nothing when its script has ended, else its next line. -/
theorem hostStep_cases {s t : State} (e : hostStep s = .next t) :
    t = s ∨ ∃ h, s.script[s.line]? = some h ∧ hostExec h s = .next t := by
  unfold hostStep at e
  split at e
  · rename_i h hl
    exact .inr ⟨h, hl, e⟩
  · cases e
    exact .inl rfl

/-- What moves in a step, with the event that says so taken (60_exceptions.md R170; log 5). -/
theorem step_cases {s t : State} (e : step s = .next t) :
    (HostMoves s ∧ hostStep { s with events := s.events.tail } = .next t) ∨
      engineStep { s with events := s.events.tail } = .next t ∨
      (HostMoves s ∧ ∃ u, hostStep { s with events := s.events.tail } = .next u ∧
        ((s.busy = true ∧ engineStep u = .next t) ∨ (s.busy = false ∧ t = u))) ∨
      ((∃ rest, s.events = .powerOn :: rest) ∧ t = resetEngine { s with events := s.events.tail }) ∨
      ∃ p, s.busy = false ∧ t = { s with events := s.events.tail, platform := p } := by
  unfold step at e
  cases he : s.events with
  | nil =>
    have hs : { s with events := ([] : List Event).tail } = s := by rw [List.tail_nil, ← he]
    simp only [he, defaultStep] at e
    rw [hs]
    split at e
    · exact .inr (.inl e)
    · rename_i hb
      exact .inl ⟨.inl ⟨he, by simpa using hb⟩, e⟩
  | cons ev rest =>
    simp only [he, eventStep] at e
    rw [List.tail_cons]
    cases ev with
    | host => exact .inl ⟨.inr ⟨rest, .inl he⟩, e⟩
    | engine => exact .inr (.inl e)
    | together =>
      simp only [togetherStep] at e
      split at e
      · rename_i u hu
        refine .inr (.inr (.inl ⟨.inr ⟨rest, .inr he⟩, u, hu, ?_⟩))
        cases hb : s.busy with
        | true => simp only [hb, if_true] at e; exact .inl ⟨rfl, e⟩
        | false => simp only [hb] at e; cases e; exact .inr ⟨rfl, rfl⟩
      · cases e
      · cases e
    | powerOn => cases e; exact .inr (.inr (.inr (.inl ⟨⟨rest, rfl⟩, rfl⟩)))
    | remap p =>
      simp only [remapStep] at e
      split at e
      · cases e
      · rename_i hb
        cases e
        exact .inr (.inr (.inr (.inr ⟨p, by simpa using hb, rfl⟩)))

end Sys2Proof.Machine
end

