-- ==== Sys2Proof/Tests/Slice0.lean ====
section
/-! SUPPORT. Tests: words written out from the spec's encoding, ill-formed words, one step of each command on the vectors of
95_test_vectors.md, and, for every obligation with hypotheses, values that meet them (`test_meets_…`). -/

open Sys2Proof Sys2Proof.Machine

namespace Sys2Proof.Tests

set_option Elab.async false

/-! Decoding: OP in bits 3:0, bits 31:4 zero (30_encoding.md R91, R93); 95_test_vectors.md 2.8. -/

theorem test_decode_mmtfp : decode 0b00000000000000000000000000000001#32 = .command .mmtfp := by decide
theorem test_decode_mmt_q8 : decode 0b00000000000000000000000000000010#32 = .command .mmtQ8 := by decide
theorem test_decode_mmt_q4 : decode 0b00000000000000000000000000000011#32 = .command .mmtQ4 := by decide
theorem test_decode_unpack_i4 : decode 0b00000000000000000000000000000100#32 = .command .unpackI4 := by decide
theorem test_decode_dequant_q8 : decode 0b00000000000000000000000000000101#32 = .command .dequantQ8 := by decide
theorem test_decode_dequant_q4 : decode 0b00000000000000000000000000000110#32 = .command .dequantQ4 := by decide

theorem test_decode_table_words :
    [1, 2, 3, 4, 5, 6, 7, 0x11].map (decodeTableWord 32) =
      [some .mmtfp, some .mmtQ8, some .mmtQ4, some .unpackI4, some .dequantQ8, some .dequantQ4, none, none] := by decide

theorem test_decode_op_reserved :
    decode 0x00000000#32 = .illegal .opReserved ∧ decode 0x00000007#32 = .illegal .opReserved ∧
      decode 0x0000000F#32 = .illegal .opReserved ∧ decode 0x00000017#32 = .illegal .opReserved := by decide

theorem test_decode_rsvd_bits :
    decode 0x00000011#32 = .illegal .rsvdBits ∧ decode 0x80000001#32 = .illegal .rsvdBits := by decide

/-! Well-formedness: an ill-formed word for each check (30_encoding.md R96, R97). -/

theorem test_op_zero_refused : opAssigned 0x00000000#32 = false ∧ wordWellFormed 0x00000000#32 = false := by decide
theorem test_op_seven_refused : opAssigned 0x00000007#32 = false ∧ wordWellFormed 0x00000007#32 = false := by decide
theorem test_rsvd_bit_refused : rsvdClear 0x00000011#32 = false ∧ wordWellFormed 0x00000011#32 = false := by decide
theorem test_rsvd_top_bit_refused : rsvdClear 0x80000001#32 = false ∧ wordWellFormed 0x80000001#32 = false := by decide
theorem test_commands_well_formed : wordWellFormed 0x00000001#32 = true ∧ wordWellFormed 0x00000006#32 = true := by decide

/-! Small states. -/

/-- A descriptor slot. -/
def slotAt (addr : Nat) (dt : DType) (rank d0 d1 d2 : Nat) : Slot :=
  ⟨BitVec.ofNat 32 addr, BitVec.ofNat 32 (addr / 2 ^ 32), dt.code, BitVec.ofNat 2 rank, BitVec.ofNat 32 d0,
    BitVec.ofNat 32 d1, BitVec.ofNat 32 d2⟩

/-- Memory with values of n bytes one after the other from `a`. -/
def put (n : Nat) : Nat → List Nat → Memory → Memory
  | _, [], m => m
  | a, v :: vs, m => put n (a + n) vs (memWrite m a n v)

/-- The reset machine with a command in flight. -/
def inFlight (i : Instr) (block : Nat) (s0 s1 s2 s3 s4 : Slot) (m : Memory) : State :=
  { State.reset with busy := true, snap := ⟨encode i, BitVec.ofNat 32 block, ⟨s0, s1, s2, s3, s4⟩⟩, mem := m }

/-- The reset machine with a script. -/
def scripted (script : List HostInstr) : State := { State.reset with script := script }

/-- Elements of the output slot after a step that answers a next state. -/
def outputs (o : Outcome) (idxs : List (List Nat)) : Option (List Nat) :=
  match o with
  | .next t => some (idxs.map (elem t.mem t.snap.slotO))
  | .fault _ => none
  | .refused _ => none

/-- STATUS, ERR_CODE and ERR_INFO after a step that answers a next state. -/
def reportOf (o : Outcome) : Option (Nat × Nat × Nat) :=
  match o with
  | .next t => some ((readReg .status t).toNat, (readReg .errCode t).toNat, (readReg .errInfo t).toNat)
  | .fault _ => none
  | .refused _ => none

/-- The state a step answers, for a step that answers one. -/
def after (o : Outcome) : State :=
  match o with
  | .next t => t
  | .fault _ => State.reset
  | .refused _ => State.reset

/-- The step answers a next state. -/
def completes (o : Outcome) : Bool :=
  match o with
  | .next _ => true
  | .fault _ => false
  | .refused _ => false

theorem eq_next_after {o : Outcome} (h : completes o = true) : o = .next (after o) := by
  cases o <;> first | rfl | cases h

/-- [1, 2, 3, 4, 5, 6, 7, 8] as binary32. -/
def oneToEight : List Nat :=
  [0x3F800000, 0x40000000, 0x40400000, 0x40800000, 0x40A00000, 0x40C00000, 0x40E00000, 0x41000000]

/-- MF-1. -/
def mf1 : State :=
  inFlight .mmtfp 0 (slotAt 0x1000 .f32 2 2 2 0) (slotAt 0x1010 .f32 2 2 2 0) .zero .zero (slotAt 0x1020 .f32 2 2 2 0)
    (put 4 0x1000 oneToEight [])

/-- MF-2 (L1-14): a batch of two. -/
def mf2 : State :=
  inFlight .mmtfp 0 (slotAt 0x1000 .f32 3 2 1 2) (slotAt 0x1010 .f32 2 1 2 0) .zero .zero (slotAt 0x1020 .f32 3 2 1 1)
    (put 4 0x1000 [0x3F800000, 0x40000000, 0x40400000, 0x40800000, 0x3F800000, 0x3F800000] [])

/-- Slice 1 of MF-2 as a rank 2 command. -/
def mf2Slice : State :=
  { mf2 with snap := ⟨encode .mmtfp, 0#32,
      ⟨slotAt 0x1008 .f32 2 1 2 0, slotAt 0x1010 .f32 2 1 2 0, .zero, .zero, slotAt 0x1030 .f32 2 1 1 0⟩⟩ }

/-- MF-1's shapes with inner dimensions that disagree (L1-11). -/
def mfBad : State :=
  inFlight .mmtfp 0 (slotAt 0x1000 .f32 2 2 4 0) (slotAt 0x2000 .f32 2 3 5 0) .zero .zero (slotAt 0x3000 .f32 2 2 3 0) []

/-- MQ8-1, MQ8-2: one weight row of 32, given the qs dtype, the scale, qs[0, 0, 0] and A[0, 0]. -/
def mq8 (dt : DType) (scale q0 a0 : Nat) : State :=
  inFlight .mmtQ8 32 (slotAt 0x1000 .f32 2 1 32 0) (slotAt 0x2000 dt 3 1 1 32) (slotAt 0x3000 .f16 3 1 1 1) .zero
    (slotAt 0x4000 .f32 2 1 1 0) (put 4 0x1000 [a0] (put 1 0x2000 [q0] (put 2 0x3000 [scale] [])))

/-- MQ8-1 with a batch of two. -/
def mq8Batch : State :=
  inFlight .mmtQ8 32 (slotAt 0x1000 .f32 3 2 1 32) (slotAt 0x2000 .i8 3 1 1 32) (slotAt 0x3000 .f16 3 1 1 1) .zero
    (slotAt 0x4000 .f32 3 2 1 1) (put 4 0x1000 [0x40400000] (put 1 0x2000 [2] (put 2 0x3000 [0x3800] [])))

/-- MQ4-1. -/
def mq4 : State :=
  inFlight .mmtQ4 2 (slotAt 0x1000 .f32 2 1 2 0) (slotAt 0x2000 .u8 3 1 1 1) (slotAt 0x3000 .f16 3 1 1 1)
    (slotAt 0x3100 .f16 3 1 1 1) (slotAt 0x4000 .f32 2 1 1 0)
    (put 4 0x1000 [0x40A00000, 0x40E00000] (put 1 0x2000 [0x21] (put 2 0x3000 [0x3C00] (put 2 0x3100 [0xBC00] []))))

/-- MQ4-1 with a batch of two. -/
def mq4Batch : State :=
  inFlight .mmtQ4 2 (slotAt 0x1000 .f32 3 2 1 2) (slotAt 0x2000 .u8 3 1 1 1) (slotAt 0x3000 .f16 3 1 1 1)
    (slotAt 0x3100 .f16 3 1 1 1) (slotAt 0x4000 .f32 3 2 1 1) mq4.mem

/-- U-1. -/
def u1 : State :=
  inFlight .unpackI4 4 .zero (slotAt 0x2000 .u8 1 2 0 0) .zero .zero (slotAt 0x4000 .u8 1 4 0 0)
    (put 1 0x2000 [0x21, 0xF3] [])

/-- R142's example: qs[0, 0, 0..1] = [0x03, 0xFE] under the scale 0.5, given the qs dtype. -/
def deq8 (dt : DType) : State :=
  inFlight .dequantQ8 32 .zero (slotAt 0x2000 dt 3 1 1 32) (slotAt 0x3000 .f16 3 1 1 1) .zero (slotAt 0x5000 .f32 2 1 32 0)
    (put 1 0x2000 [0x03, 0xFE] (put 2 0x3000 [0x3800] []))

/-- DQ-3. -/
def deq4 : State :=
  inFlight .dequantQ4 2 .zero (slotAt 0x2000 .u8 3 1 1 1) (slotAt 0x3000 .f16 3 1 1 1) (slotAt 0x3100 .f16 3 1 1 1)
    (slotAt 0x5000 .f32 2 1 2 0) mq4.mem

/-! One step of each command. -/

theorem test_mmtfp_mf1 : outputs (exec .mmtfp mf1) [[0, 0], [0, 1], [1, 0], [1, 1]] =
    some [0x41880000, 0x41B80000, 0x421C0000, 0x42540000] := by decide +kernel
theorem test_mmtfp_inner_mismatch : reportOf (exec .mmtfp mfBad) = some (0x4, 3, 0x0126) := by decide +kernel
theorem test_mmt_q8_signed : outputs (exec .mmtQ8 (mq8 .i8 0x3C00 0xFF 0x3F800000)) [[0, 0]] = some [0xBF800000] := by
  decide +kernel
theorem test_mmt_q8_unsigned : outputs (exec .mmtQ8 (mq8 .u8 0x3C00 0xFF 0x3F800000)) [[0, 0]] = some [0x437F0000] := by
  decide +kernel
theorem test_mmt_q4_mq41 : outputs (exec .mmtQ4 mq4) [[0, 0]] = some [0x40E00000] := by decide +kernel
theorem test_unpack_u1 : outputs (exec .unpackI4 u1) [[0], [1], [2], [3]] = some [0x01, 0x02, 0x03, 0x0F] := by
  decide +kernel
theorem test_unpack_reports_done : reportOf (exec .unpackI4 u1) = some (0x2, 0, 0) := by decide +kernel
/-- `desc S2, 0x1000, NONE, 3, 0, 0, 0` writes DESC 0x30 (30_encoding.md R94, R104). -/
theorem test_desc_none : (scriptDesc 2 0x1000#64 none 3#2 0#32 0#32 0#32)[2]? = some (.wr 32 0x088 0x30#32) := by decide

theorem test_dequant_q8_example : outputs (exec .dequantQ8 (deq8 .i8)) [[0, 0], [0, 1]] = some [0x3FC00000, 0xBF800000] := by
  decide +kernel
theorem test_dequant_q4_dq3 : outputs (exec .dequantQ4 deq4) [[0, 0], [0, 1]] = some [0x00000000, 0x3F800000] := by
  decide +kernel

/-! Values that meet the hypotheses of the obligations, in their order. -/

theorem test_meets_commandWordsDecode : Instr.mmtfp.wellFormed = true := by decide

theorem test_meets_stepRunsDecodedCommand :
    mf1.busy = true ∧ decode mf1.snap.cmd = .command .mmtfp ∧ mf1.events = [] := by decide

theorem test_meets_stepRunsDecodedCommand_event :
    let s := { mf1 with events := [.engine, .host] }
    s.busy = true ∧ decode s.snap.cmd = .command .mmtfp ∧ s.events = .engine :: [.host] := by decide

theorem test_meets_stepRunsHostLine :
    let s := scripted scriptStart
    s.script[s.line]? = some (.wr 32 8 1#32) ∧ s.events = [] ∧ s.busy = false := by decide

theorem test_meets_stepRunsHostLine_event :
    let s := { scripted scriptStart with events := [.host] }
    s.script[s.line]? = some (.wr 32 8 1#32) ∧ s.events = .host :: [] := by decide

/-- OP 0x0 and 0x7, and a reserved bit over the smallest and the largest assigned OP. -/
theorem test_meets_illegalWordEndsInError :
    mf1.busy = true ∧ ¬ (1 ≤ (0x0#32).toNat % 16 ∧ (0x0#32).toNat % 16 ≤ 6) ∧
      ¬ (1 ≤ (0x7#32).toNat % 16 ∧ (0x7#32).toNat % 16 ≤ 6) ∧
      ((1 ≤ (0x11#32).toNat % 16 ∧ (0x11#32).toNat % 16 ≤ 6) ∧ (0x11#32).toNat / 16 ≠ 0) ∧
      ((1 ≤ (0x80000006#32).toNat % 16 ∧ (0x80000006#32).toNat % 16 ≤ 6) ∧ (0x80000006#32).toNat / 16 ≠ 0) := by decide

theorem test_meets_startAcceptedWhenIdle :
    State.reset.busy = false ∧ (5#32).getLsbD 0 = true ∧ (5#32).getLsbD 1 = false := by decide

theorem test_meets_startWhileBusyOverruns :
    mf1.busy = true ∧ (1#32).getLsbD 0 = true ∧ (1#32).getLsbD 1 = false := by decide

theorem test_meets_statusWriteOneToClear : Reg.ctrl ≠ .status ∧ 4 ≤ 4 ∧ 4 ≤ 31 := by decide

theorem test_meets_writtenRegistersReadBack : (4#32).getLsbD 0 = false ∧ (4#32).getLsbD 1 = false := by decide

theorem test_meets_operandRegisterWriteFrame :
    (Reg.slot 0 .desc = .cmd ∨ Reg.slot 0 .desc = .block ∨ ∃ j w, Reg.slot 0 .desc = .slot j w) ∧
      Reg.slot 4 .dim2 ≠ .slot 0 .desc := ⟨.inr (.inr ⟨0, .desc, rfl⟩), by decide⟩

theorem test_meets_readOnlyRegistersIgnoreWrites :
    Reg.errInfo = .id ∨ Reg.errInfo = .version ∨ Reg.errInfo = .errCode ∨ Reg.errInfo = .errInfo ∨ Reg.errInfo = .reserved := by
  decide

theorem test_meets_registerMapIsOneToOne : 0 < 4096 ∧ 4095 < 4096 := by decide

/-- Both ends of each range, the last reserved word of S4 and the first of S0. -/
theorem test_meets_reservedOffsetsAreReserved :
    (0x020 % 4 = 0 ∧ 0x020 ≤ 0x020 ∧ 0x020 ≤ 0x03C) ∧ (0x03C % 4 = 0 ∧ 0x020 ≤ 0x03C ∧ 0x03C ≤ 0x03C) ∧
      (0x0E0 % 4 = 0 ∧ 0x0E0 ≤ 0x0E0 ∧ 0x0E0 ≤ 0xFFC) ∧ (0xFFC % 4 = 0 ∧ 0x0E0 ≤ 0xFFC ∧ 0xFFC ≤ 0xFFC) ∧
      (0x0DC % 4 = 0 ∧ 4 < 5 ∧ 0x0DC = 0x040 + 0x20 * 4 + 0x1C) ∧
      (0x058 % 4 = 0 ∧ 0 < 5 ∧ 0x058 = 0x040 + 0x20 * 0 + 0x18) := by decide

/-- The first and the last register, a narrow access, a misaligned one. -/
theorem test_meets_hostRegisterAccess :
    ((0 < 4096 ∧ 32 = 32 ∧ 0 % 4 = 0) ∧ 4092 < 4096 ∧ 4092 % 4 = 0) ∧
      (16 ≠ 32 ∨ 0 % 4 ≠ 0) ∧ (32 ≠ 32 ∨ 2 % 4 ≠ 0) := by decide

theorem test_meets_runningCommandIgnoresRegisterWrites :
    (Reg.cmd = .cmd ∨ Reg.cmd = .block ∨ ∃ j w, Reg.cmd = .slot j w) ∧ ∃ t, exec .unpackI4 u1 = .next t :=
  ⟨.inl rfl, _, eq_next_after (by decide +kernel)⟩

/-- A write of 1 to the set bit alone, an accepted start, IRQ_EN cleared without an action. -/
theorem test_meets_irqLineIsLevel :
    let s := { State.reset with irqEn := true, error := true }
    ((s.done = true → (4#32).getLsbD 1 = true) ∧ (s.error = true → (4#32).getLsbD 2 = true) ∧ irq s = true) ∧ (State.reset.busy = false ∧ (1#32).getLsbD 0 = true) ∧
      (0#32).getLsbD 2 = false ∧ (0#32).getLsbD 0 = false ∧ (0#32).getLsbD 1 = false := by decide

theorem test_meets_softResetRestoresRegisters :
    (3#32).getLsbD 1 = true ∧ ({ mf1 with events := [.powerOn] } : State).events = .powerOn :: [] := by decide

/-- An idle machine; the first byte, the last byte and the byte after the output region of a command in flight. -/
theorem test_meets_resetAbortsCommandInFlight :
    (State.reset.mem.wf = true ∧ State.reset.busy = false) ∧ mf1.mem.wf = true ∧ mf1.busy = true ∧
      (InRegion mf1.snap.slotO 0x1020 ∧ 0x1020 < 2 ^ 64) ∧ (InRegion mf1.snap.slotO 0x102F ∧ 0x102F < 2 ^ 64) ∧
      ¬ InRegion mf1.snap.slotO 0x1030 := by decide +kernel

theorem test_meets_failedCheckEndsInError :
    check .mmtfp mfBad.snap mfBad.platform = some ⟨.innerDimMismatch, 1#3⟩ := by decide +kernel

theorem test_meets_noCommandRaisesOverflow :
    exec .mmtfp mfBad = .next (after (exec .mmtfp mfBad)) ∧ (after (exec .mmtfp mfBad)).errCode ≠ mfBad.errCode :=
  ⟨eq_next_after (by decide +kernel), by decide +kernel⟩

/-- Rank 2, at the last element of O. -/
theorem test_meets_mmtfpWritesDotProducts :
    mf1.mem.wf = true ∧ mf1.tainted = false ∧ Runs .mmtfp mf1.snap mf1.platform ∧ mf1.snap.slotA.rank = 2#2 ∧
      1 < mf1.snap.slotA.dim0.toNat ∧ 1 < mf1.snap.slotB.dim0.toNat ∧ ¬ InRegion mf1.snap.slotO 0x101F := by decide +kernel

/-- Rank 3, at the last element of O. -/
theorem test_meets_mmtfpWritesDotProducts_batch :
    mf2.mem.wf = true ∧ mf2.tainted = false ∧ Runs .mmtfp mf2.snap mf2.platform ∧ mf2.snap.slotA.rank = 3#2 ∧
      1 < mf2.snap.slotA.dim0.toNat ∧ 0 < mf2.snap.slotA.dim1.toNat ∧ 0 < mf2.snap.slotB.dim0.toNat := by decide +kernel

theorem test_meets_mmtQ8WritesDotProducts :
    let s := mq8 .i8 0x3800 2 0x40400000
    s.mem.wf = true ∧ s.tainted = false ∧ Runs .mmtQ8 s.snap s.platform ∧ s.snap.slotA.rank = 2#2 ∧
      0 < s.snap.slotA.dim0.toNat ∧ 0 < s.snap.slotB.dim0.toNat := by decide +kernel

theorem test_meets_mmtQ8WritesDotProducts_batch :
    mq8Batch.mem.wf = true ∧ mq8Batch.tainted = false ∧ Runs .mmtQ8 mq8Batch.snap mq8Batch.platform ∧
      mq8Batch.snap.slotA.rank = 3#2 ∧ 1 < mq8Batch.snap.slotA.dim0.toNat ∧ 0 < mq8Batch.snap.slotA.dim1.toNat ∧
      0 < mq8Batch.snap.slotB.dim0.toNat := by decide +kernel

theorem test_meets_mmtQ4WritesDotProducts :
    mq4.mem.wf = true ∧ mq4.tainted = false ∧ Runs .mmtQ4 mq4.snap mq4.platform ∧ mq4.snap.slotA.rank = 2#2 ∧
      0 < mq4.snap.slotA.dim0.toNat ∧ 0 < mq4.snap.slotB.dim0.toNat := by decide +kernel

theorem test_meets_mmtQ4WritesDotProducts_batch :
    mq4Batch.mem.wf = true ∧ mq4Batch.tainted = false ∧ Runs .mmtQ4 mq4Batch.snap mq4Batch.platform ∧
      mq4Batch.snap.slotA.rank = 3#2 ∧ 1 < mq4Batch.snap.slotA.dim0.toNat ∧ 0 < mq4Batch.snap.slotA.dim1.toNat ∧
      0 < mq4Batch.snap.slotB.dim0.toNat := by decide +kernel

/-- The last packed byte. -/
theorem test_meets_unpackWritesNibbles :
    u1.mem.wf = true ∧ u1.tainted = false ∧ Runs .unpackI4 u1.snap u1.platform ∧
      validIdx u1.snap.slotB.dims ([] ++ [1]) = true := by decide +kernel

/-- I8, and U8 at the last element. -/
theorem test_meets_dequantQ8WritesWeights :
    ((deq8 .i8).mem.wf = true ∧ (deq8 .i8).tainted = false ∧ Runs .dequantQ8 (deq8 .i8).snap (deq8 .i8).platform) ∧
      (deq8 .u8).mem.wf = true ∧ (deq8 .u8).tainted = false ∧ Runs .dequantQ8 (deq8 .u8).snap (deq8 .u8).platform ∧
      0 < (deq8 .u8).snap.slotB.dim0.toNat ∧ 31 < (deq8 .u8).snap.slotB.dim1.toNat * 32 := by decide +kernel

/-- The high nibble of the last byte. -/
theorem test_meets_dequantQ4WritesWeights :
    deq4.mem.wf = true ∧ deq4.tainted = false ∧ Runs .dequantQ4 deq4.snap deq4.platform ∧
      0 < deq4.snap.slotB.dim0.toNat ∧ 0 < deq4.snap.slotB.dim1.toNat ∧ 1 < deq4.snap.bs := by decide +kernel

theorem test_meets_unpackedBytesBelowSixteen :
    u1.mem.wf = true ∧ u1.tainted = false ∧ Runs .unpackI4 u1.snap u1.platform ∧ InRegion u1.snap.slotO 0x4003 := by
  decide +kernel

theorem test_meets_hazardLeavesOutputUnspecified :
    let s := { mf1 with tainted := true }
    s.mem.wf = true ∧ s.tainted = true ∧ Runs .mmtfp s.snap s.platform ∧ InRegion s.snap.slotO 0x102F ∧
      ¬ InRegion s.snap.slotO 0x1030 := by decide +kernel

/-- The last byte of A is read-sensitive. -/
theorem test_meets_readSensitiveInputIsRefused :
    let s := { mf1 with platform := [⟨0x100F, 1, .readSensitive⟩] }
    check .mmtfp s.snap s.platform = none ∧ (0 : Fin 5) ∈ inputSlots .mmtfp ∧ InRegion (s.snap.slot 0) 0x100F ∧
      (⟨0x100F, 1, .readSensitive⟩ : PlatformRange) ∈ s.platform ∧ 0x100F ≤ 0x100F ∧ 0x100F < 0x100F + 1 := by decide +kernel

/-- A command in flight with the error registers empty and memory canonical meets the invariant. -/
theorem test_mf1_meets_inv : Inv mf1 where
  status := by decide
  report := ⟨.inl (by decide), fun _ => by decide, fun h => absurd h (by decide)⟩
  memory := by decide +kernel
  hazard := fun h => absurd h (by decide)

theorem test_meets_commandInFlightCompletes :
    Inv mf1 ∧ mf1.busy = true ∧ mf1.events = [] ∧
      ∀ i, decode mf1.snap.cmd = .command i → readsSensitive i mf1.snap mf1.platform = false :=
  ⟨test_mf1_meets_inv, rfl, rfl, fun i _ => by cases i <;> decide +kernel⟩

theorem test_meets_commandInFlightCompletes_event :
    let s := { mf1 with events := [.engine, .host] }
    Inv s ∧ s.busy = true ∧ (∃ rest, s.events = .engine :: rest) ∧
      ∀ i, decode s.snap.cmd = .command i → readsSensitive i s.snap s.platform = false :=
  ⟨⟨test_mf1_meets_inv.status, test_mf1_meets_inv.report, test_mf1_meets_inv.memory, test_mf1_meets_inv.hazard⟩, rfl, ⟨_, rfl⟩,
    fun i _ => by cases i <;> decide +kernel⟩

theorem test_meets_completionWinsOverClear :
    let s := { mf1 with events := [.together], script := scriptAck }
    s.events = .together :: [] ∧ s.busy = true ∧ s.script[s.line]? = some (.wr 32 0x00C 0xE#32) ∧
      decode s.snap.cmd = .command .mmtfp ∧ Runs .mmtfp s.snap s.platform := by decide +kernel

theorem test_meets_completionWinsOverClear_error :
    let s := { mfBad with events := [.together], script := scriptAck }
    s.events = .together :: [] ∧ s.busy = true ∧ s.script[s.line]? = some (.wr 32 0x00C 0xE#32) ∧
      decode s.snap.cmd = .command .mmtfp ∧ check .mmtfp s.snap s.platform = some ⟨.innerDimMismatch, 1#3⟩ := by decide +kernel

/-- A word store whose last byte is the output region's first, the last one of the address space, and one past it. -/
theorem test_meets_hostStoreMarksHazard :
    mf1.mem.wf = true ∧ HostInstr.IsStore (.memW32 0x101D#64 7#32) 4 0x101D#64 7 ∧ (0x101D#64).toNat + 4 ≤ 2 ^ 64 ∧
      InRegion mf1.snap.slotO 0x1020 ∧ HostInstr.IsStore (.memW32 0xFFFFFFFFFFFFFFFC#64 7#32) 4 0xFFFFFFFFFFFFFFFC#64 7 ∧
      (0xFFFFFFFFFFFFFFFC#64).toNat + 4 ≤ 2 ^ 64 ∧ 2 ^ 64 < (0xFFFFFFFFFFFFFFFD#64).toNat + 4 :=
  ⟨by decide +kernel, .inl ⟨7#32, rfl, rfl, rfl⟩, by decide, by decide, .inl ⟨7#32, rfl, rfl, rfl⟩, by decide, by decide⟩

/-- The two narrower stores at the end of the address space, the second of a byte, in an idle machine. -/
theorem test_meets_hostStoreMarksHazard_narrow :
    State.reset.mem.wf = true ∧ HostInstr.IsStore (.memW16 0xFFFFFFFFFFFFFFFE#64 7#16) 2 0xFFFFFFFFFFFFFFFE#64 7 ∧
      (0xFFFFFFFFFFFFFFFE#64).toNat + 2 ≤ 2 ^ 64 ∧ 2 ^ 64 < (0xFFFFFFFFFFFFFFFF#64).toNat + 2 ∧
      HostInstr.IsStore (.memW8 0xFFFFFFFFFFFFFFFF#64 7#8) 1 0xFFFFFFFFFFFFFFFF#64 7 ∧
      (0xFFFFFFFFFFFFFFFF#64).toNat + 1 ≤ 2 ^ 64 :=
  ⟨by decide, .inr (.inl ⟨7#16, rfl, rfl, rfl⟩), by decide, by decide, .inr (.inr ⟨7#8, rfl, rfl, rfl⟩), by decide⟩

/-- A byte store into qs of a command in flight marks it; into the same bytes under a word that is no command, it does not. -/
theorem test_byte_store_marks_used_input :
    (after (hostExec (.memW8 0x2001#64 7#8) u1)).tainted = true ∧
      (after (hostExec (.memW8 0x2001#64 7#8) { u1 with snap := { u1.snap with cmd := 0#32 } })).tainted = false := by
  decide +kernel

/-- A load with its last byte in the output region, and the last load of the address space. -/
theorem test_meets_hostLoadDuringCommand :
    ((0x101D#64).toNat + 4 ≤ 2 ^ 64 ∧ rangeSensitive mf1.platform (0x101D#64).toNat 4 = false ∧ mf1.busy = true ∧
        InRegion mf1.snap.slotO ((0x101D#64).toNat + 3) ∧ ¬ InRegion mf1.snap.slotO ((0x101D#64).toNat + 2)) ∧
      (0xFFFFFFFFFFFFFFFC#64).toNat + 4 ≤ 2 ^ 64 ∧
      rangeSensitive mf1.platform (0xFFFFFFFFFFFFFFFC#64).toNat 4 = false := by decide +kernel

/-- A poll of the first register that is left, one of the last offset that is not; a taken branch to the second of three labels,
the first of two that are equal, on the newer of two bindings; one that is not taken. -/
theorem test_meets_scriptControlFlow :
    let s := { scripted [.label 8, .label 7, .label 7] with binds := [(2, 0#32)] ++ (1, 6#32) :: [(1, 0#32)] }
    (0 < 4096 ∧ 0 % 4 = 0 ∧ readReg (regAt 0) s &&& 1#32 = 1#32) ∧
      (4092 < 4096 ∧ 4092 % 4 = 0 ∧ readReg (regAt 4092) s &&& 1#32 ≠ 1#32) ∧
      (s.binds = [(2, 0#32)] ++ (1, 6#32) :: [(1, 0#32)] ∧ ∀ b ∈ [((2 : Nat), (0#32 : Word))], b.1 ≠ 1) ∧
      ((6#32).toNat / 2 ^ 1 % 2 ^ (2 + 1 - 1) = 3 ∧ s.script[1]? = some (.label 7) ∧
        ∀ k, k < 1 → s.script[k]? ≠ some (.label 7)) ∧
      (6#32).toNat / 2 ^ 1 % 2 ^ (2 + 1 - 1) ≠ 2 := by decide

theorem test_meets_memoryAccessIsLittleEndian : mf1.mem.wf = true ∧ 3 < 4 ∧ (0xFFF < 0x1000 ∨ 0x1004 ≤ 0xFFF) := by
  decide +kernel

/-- The first and the last element, the next last index, the last byte, and the flattening of a rank 3 slot. -/
theorem test_meets_elementsTileTheirRegion :
    let t := slotAt 0x1000 .f16 3 2 3 4
    let u := slotAt 0x1000 .f16 2 2 12 0
    validIdx t.dims [0, 0, 0] = true ∧ validIdx t.dims [1, 2, 3] = true ∧ [0, 0, 0] ≠ [1, 2, 3] ∧
      t.addr % t.esize = 0 ∧ InRegion t 0x102F ∧ validIdx t.dims ([1, 2] ++ [2 + 1]) = true ∧ t.rank = 3#2 ∧ u.rank = 2#2 ∧
      u.addr = t.addr ∧ u.dtype = t.dtype ∧ u.dim1.toNat = t.dim1.toNat * t.dim2.toNat ∧
      (slotAt 0x1000 .f16 1 2 0 0).rank = 1#2 ∧ t.dtype = 2#4 ∧ (slotAt 0x1000 .f32 1 2 0 0).dtype = 1#4 ∧
      (slotAt 0x1000 .i8 1 2 0 0).dtype = 3#4 ∧ (slotAt 0x1000 .u8 1 2 0 0).dtype = 4#4 := by decide

/-- A tie: 2^24 + 1 lies midway between 2^24 and 2^24 + 2. -/
theorem test_meets_roundingIsNearestEven :
    Representable (2 ^ 24 + 2) ∧ roundMag (2 ^ 24 + 1) 0 = 2 ^ 24 ∧ (2 ^ 24 + 2 : Nat) ≠ roundMag (2 ^ 24 + 1) 0 ∧
      |((roundMag (2 ^ 24 + 1) 0 : Nat) * 2 ^ 0 : Int) - (2 ^ 24 + 1 : Nat)| =
        |((2 ^ 24 + 2 : Nat) * 2 ^ 0 : Int) - (2 ^ 24 + 1 : Nat)| := by
  refine ⟨⟨2 ^ 23 + 1, 1, by norm_num, by norm_num⟩, by decide +kernel, by decide +kernel, ?_⟩
  rw [show roundMag (2 ^ 24 + 1) 0 = 2 ^ 24 from by decide +kernel]
  norm_num

/-- Two unequal magnitudes; 1 + 1 stays finite and (2^24 - 1) * 2^253 doubled does not, both rounded exactly. -/
theorem test_meets_finiteArithmeticIsRounded :
    1 < 2 ∧ roundMag (1 + 1) 0 = 2 ∧ 2 < 2 ^ 128 * 2 ^ 149 ∧
      2 ^ 128 * 2 ^ 149 ≤ roundMag ((2 ^ 24 - 1) * 2 ^ 253 + (2 ^ 24 - 1) * 2 ^ 253) 0 := by decide +kernel

theorem test_meets_specialValuesOfArithmetic : (1 : Nat) ≠ 0 := by decide

/-- Patterns on both sides of each boundary of the exponent field: the largest subnormal, the smallest and the largest normal,
an infinity, a NaN. -/
theorem test_meets_canonicalBitsRoundTrip :
    (false = decide (2 ^ 31 ≤ (0x007FFFFF#32).toNat) ∧ 0 = (0x007FFFFF#32).toNat / 2 ^ 23 % 256 ∧
        0x7FFFFF = (0x007FFFFF#32).toNat % 2 ^ 23) ∧
      (1 = (0x00800000#32).toNat / 2 ^ 23 % 256 ∧ 254 = (0xFF7FFFFF#32).toNat / 2 ^ 23 % 256) ∧
      (true = decide (2 ^ 31 ≤ (0xFF800000#32).toNat) ∧ 255 = (0xFF800000#32).toNat / 2 ^ 23 % 256 ∧
        0 = (0xFF800000#32).toNat % 2 ^ 23) ∧
      255 = (0x7F800001#32).toNat / 2 ^ 23 % 256 ∧ 1 = (0x7F800001#32).toNat % 2 ^ 23 := by decide

/-- -2.0, the smallest and the largest normal, the largest subnormal, an infinity and a NaN of binary16. -/
theorem test_meets_promotionsAreExact_binary16 :
    (true = decide (2 ^ 15 ≤ (0xC000#16).toNat) ∧ 16 = (0xC000#16).toNat / 2 ^ 10 % 32 ∧ 0 = (0xC000#16).toNat % 2 ^ 10) ∧
      (1 = (0x0400#16).toNat / 2 ^ 10 % 32 ∧ 30 = (0x7BFF#16).toNat / 2 ^ 10 % 32) ∧
      (0 = (0x03FF#16).toNat / 2 ^ 10 % 32 ∧ 0x3FF = (0x03FF#16).toNat % 2 ^ 10) ∧
      (31 = (0x7C00#16).toNat / 2 ^ 10 % 32 ∧ 0 = (0x7C00#16).toNat % 2 ^ 10) ∧
      31 = (0x7E01#16).toNat / 2 ^ 10 % 32 ∧ 0x201 = (0x7E01#16).toNat % 2 ^ 10 := by decide

/-- The ends of the range of quantized values. -/
theorem test_meets_promotionsAreExact : (-128 : Int) ≤ -128 ∧ (-128 : Int) ≤ 255 ∧ (-128 : Int) ≤ 255 ∧ (255 : Int) ≤ 255 := by
  decide

/-- The largest finite binary16, an infinity with a zero and a nonzero value, a NaN. -/
theorem test_meets_scalingIsExact :
    (255 : Int).natAbs ≤ 255 ∧ f16ToF32 0x7BFF#16 = .fin false (2047 * 2 ^ 154) ∧ f16ToF32 0xFC00#16 = .inf true ∧
      (0 : Int).natAbs ≤ 255 ∧ f16ToF32 0x7E01#16 = .nan := by decide +kernel

theorem test_meets_dotProductFromMinusZero : 1 ≤ 1 := by decide

/-- DEQUANT_Q8 into 0x5000, then MMTFP and MMT_Q8 with the same A and O. -/
def thenDense8 : State :=
  { deq8 .i8 with mem := (after (exec .dequantQ8 (deq8 .i8))).mem, snap := ⟨encode .mmtfp, 0#32,
      ⟨slotAt 0x1000 .f32 2 1 32 0, slotAt 0x5000 .f32 2 1 32 0, .zero, .zero, slotAt 0x6000 .f32 2 1 1 0⟩⟩ }

def fused8 : State :=
  { thenDense8 with snap := ⟨encode .mmtQ8, 32#32,
      ⟨slotAt 0x1000 .f32 2 1 32 0, slotAt 0x2000 .i8 3 1 1 32, slotAt 0x3000 .f16 3 1 1 1, .zero,
        slotAt 0x6000 .f32 2 1 1 0⟩⟩ }

theorem test_meets_dequantThenDenseEqualsFused_q8 :
    let s1 := deq8 .i8
    let t1 := after (exec .dequantQ8 (deq8 .i8))
    ((Instr.dequantQ8 = .dequantQ8 ∧ Instr.mmtQ8 = .mmtQ8) ∨
        (Instr.dequantQ8 = .dequantQ4 ∧ Instr.mmtQ8 = .mmtQ4 ∧ fused8.snap.slotM = s1.snap.slotM)) ∧ s1.mem.wf = true ∧ s1.tainted = false ∧ thenDense8.tainted = false ∧ fused8.tainted = false ∧
      Runs .dequantQ8 s1.snap s1.platform ∧ exec .dequantQ8 s1 = .next t1 ∧ thenDense8.mem = t1.mem ∧
      fused8.mem = t1.mem ∧ thenDense8.snap.slotB = s1.snap.slotO ∧ fused8.snap.slotB = s1.snap.slotB ∧
      fused8.snap.slotD = s1.snap.slotD ∧ fused8.snap.slotA = thenDense8.snap.slotA ∧
      fused8.snap.slotO = thenDense8.snap.slotO ∧ Runs .mmtfp thenDense8.snap thenDense8.platform ∧
      Runs .mmtQ8 fused8.snap fused8.platform :=
  ⟨by decide +kernel, by decide +kernel, rfl, rfl, rfl, by decide +kernel, eq_next_after (by decide +kernel), by decide +kernel⟩

/-- DEQUANT_Q4 into 0x5000, then MMTFP and MMT_Q4 with the same A and O. -/
def thenDense4 : State :=
  { deq4 with mem := (after (exec .dequantQ4 deq4)).mem, snap := ⟨encode .mmtfp, 0#32,
      ⟨slotAt 0x1000 .f32 2 1 2 0, slotAt 0x5000 .f32 2 1 2 0, .zero, .zero, slotAt 0x6000 .f32 2 1 1 0⟩⟩ }

def fused4 : State :=
  { thenDense4 with snap := ⟨encode .mmtQ4, 2#32,
      ⟨slotAt 0x1000 .f32 2 1 2 0, slotAt 0x2000 .u8 3 1 1 1, slotAt 0x3000 .f16 3 1 1 1, slotAt 0x3100 .f16 3 1 1 1,
        slotAt 0x6000 .f32 2 1 1 0⟩⟩ }

theorem test_meets_dequantThenDenseEqualsFused_q4 :
    let t1 := after (exec .dequantQ4 deq4)
    ((Instr.dequantQ4 = .dequantQ8 ∧ Instr.mmtQ4 = .mmtQ8) ∨
        (Instr.dequantQ4 = .dequantQ4 ∧ Instr.mmtQ4 = .mmtQ4 ∧ fused4.snap.slotM = deq4.snap.slotM)) ∧ deq4.mem.wf = true ∧ deq4.tainted = false ∧ thenDense4.tainted = false ∧ fused4.tainted = false ∧
      Runs .dequantQ4 deq4.snap deq4.platform ∧ exec .dequantQ4 deq4 = .next t1 ∧ thenDense4.mem = t1.mem ∧
      fused4.mem = t1.mem ∧ thenDense4.snap.slotB = deq4.snap.slotO ∧ fused4.snap.slotB = deq4.snap.slotB ∧
      fused4.snap.slotD = deq4.snap.slotD ∧
      fused4.snap.slotA = thenDense4.snap.slotA ∧ fused4.snap.slotO = thenDense4.snap.slotO ∧
      Runs .mmtfp thenDense4.snap thenDense4.platform ∧ Runs .mmtQ4 fused4.snap fused4.platform :=
  ⟨by decide +kernel, by decide +kernel, rfl, rfl, rfl, by decide +kernel, eq_next_after (by decide +kernel), by decide +kernel⟩

/-- The last slice of MF-2. -/
theorem test_meets_batchSlicesAreIndependentRuns :
    IsMatmul .mmtfp ∧ mf2.mem.wf = true ∧ mf2Slice.mem = mf2.mem ∧ mf2.tainted = false ∧ mf2Slice.tainted = false ∧
      Runs .mmtfp mf2.snap mf2.platform ∧ Runs .mmtfp mf2Slice.snap mf2Slice.platform ∧
      mf2.snap.slotA.rank = 3#2 ∧ mf2Slice.snap.slotA.rank = 2#2 ∧ 1 < mf2.snap.slotA.dim0.toNat ∧
      mf2Slice.snap.slotA.addr = mf2.snap.slotA.addr + 4 * 1 * mf2.snap.slotA.dim1.toNat * mf2.snap.slotA.dim2.toNat ∧
      mf2Slice.snap.slotA.dim0 = mf2.snap.slotA.dim1 ∧ mf2Slice.snap.slotA.dim1 = mf2.snap.slotA.dim2 ∧
      mf2Slice.snap.slotB = mf2.snap.slotB ∧ mf2Slice.snap.slotD = mf2.snap.slotD ∧
      mf2Slice.snap.slotM = mf2.snap.slotM ∧ mf2Slice.snap.block = mf2.snap.block ∧
      0 < mf2.snap.slotA.dim1.toNat ∧ 0 < mf2.snap.slotB.dim0.toNat := ⟨.inl rfl, by decide +kernel⟩

/-- MF-1 with another second row of A: the first row of O is the same. -/
def mf1Other : State := { mf1 with mem := memWrite mf1.mem 0x1008 4 0x41000000 }

theorem test_meets_outputDependsOnItsRowsOnly :
    IsMatmul .mmtfp ∧ mf1.mem.wf = true ∧ mf1Other.mem.wf = true ∧ mf1.tainted = false ∧ mf1Other.tainted = false ∧
      mf1Other.snap = mf1.snap ∧ Runs .mmtfp mf1.snap mf1.platform ∧ Runs .mmtfp mf1Other.snap mf1Other.platform ∧
      validIdx mf1.snap.slotO.dims ([0] ++ [1]) = true ∧
      (∀ k, k < mf1.snap.slotA.last →
        elem mf1Other.mem mf1.snap.slotA ([0] ++ [k]) = elem mf1.mem mf1.snap.slotA ([0] ++ [k])) ∧
      WeightRowsAgree .mmtfp mf1.snap mf1Other.mem mf1.mem 1 :=
  ⟨.inl rfl, by decide +kernel, by decide +kernel, rfl, rfl, rfl, by decide +kernel, by decide +kernel, by decide +kernel,
    by decide +kernel, by unfold WeightRowsAgree; decide +kernel⟩

/-- The stores in the reverse of the row-major order. -/
theorem test_meets_executionOrderIsUnobservable :
    mf1.mem.wf = true ∧ mf1.tainted = false ∧ Runs .mmtfp mf1.snap mf1.platform ∧
      (indices mf1.snap.slotO.dims).reverse.Perm (indices mf1.snap.slotO.dims) :=
  ⟨by decide +kernel, rfl, by decide +kernel, List.reverse_perm _⟩

/-- S2 is not used by MMTFP. -/
theorem test_meets_unusedOperandsHaveNoEffect :
    exec .mmtfp mf1 = .next (after (exec .mmtfp mf1)) ∧ (∀ r ∈ roles .mmtfp, r.slot ≠ 2) ∧ Instr.mmtfp = .mmtfp :=
  ⟨eq_next_after (by decide +kernel), by decide, rfl⟩

/-- Another DIM2 in A of MF-1, whose rank is 2. -/
theorem test_meets_unusedOperandsHaveNoEffect_dim :
    exec .mmtfp mf1 = .next (after (exec .mmtfp mf1)) ∧
      (slotAt 0x1000 .f32 2 2 2 9).SameTensor (mf1.snap.slot 0) ∧ slotAt 0x1000 .f32 2 2 2 9 ≠ mf1.snap.slot 0 :=
  ⟨eq_next_after (by decide +kernel), by unfold Slot.SameTensor; decide, by decide⟩

theorem test_meets_stepKeepsInvariant : Inv mf1 ∧ step mf1 = .next (after (step mf1)) :=
  ⟨test_mf1_meets_inv, eq_next_after (by decide +kernel)⟩

/-- The Host alone, by its event, and together with the Engine. -/
theorem test_host_moves :
    HostMoves (scripted scriptAck) ∧ HostMoves { mf1 with events := [.host] } ∧
      HostMoves { mf1 with events := [.together, .host] } :=
  ⟨.inl ⟨rfl, rfl⟩, .inr ⟨_, .inl rfl⟩, .inr ⟨_, .inr rfl⟩⟩

/-- A byte of the output region that the command's step changes. -/
theorem test_meets_stepChangesOnlyOutputAndHostBytes :
    step mf1 = .next (after (step mf1)) ∧ (after (step mf1)).mem.read 0x1023 ≠ mf1.mem.read 0x1023 :=
  ⟨eq_next_after (by decide +kernel), by decide +kernel⟩

/-- A byte that a Host line changes. -/
theorem test_meets_stepChangesOnlyOutputAndHostBytes_host :
    let s := scripted [.memW8 0x50#64 1#8]
    step s = .next (after (step s)) ∧ (after (step s)).mem.read 0x50 ≠ s.mem.read 0x50 :=
  ⟨eq_next_after (by decide +kernel), by decide +kernel⟩

theorem test_meets_snapshotAndAdmitFixedInFlight :
    let s := { mf1 with events := [.host], script := scriptStart }
    s.busy = true ∧ step s = .next (after (step s)) ∧ (after (step s)).busy = true :=
  ⟨rfl, eq_next_after (by decide +kernel), by decide +kernel⟩

theorem test_meets_commandEndsByCompletionOrReset :
    mf1.busy = true ∧ step mf1 = .next (after (step mf1)) ∧ (after (step mf1)).busy = false :=
  ⟨rfl, eq_next_after (by decide +kernel), by decide +kernel⟩

theorem test_meets_commandEndsByCompletionOrReset_powerOn :
    let s := { mf1 with events := [.powerOn] }
    s.busy = true ∧ step s = .next (after (step s)) ∧ (after (step s)).busy = false := ⟨rfl, rfl, rfl⟩

theorem test_meets_commandEndsByCompletionOrReset_softReset :
    let s := { mf1 with events := [.host], script := scriptSreset }
    s.busy = true ∧ step s = .next (after (step s)) ∧ (after (step s)).busy = false := ⟨rfl, rfl, rfl⟩

end Sys2Proof.Tests
end

section
/-! Which offsets are reserved, and what register reads and writes and the Host's accesses do (10_state.md R23 to R38). -/

namespace Sys2Proof.Machine

/-! The register map (10_state.md R23, R32, R37). -/

theorem slotOfNat_eq_none {n : Nat} (h : 5 ≤ n) : slotOfNat n = none := by
  unfold slotOfNat
  split
  case h_6 => rfl
  all_goals omega

theorem slotWordAt_eq_none {n : Nat} (h : 0x18 ≤ n) : slotWordAt n = none := by
  unfold slotWordAt
  split
  case h_7 => rfl
  all_goals omega

theorem slotRegAt_beyond_slots {off : Nat} (h : 5 * 0x20 ≤ off) : slotRegAt off = .reserved := by
  have hn : slotOfNat (off / 0x20) = none := slotOfNat_eq_none (by omega)
  simp [slotRegAt, hn]

theorem slotRegAt_beyond_words {off : Nat} (h : 0x18 ≤ off % 0x20) : slotRegAt off = .reserved := by
  simp [slotRegAt, slotWordAt_eq_none h]

theorem regAt_above_block {off : Nat} (h : 0x020 ≤ off) :
    regAt off = if off < 0x040 then .reserved else slotRegAt (off - 0x040) := by
  unfold regAt
  split
  case h_9 => rfl
  all_goals omega

theorem regAt_below_slots {off : Nat} (h : 0x020 ≤ off) (h' : off < 0x040) : regAt off = .reserved := by
  rw [regAt_above_block h, if_pos h']

theorem regAt_from_slots {off : Nat} (h : 0x040 ≤ off) : regAt off = slotRegAt (off - 0x040) := by
  rw [regAt_above_block (by omega), if_neg (by omega)]

/-! Register reads and writes (10_state.md R24 to R29, R37). -/

@[simp] theorem readReg_id (s : State) : readReg .id s = 0x51474531#32 := rfl
@[simp] theorem readReg_version (s : State) : readReg .version s = 0x00000001#32 := rfl
@[simp] theorem readReg_reserved (s : State) : readReg .reserved s = 0#32 := rfl

theorem writeReg_of_readOnly {r : Reg} (v : Word) (s : State)
    (h : r = .id ∨ r = .version ∨ r = .errCode ∨ r = .errInfo ∨ r = .reserved) : writeReg r v s = s := by
  rcases h with rfl | rfl | rfl | rfl | rfl <;> rfl

@[simp] theorem writeReg_reserved (v : Word) (s : State) : writeReg .reserved v s = s :=
  writeReg_of_readOnly v s (by simp)

@[simp] theorem writeReg_status (v : Word) (s : State) : writeReg .status v s = writeStatus v s := rfl
@[simp] theorem writeReg_ctrl (v : Word) (s : State) : writeReg .ctrl v s = writeCtrl v s := rfl

/-! The Host's register accesses (10_state.md R38, 30_encoding.md R103). -/

theorem accessRefusal_eq_none_iff {width off : Nat} :
    accessRefusal width off = none ↔ off < 4096 ∧ width = 32 ∧ off % 4 = 0 := by
  unfold accessRefusal Config.registerBlockBytes
  split
  · exact iff_of_false nofun (by omega)
  · split
    · exact iff_of_false nofun (by omega)
    · split
      · exact iff_of_false nofun (by omega)
      · exact iff_of_true rfl (by omega)

theorem withReg_of_aligned {off : Nat} (h : off < 4096) (h4 : off % 4 = 0) (k : Reg → Outcome) :
    withReg 32 off k = k (regAt off) := by
  have hn : accessRefusal 32 off = none := accessRefusal_eq_none_iff.mpr ⟨h, rfl, h4⟩
  simp [withReg, hn]

theorem hostExec_wr_of_aligned {off : Nat} (h : off < 4096) (h4 : off % 4 = 0) (v : Word) (s : State) :
    hostExec (.wr 32 off v) s = .next (nextLine (writeReg (regAt off) v s)) :=
  withReg_of_aligned h h4 fun r => .next (nextLine (writeReg r v s))

theorem hostExec_rd_of_aligned {off : Nat} (h : off < 4096) (h4 : off % 4 = 0) (name : Nat) (s : State) :
    hostExec (.rd 32 off name) s = .next (nextLine (bindName name (readReg (regAt off) s) s)) :=
  withReg_of_aligned h h4 fun r => .next (nextLine (bindName name (readReg r s) s))

/-- Settles O14: no match arm of the map takes such an offset, and a reserved register reads 0 and ignores writes. -/
theorem reservedOffsetsAreReserved : Obligations.ReservedOffsetsAreReserved := by
  unfold Obligations.ReservedOffsetsAreReserved
  intro off h4 hoff
  have hres : regAt off = .reserved := by
    obtain ⟨hlo, hhi⟩ | ⟨hlo, -⟩ | ⟨j, -, hj⟩ := hoff
    · exact regAt_below_slots hlo (by omega)
    · rw [regAt_from_slots (by omega)]
      exact slotRegAt_beyond_slots (by omega)
    · rw [regAt_from_slots (by omega)]
      exact slotRegAt_beyond_words (by omega)
  have hlt : off < 4096 := by omega
  refine ⟨hres, fun s v name => ?_⟩
  rw [hostExec_wr_of_aligned hlt h4, hostExec_rd_of_aligned hlt h4, hres, writeReg_reserved]
  exact ⟨readReg_reserved s, rfl, rfl, rfl⟩

/-- Settles O12: the read-only and reserved registers have no write effect and the constants are fixed. -/
theorem readOnlyRegistersIgnoreWrites : Obligations.ReadOnlyRegistersIgnoreWrites := by
  unfold Obligations.ReadOnlyRegistersIgnoreWrites
  intro s v
  exact ⟨fun _ hr => writeReg_of_readOnly v s hr, readReg_id s, readReg_version s, readReg_reserved s⟩

end Sys2Proof.Machine
end

section
/-! What a CTRL write does, and the level of the line `irq` (10_state.md R26, R42, 60_exceptions.md R171, R172, R180). -/

namespace Sys2Proof.Machine

/-! A Host write of CTRL, case by case (10_state.md R26, 70_reset_and_hazards.md R209). -/

theorem writeCtrl_softReset {v : Word} (s : State) (h1 : v.getLsbD 1 = true) : writeCtrl v s = resetEngine s := by
  simp only [writeCtrl, h1, if_true]

theorem writeCtrl_start_idle {v : Word} {s : State} (h1 : v.getLsbD 1 = false) (h0 : v.getLsbD 0 = true)
    (hb : s.busy = false) : writeCtrl v s = accept { s with irqEn := v.getLsbD 2 } := by
  simp only [writeCtrl, requestStart, h1, h0, hb, if_true, if_false, Bool.false_eq_true]

theorem writeCtrl_start_busy {v : Word} {s : State} (h1 : v.getLsbD 1 = false) (h0 : v.getLsbD 0 = true)
    (hb : s.busy = true) : writeCtrl v s = { s with overrun := true, irqEn := v.getLsbD 2 } := by
  simp only [writeCtrl, requestStart, h1, h0, hb, if_true, if_false, Bool.false_eq_true]

theorem writeCtrl_no_request {v : Word} (s : State) (h1 : v.getLsbD 1 = false) (h0 : v.getLsbD 0 = false) :
    writeCtrl v s = { s with irqEn := v.getLsbD 2 } := by
  simp only [writeCtrl, h1, h0, if_false, Bool.false_eq_true]

theorem writeCtrl_irqEn (v : Word) (s : State) : (writeCtrl v s).irqEn = (!v.getLsbD 1 && v.getLsbD 2) := by
  cases h1 : v.getLsbD 1 with
  | true => rw [writeCtrl_softReset s h1]; rfl
  | false =>
    cases h0 : v.getLsbD 0 with
    | false => rw [writeCtrl_no_request s h1 h0]; rfl
    | true =>
      cases hb : s.busy with
      | true => rw [writeCtrl_start_busy h1 h0 hb]; rfl
      | false => rw [writeCtrl_start_idle h1 h0 hb]; rfl

/-! The output line (10_state.md R42). -/

theorem irq_eq_true_iff (s : State) : irq s = true ↔ s.irqEn = true ∧ (s.done = true ∨ s.error = true) := by
  simp [irq]

theorem irq_of_masked {s : State} (h : s.irqEn = false) : irq s = false := by simp [irq, h]

theorem irq_of_flags_clear {s : State} (hd : s.done = false) (he : s.error = false) : irq s = false := by
  simp [irq, hd, he]

theorem irq_resetEngine (s : State) : irq (resetEngine s) = false := irq_of_masked (resetEngine_irqEn s)

/-- A STATUS write with a 1 at each set one of DONE and ERROR leaves both clear (10_state.md R27). -/
theorem irq_writeStatus {v : Word} {s : State} (hd : s.done = true → v.getLsbD 1 = true)
    (he : s.error = true → v.getLsbD 2 = true) : irq (writeStatus v s) = false := by
  apply irq_of_flags_clear
  · rw [writeStatus_done]
    cases h : s.done with
    | false => rfl
    | true => rw [hd h]; rfl
  · rw [writeStatus_error]
    cases h : s.error with
    | false => rfl
    | true => rw [he h]; rfl

/-- START while idle: the accepted start clears DONE and ERROR, and SOFT_RESET, which wins over it, does so too. -/
theorem irq_writeCtrl_start_idle {v : Word} {s : State} (hb : s.busy = false) (h0 : v.getLsbD 0 = true) :
    irq (writeCtrl v s) = false := by
  cases h1 : v.getLsbD 1 with
  | true => rw [writeCtrl_softReset s h1]; exact irq_resetEngine s
  | false =>
    rw [writeCtrl_start_idle h1 h0 hb]
    exact irq_of_flags_clear (accept_done _) (accept_error _)

theorem irq_writeCtrl_masked {v : Word} (s : State) (h2 : v.getLsbD 2 = false) : irq (writeCtrl v s) = false :=
  irq_of_masked (by rw [writeCtrl_irqEn, h2, Bool.and_false])

/-- Settles O17: `irq` reads IRQ_EN, DONE and ERROR alone, and each way to clear it makes IRQ_EN 0 or both flags 0. -/
theorem irqLineIsLevel : Obligations.IrqLineIsLevel := by
  unfold Obligations.IrqLineIsLevel
  intro s v b
  refine ⟨irq_eq_true_iff s, rfl, ?_, ?_, ?_, ?_, irq_resetEngine s⟩
  · exact irq_writeStatus
  · exact irq_writeCtrl_start_idle
  · exact irq_writeCtrl_masked s
  · intro _ h0 h1
    rw [writeReg_ctrl, writeCtrl_no_request s h1 h0]
    exact ⟨rfl, rfl⟩

end Sys2Proof.Machine
end

section
/-! The order of the output stores is unobservable: stores to different elements commute, and no store changes a value still to be
computed (20_memory.md R63, R69, R76). -/

namespace Sys2Proof.Machine

theorem not_inRegion_iff {t : Slot} {a : Nat} : ¬ InRegion t a ↔ a < t.addr ∨ t.addr + t.bytes ≤ a := by
  unfold InRegion
  omega

theorem memWrite_read_inside {m : Memory} (hm : m.wf = true) (a n v : Nat) {c : Nat} (h : a ≤ c) (h' : c < a + n) :
    (memWrite m a n v).read c = BitVec.ofNat 8 (v / 256 ^ (c - a)) := by
  have := memWrite_read_byte hm a n v (i := c - a) (by omega)
  rwa [Nat.add_sub_cancel' h] at this

/-- Wide writes to ranges that share no byte commute. -/
theorem memWrite_comm {m : Memory} (hm : m.wf = true) {a n b k : Nat} (v w : Nat) (hd : a + n ≤ b ∨ b + k ≤ a) :
    memWrite (memWrite m a n v) b k w = memWrite (memWrite m b k w) a n v := by
  have ha := memWrite_wf hm a n v
  have hb := memWrite_wf hm b k w
  refine Memory.ext_of_read (memWrite_wf ha b k w) (memWrite_wf hb a n v) fun c => ?_
  by_cases hca : a ≤ c ∧ c < a + n
  · obtain ⟨h1, h2⟩ := hca
    rw [memWrite_read_other _ _ _ _ (by omega), memWrite_read_inside hm _ _ _ h1 h2, memWrite_read_inside hb _ _ _ h1 h2]
  · rw [memWrite_read_other _ a n v (by omega)]
    by_cases hcb : b ≤ c ∧ c < b + k
    · obtain ⟨h1, h2⟩ := hcb
      rw [memWrite_read_inside ha _ _ _ h1 h2, memWrite_read_inside hm _ _ _ h1 h2]
    · rw [memWrite_read_other _ b k w (by omega), memWrite_read_other _ b k w (by omega),
        memWrite_read_other _ a n v (by omega)]

/-- Stores to different elements of a slot commute (20_memory.md R63, R64). -/
theorem store_comm {m : Memory} (hm : m.wf = true) (t : Slot) {i j : List Nat} (hi : validIdx t.dims i = true)
    (hj : validIdx t.dims j = true) (hne : i ≠ j) (v w : Nat) :
    store (store m t i v) t j w = store (store m t j w) t i v :=
  memWrite_comm hm v w (t.ea_disjoint hi hj hne)

/-- Stores of fixed values to the elements of a slot leave the same memory in every order. -/
theorem foldl_store_perm (t : Slot) (value : List Nat → Nat) {l l' : List (List Nat)} (hp : l.Perm l')
    (hl : ∀ idx ∈ l, validIdx t.dims idx = true) {m : Memory} (hm : m.wf = true) :
    l.foldl (fun m' idx => store m' t idx (value idx)) m = l'.foldl (fun m' idx => store m' t idx (value idx)) m := by
  induction hp generalizing m with
  | nil => rfl
  | cons x _ ih => exact ih (fun idx h => hl idx (List.mem_cons_of_mem x h)) (store_wf hm t x (value x))
  | swap x y l =>
    rcases eq_or_ne y x with rfl | hne
    · rfl
    · have hcomm := store_comm hm t (hl y (by simp)) (hl x (by simp)) hne (value y) (value x)
      simp only [List.foldl_cons, hcomm]
  | trans h1 _ ih1 ih2 => exact (ih1 hl hm).trans (ih2 (fun idx h => hl idx (h1.mem_iff.mpr h)) hm)

/-- Each value read on the way is the one the start memory gives: the stores before it stay in the output region, which shares no
byte with an input region (60_exceptions.md R176, check 0x50). -/
theorem executeInOrder_eq_foldl {i : Instr} {c : Snapshot} {p : Platform} (h : check i c p = none) {order : List (List Nat)}
    (hv : ∀ idx ∈ order, validIdx c.slotO.dims idx = true) {start m : Memory}
    (hm : ∀ a, ¬ InRegion c.slotO a → m.read a = start.read a) :
    executeInOrder i c order m = order.foldl (fun m' idx => store m' c.slotO idx (outputValue i c start idx)) m := by
  induction order generalizing m with
  | nil => rfl
  | cons idx order ih =>
    have hidx := hv idx (by simp)
    have hval : outputValue i c m idx = outputValue i c start idx := outputValue_congr h (inputsAgree_of_output h hm) hidx
    have hstore : ∀ a, ¬ InRegion c.slotO a →
        (store m c.slotO idx (outputValue i c start idx)).read a = start.read a := by
      intro a ha
      obtain ⟨hlo, hhi⟩ := c.slotO.ea_in_region hidx
      have hout := not_inRegion_iff.mp ha
      rw [store_read_other _ _ _ _ (by omega), hm a ha]
    have hrest := ih (fun j hj => hv j (List.mem_cons_of_mem idx hj)) hstore
    simpa only [executeInOrder, List.foldl_cons, hval] using hrest

/-- Settles O54: the values do not depend on the order, and the stores commute. -/
theorem executionOrderIsUnobservable : Obligations.ExecutionOrderIsUnobservable := by
  unfold Obligations.ExecutionOrderIsUnobservable
  intro i s order hwf htaint hruns hperm
  have hvalid : ∀ idx ∈ order, validIdx s.snap.slotO.dims idx = true := fun idx h => mem_indices.mp (hperm.mem_iff.mp h)
  refine ⟨_, exec_of_runs hruns, ?_⟩
  rw [finish_mem, execute_of_untainted htaint, executeInOrder_eq_foldl hruns.1 hvalid fun _ _ => rfl]
  exact (foldl_store_perm s.snap.slotO _ hperm hvalid hwf).symm

end Sys2Proof.Machine
end

section
/-! Which data bytes a step can change, agent by agent (20_memory.md R70, R83, 30_encoding.md R103). -/

namespace Sys2Proof.Machine

/-- A register write resets the engine, or leaves data memory and a command in flight alone (10_state.md R26 to R39). -/
theorem writeReg_cases (r : Reg) (v : Word) (s : State) :
    (r = .ctrl ∧ v.getLsbD 1 = true ∧ writeReg r v s = resetEngine s) ∨
      ((writeReg r v s).mem = s.mem ∧
        (s.busy = true → (writeReg r v s).busy = true ∧ (writeReg r v s).snap = s.snap)) := by
  cases r
  case ctrl =>
    rw [writeReg_ctrl]
    cases h1 : v.getLsbD 1 with
    | true => exact .inl ⟨rfl, rfl, writeCtrl_softReset s h1⟩
    | false =>
      right
      cases h0 : v.getLsbD 0 with
      | false => rw [writeCtrl_no_request s h1 h0]; exact ⟨rfl, fun hb => ⟨hb, rfl⟩⟩
      | true =>
        cases hb : s.busy with
        | true => rw [writeCtrl_start_busy h1 h0 hb]; exact ⟨rfl, fun _ => ⟨hb, rfl⟩⟩
        | false => rw [writeCtrl_start_idle h1 h0 hb]; exact ⟨rfl, nofun⟩
  all_goals exact .inr ⟨rfl, fun hb => ⟨hb, rfl⟩⟩

/-- A reset changes only bytes of the output region of the command it aborts (70_reset_and_hazards.md R202). -/
theorem resetEngine_changes {s : State} {a : Nat} (hne : (resetEngine s).mem.read a ≠ s.mem.read a) :
    s.busy = true ∧ InRegion s.snap.slotO a := by
  constructor
  · by_contra hb
    exact hne (resetEngine_read_outside s (.inl (by simpa using hb)))
  · by_contra ha
    exact hne (resetEngine_read_outside s (.inr (not_inRegion_iff.mp ha)))

/-- The Engine changes only bytes of the output region of the command in flight (20_memory.md R70). -/
theorem engineStep_changes {s t : State} {a : Nat} (e : engineStep s = .next t) (hne : t.mem.read a ≠ s.mem.read a) :
    s.busy = true ∧ InRegion s.snap.slotO a := by
  rcases engineStep_cases e with ⟨-, rfl⟩ | ⟨-, f, -, rfl⟩ | ⟨hb, i, -, -, rfl⟩
  · exact absurd rfl hne
  · exact absurd rfl hne
  · refine ⟨hb, ?_⟩
    by_contra ha
    exact hne (execute_read_outside _ s (not_inRegion_iff.mp ha))

/-- The Host changes only bytes that its line stores to, and by SOFT_RESET those of the command it aborts. -/
theorem hostStep_changes {s t : State} {a : Nat} (e : hostStep s = .next t) (hne : t.mem.read a ≠ s.mem.read a) :
    (s.busy = true ∧ InRegion s.snap.slotO a) ∨ ∃ h, s.script[s.line]? = some h ∧ h.stores a := by
  rcases hostStep_cases e with rfl | ⟨h, hline, e⟩
  · exact absurd rfl hne
  · rcases hostExec_cases e with ⟨off, v, -, rfl⟩ | ⟨n, b, v, hstores, -, rfl⟩ | ⟨l, bs, d, rfl⟩
    · rw [nextLine_mem] at hne
      rcases writeReg_cases (regAt off) v s with ⟨-, -, hreset⟩ | ⟨hmem, -⟩
      · rw [hreset] at hne
        exact .inl (resetEngine_changes hne)
      · exact absurd (by rw [hmem]) hne
    · refine .inr ⟨h, hline, (hstores a).mpr ?_⟩
      by_contra ha
      exact hne (memWrite_read_other s.mem b n v (by omega))
    · exact absurd rfl hne

/-- A command that is still in flight after the Host's step is the one that was in flight before it (10_state.md R40). -/
theorem hostStep_snap {s t : State} (e : hostStep s = .next t) (hs : s.busy = true) (ht : t.busy = true) :
    t.snap = s.snap := by
  rcases hostStep_cases e with rfl | ⟨h, -, e⟩
  · rfl
  · rcases hostExec_cases e with ⟨off, v, -, rfl⟩ | ⟨n, b, v, -, -, rfl⟩ | ⟨l, bs, d, rfl⟩
    · rw [nextLine_busy] at ht
      rcases writeReg_cases (regAt off) v s with ⟨-, -, hreset⟩ | ⟨-, hkeep⟩
      · rw [hreset, resetEngine_busy] at ht
        cases ht
      · exact (hkeep hs).2
    · rfl
    · rfl

/-- Settles O58: by the agents that move in the step; when both move, the Engine completes the command that the Host's line left
in flight. -/
theorem stepChangesOnlyOutputAndHostBytes : Obligations.StepChangesOnlyOutputAndHostBytes := by
  unfold Obligations.StepChangesOnlyOutputAndHostBytes
  intro s t a e hne
  have host : ∀ {u : State}, HostMoves s → hostStep { s with events := s.events.tail } = .next u →
      u.mem.read a ≠ s.mem.read a →
      (s.busy = true ∧ InRegion s.snap.slotO a) ∨ (HostMoves s ∧ ∃ h, s.script[s.line]? = some h ∧ h.stores a) :=
    fun hmoves eu hu => (hostStep_changes eu hu).imp_right fun h => ⟨hmoves, h⟩
  rcases step_cases e with ⟨hmoves, et⟩ | et | ⟨hmoves, u, eu, ⟨hb, et⟩ | ⟨-, rfl⟩⟩ | ⟨-, rfl⟩ | ⟨p, -, rfl⟩
  · exact host hmoves et hne
  · exact .inl (engineStep_changes (s := { s with events := s.events.tail }) et hne)
  · by_cases hu : u.mem.read a = s.mem.read a
    · obtain ⟨hub, hin⟩ := engineStep_changes et (hu ▸ hne)
      rw [hostStep_snap eu hb hub] at hin
      exact .inl ⟨hb, hin⟩
    · exact host hmoves eu hu
  · exact host hmoves eu hne
  · exact .inl (resetEngine_changes (s := { s with events := s.events.tail }) hne)
  · exact absurd rfl hne

end Sys2Proof.Machine
end

section
/-! The decoder's answers as conditions on the word (30_encoding.md R96, R97, R101). -/

namespace Sys2Proof

/-- The reserved values of OP as a condition on the word (30_encoding.md R91, R96). -/
theorem instrOfOp_fieldOp_eq_none_iff {w : Word} :
    instrOfOp (fieldOp w) = none ↔ ¬ (1 ≤ w.toNat % 16 ∧ w.toNat % 16 ≤ 6) := by
  rw [instrOfOp_eq_none, fieldOp_toNat]

/-- A word is OP and RSVD, and so is a command word (30_encoding.md R91, R102). -/
theorem eq_encode_iff {w : Word} {i : Instr} : w = encode i ↔ instrOfOp (fieldOp w) = some i ∧ fieldRsvd w = 0#28 := by
  have := (opcode i).isLt
  rw [instrOfOp_eq_some, fieldRsvd_eq_zero, ← BitVec.toNat_inj, ← BitVec.toNat_inj, encode_toNat, fieldOp_toNat]
  omega

theorem decode_eq_opReserved_iff {w : Word} : decode w = .illegal .opReserved ↔ instrOfOp (fieldOp w) = none := by
  obtain ⟨hd, ho⟩ | ⟨hd, ⟨i, ho⟩, -⟩ | ⟨i, hd, ho, -⟩ := decode_cases w <;> simp [hd, ho]

theorem decode_eq_rsvdBits_iff {w : Word} :
    decode w = .illegal .rsvdBits ↔ instrOfOp (fieldOp w) ≠ none ∧ fieldRsvd w ≠ 0#28 := by
  obtain ⟨hd, ho⟩ | ⟨hd, ⟨i, ho⟩, hr⟩ | ⟨i, hd, ho, hr⟩ := decode_cases w
  · simp [hd, ho]
  · simp [hd, ho, hr]
  · simp [hd, hr]

theorem decode_eq_command_iff {w : Word} {i : Instr} :
    decode w = .command i ↔ instrOfOp (fieldOp w) = some i ∧ fieldRsvd w = 0#28 := by
  obtain ⟨hd, ho⟩ | ⟨hd, -, hr⟩ | ⟨k, hd, ho, hr⟩ := decode_cases w
  · simp [hd, ho]
  · simp [hd, hr]
  · simp [hd, ho, hr]

/-- Settles O2: each answer of the decoder is a condition on OP and RSVD, and these are the word's two parts. -/
theorem decodeClassifiesEveryWord : Obligations.DecodeClassifiesEveryWord := by
  unfold Obligations.DecodeClassifiesEveryWord
  intro w
  refine ⟨decode_eq_opReserved_iff.trans instrOfOp_fieldOp_eq_none_iff, ?_,
    fun _ => decode_eq_command_iff.trans eq_encode_iff.symm⟩
  rw [decode_eq_rsvdBits_iff, Ne, Ne, instrOfOp_fieldOp_eq_none_iff, not_not, fieldRsvd_eq_zero]

end Sys2Proof
end

section
/-! A command does the same under every snapshot that names the same operands (10_state.md R33, 30_encoding.md R95, R99). -/

namespace Sys2Proof.Machine

theorem Slot.SameTensor.refl (t : Slot) : t.SameTensor t := ⟨rfl, rfl, rfl, rfl, rfl⟩

/-- A command leaves its snapshot alone (10_state.md R40). -/
theorem exec_snap {i : Instr} {s t : State} (e : exec i s = .next t) : t.snap = s.snap := by
  rcases exec_cases i s with ⟨f, -, h⟩ | ⟨-, -, h⟩ | ⟨-, h⟩ <;> cases h.symm.trans e
  · exact raise_snap f s
  · rw [finish_snap, execute_snap]

/-- Execute stores the same values, or spoils the same bytes, under a snapshot that names the same operands. -/
theorem execute_sameOperands {i : Instr} {s : State} {d : Snapshot} (h : SameOperands i d s.snap) :
    execute (outputValue i) { s with snap := d } = { execute (outputValue i) s with snap := d } := by
  rcases Bool.eq_false_or_eq_true s.tainted with ht | ht
  · rw [execute_of_tainted ht, execute_of_tainted (s := { s with snap := d }) ht]
    simp only [h.slotO.addr_eq, h.slotO.bytes_eq]
  · rw [execute_of_untainted ht, execute_of_untainted (s := { s with snap := d }) ht]
    simp only [outputValue_sameOperands h, h.slotO.storeAll_eq]

/-- A command answers the same under a snapshot that names the same operands (30_encoding.md R99). -/
theorem exec_sameOperands {i : Instr} {s t : State} {d : Snapshot} (h : SameOperands i d s.snap) (e : exec i s = .next t) :
    exec i { s with snap := d } = .next { t with snap := d } := by
  have hc := check_congr h s.platform
  have hr := readsSensitive_congr h s.platform
  rcases exec_cases i s with ⟨f, hf, he⟩ | ⟨-, -, he⟩ | ⟨⟨hnone, hsens⟩, he⟩ <;> cases he.symm.trans e
  · rw [exec_of_check_some (s := { s with snap := d }) (hc.trans hf)]
    rfl
  · rw [exec_of_runs (s := { s with snap := d }) ⟨hc.trans hnone, hr.trans hsens⟩, execute_sameOperands h]
    rfl

/-- A slot that is not used, or that stays the same tensor, is no operand (10_state.md R33, 30_encoding.md R99). -/
theorem sameOperands_set {i : Instr} {c : Snapshot} {j : Fin 5} {u : Slot}
    (h : (∀ r ∈ roles i, r.slot ≠ j) ∨ u.SameTensor (c.slot j)) :
    SameOperands i { c with slots := c.slots.set j u } c := by
  refine ⟨fun r hr => ?_, fun _ => rfl⟩
  by_cases hj : r.slot = j
  · rw [hj, Snapshot.slot, Slots.get_set_same]
    exact h.resolve_left fun hunused => hunused r hr hj
  · rw [Snapshot.slot, Slots.get_set_other _ _ hj]
    exact .refl _

/-- BLOCK is no operand of MMTFP (30_encoding.md R95). -/
theorem sameOperands_block (c : Snapshot) (bs : Word) : SameOperands .mmtfp { c with block := bs } c :=
  ⟨fun r _ => .refl (c.slot r.slot), fun hne => absurd rfl hne⟩

/-- Settles O55: such a change of the snapshot keeps the operands, and the command keeps the changed snapshot. -/
theorem unusedOperandsHaveNoEffect : Obligations.UnusedOperandsHaveNoEffect := by
  unfold Obligations.UnusedOperandsHaveNoEffect
  intro i s t j u bs e
  rw [exec_snap e]
  refine ⟨fun h => exec_sameOperands (sameOperands_set h) e, ?_⟩
  rintro rfl
  exact exec_sameOperands (sameOperands_block s.snap bs) e

end Sys2Proof.Machine
end

section
/-! Products and sums of finite operands are the exact results rounded to nearest even (40_numerics.md R114 to R117). -/

namespace Sys2Proof.Machine

/-! Rounding to nearest even (40_numerics.md R114, R117). -/

/-- The significand that rounding keeps, after the decision to round up. -/
def roundedKept (n p : Nat) : Nat :=
  if p < 2 * (n % p) ∨ (2 * (n % p) = p ∧ n / p % 2 = 1) then n / p + 1 else n / p

theorem roundMag_eq_roundedKept (n d : Nat) :
    roundMag n d = roundedKept n (2 ^ max (n.log2 - 23) d) * 2 ^ (max (n.log2 - 23) d - d) := by
  unfold roundMag roundedKept
  simp only [Bool.or_eq_true, Bool.and_eq_true, decide_eq_true_eq]

/-- No representable magnitude lies strictly between two neighbouring multiples of the last kept bit. -/
theorem representable_not_between {m : Nat} (hm : Representable m) (n d : Nat) :
    m * 2 ^ d ≤ n / 2 ^ max (n.log2 - 23) d * 2 ^ max (n.log2 - 23) d ∨
      (n / 2 ^ max (n.log2 - 23) d + 1) * 2 ^ max (n.log2 - 23) d ≤ m * 2 ^ d := by
  obtain ⟨k, t, hk, rfl⟩ := hm
  generalize hD : max (n.log2 - 23) d = D
  rw [Nat.mul_assoc, ← Nat.pow_add]
  rcases Nat.lt_or_ge (t + d) D with hlt | hge
  · -- the magnitude has finer bits than the last kept one, so it has fewer leading bits than `n`
    left
    have hn : n ≠ 0 := by rintro rfl; simp at hD; omega
    obtain ⟨u, rfl⟩ : ∃ u, D = u + 1 := ⟨D - 1, by omega⟩
    have hlead : 2 ^ 23 ≤ n / 2 ^ (u + 1) := by
      rw [Nat.le_div_iff_mul_le (by positivity), ← Nat.pow_add]
      exact (Nat.pow_le_pow_right (by omega) (by omega)).trans (Nat.log2_self_le hn)
    calc k * 2 ^ (t + d) ≤ 2 ^ 24 * 2 ^ u := Nat.mul_le_mul (by omega) (Nat.pow_le_pow_right (by omega) (by omega))
      _ = 2 ^ 23 * 2 ^ (u + 1) := by rw [Nat.pow_succ]; omega
      _ ≤ n / 2 ^ (u + 1) * 2 ^ (u + 1) := Nat.mul_le_mul_right _ hlead
  · -- the magnitude is itself a multiple of the last kept bit
    obtain ⟨c, hc⟩ : 2 ^ D ∣ k * 2 ^ (t + d) := dvd_mul_of_dvd_right (pow_dvd_pow 2 hge) k
    rw [hc, Nat.mul_comm _ c]
    exact (Nat.lt_or_ge c (n / 2 ^ D + 1)).imp (fun h => Nat.mul_le_mul_right _ (by omega)) (Nat.mul_le_mul_right _)

/-- The chosen multiple of `p` is at least as near to `n` as any number not between the two around `n`; an equally near other one
is the multiple next to it, and then the chosen one is even. -/
theorem roundedKept_nearest {n p x : Nat} (hp : 0 < p) (hx : x ≤ n / p * p ∨ (n / p + 1) * p ≤ x) :
    |(roundedKept n p * p : Int) - n| ≤ |(x : Int) - n| ∧
      (|(roundedKept n p * p : Int) - n| = |(x : Int) - n| → x ≠ roundedKept n p * p →
        roundedKept n p % 2 = 0 ∧ |(roundedKept n p * p : Int) - x| = p) := by
  have hn : n / p * p + n % p = n := Nat.div_add_mod' n p
  have hlt : n % p < p := Nat.mod_lt n hp
  unfold roundedKept
  generalize n / p = k at *
  generalize n % p = rest at *
  rw [Nat.succ_mul] at hx
  generalize hlo : k * p = lo at *
  simp only [Int.abs_eq_natAbs]
  split
  case isTrue hup =>
    rw [Nat.succ_mul, Nat.cast_succ, Int.add_mul, ← Nat.cast_mul, hlo]
    omega
  case isFalse hdown =>
    rw [← Nat.cast_mul, hlo]
    omega

/-- `roundMag` rounds to the nearest representable magnitude, ties to even (40_numerics.md R114, R117). -/
theorem roundMag_isNearestEven (n d : Nat) : IsNearestEven (roundMag n d) n d := by
  refine ⟨roundMag_representable n d, fun m hm => ?_⟩
  have hx := representable_not_between hm n d
  rw [roundMag_eq_roundedKept]
  obtain ⟨u, hu⟩ : ∃ u, max (n.log2 - 23) d = u + d := ⟨_, (Nat.sub_add_cancel (le_max_right _ _)).symm⟩
  rw [hu] at hx ⊢
  obtain ⟨hnear, htie⟩ := roundedKept_nearest (by positivity) hx
  rw [Nat.add_sub_cancel]
  generalize roundedKept n (2 ^ (u + d)) = k at *
  rw [Nat.pow_add, ← Nat.mul_assoc] at htie
  push_cast [pow_add, ← mul_assoc] at hnear htie ⊢
  refine ⟨hnear, fun heq hne => ?_⟩
  obtain ⟨heven, hdist⟩ := htie heq fun h => hne (Nat.eq_of_mul_eq_mul_right (by positivity) h)
  rw [← sub_mul, abs_mul, abs_of_pos (by positivity : (0 : Int) < 2 ^ d)] at hdist
  rw [mul_right_cancel₀ (by positivity) hdist]
  exact Int.emod_eq_zero_of_dvd (mul_dvd_mul_right (by omega) _)

/-- What rounding to binary32 gives: the nearest magnitude, or an infinity beyond the finite ones (40_numerics.md R115, R116). -/
theorem roundF32_isRounded (neg : Bool) (n d : Nat) :
    ∃ r, IsNearestEven r n d ∧ (r < 2 ^ 128 * 2 ^ 149 → roundF32 neg n d = .fin neg r) ∧
      (2 ^ 128 * 2 ^ 149 ≤ r → roundF32 neg n d = .inf neg) :=
  ⟨roundMag n d, roundMag_isNearestEven n d, fun h => if_pos h, fun h => if_neg h.not_gt⟩

/-! Sums of finite operands (40_numerics.md R116). -/

theorem add32_fin (a b : Bool) (m n : Nat) :
    add32 (.fin a m) (.fin b n) =
      if signedMag a m + signedMag b n = 0 then .fin (a && b) 0
      else roundF32 (decide (signedMag a m + signedMag b n < 0)) (signedMag a m + signedMag b n).natAbs 0 := rfl

theorem add32_comm_fin (a b : Bool) (m n : Nat) : add32 (.fin a m) (.fin b n) = add32 (.fin b n) (.fin a m) := by
  rw [add32_fin, add32_fin, Int.add_comm, Bool.and_comm]

theorem roundF32_zero (neg : Bool) (d : Nat) : roundF32 neg 0 d = .fin neg 0 := by
  simpa using roundF32_exact neg (m := 0) ⟨0, 0, by norm_num, rfl⟩ (by norm_num [f32Limit]) d

theorem signedMag_natAbs (a : Bool) (m : Nat) : (signedMag a m).natAbs = m := by cases a <;> simp [signedMag]

theorem signedMag_lt_zero (a : Bool) {m : Nat} (hm : m ≠ 0) : decide (signedMag a m < 0) = a := by
  cases a <;> simp [signedMag]; omega

/-- A sum that is not zero is rounded with the sign and the magnitude of the exact sum. -/
theorem add32_of_signedMag {a b c : Bool} {m n k : Nat} (h : signedMag a m + signedMag b n = signedMag c k) (hk : k ≠ 0) :
    add32 (.fin a m) (.fin b n) = roundF32 c k 0 := by
  have hne : signedMag c k ≠ 0 := fun hz => hk ((signedMag_natAbs c k).symm.trans (by rw [hz]; rfl))
  rw [add32_fin, h, if_neg hne, signedMag_lt_zero c hk, signedMag_natAbs]

/-- Two operands of one sign add their magnitudes. -/
theorem add32_same_sign (a : Bool) (m n : Nat) : add32 (.fin a m) (.fin a n) = roundF32 a (m + n) 0 := by
  by_cases hz : m + n = 0
  · obtain ⟨rfl, rfl⟩ : m = 0 ∧ n = 0 := by omega
    rw [Nat.add_zero, roundF32_zero]
    cases a <;> rfl
  · exact add32_of_signedMag (by cases a <;> simp [signedMag]; omega) hz

/-- Two operands of opposite signs subtract the smaller magnitude from the greater, with the sign of the greater. -/
theorem add32_opposite_sign (a : Bool) {m n : Nat} (h : m < n) :
    add32 (.fin a m) (.fin (!a) n) = roundF32 (!a) (n - m) 0 :=
  add32_of_signedMag (by cases a <;> simp [signedMag] <;> omega) (by omega)

theorem add32_cancel (a : Bool) (m : Nat) : add32 (.fin a m) (.fin (!a) m) = .fin false 0 := by
  rw [add32_fin, if_pos (by cases a <;> simp [signedMag]), Bool.and_not_self]

/-- Settles O45: each of the three is one rounding of the exact result. -/
theorem finiteArithmeticIsRounded : Obligations.FiniteArithmeticIsRounded := by
  unfold Obligations.FiniteArithmeticIsRounded
  intro a b m n
  refine ⟨?_, ?_, fun h => ?_, add32_cancel a m⟩
  · rw [mul32]
    exact roundF32_isRounded (a ^^ b) (m * n) 149
  · rw [add32_same_sign]
    exact roundF32_isRounded a (m + n) 0
  · have hr : add32 (.fin a n) (.fin (!a) m) = roundF32 a (n - m) 0 := by
      rw [add32_comm_fin]
      simpa using add32_opposite_sign (!a) h
    rw [add32_opposite_sign a h, hr]
    exact ⟨roundMag (n - m) 0, roundMag_isNearestEven _ _, fun hlt => ⟨if_pos hlt, if_pos hlt⟩,
      fun hge => ⟨if_neg hge.not_gt, if_neg hge.not_gt⟩⟩

end Sys2Proof.Machine
end

section
/-! The values of binary32 and binary16 patterns and of integers, and that promotions and scalings are exact (40_numerics.md R110
to R113, R119, R124). -/

namespace Sys2Proof.Machine

/-! Patterns by their fields as numbers (40_numerics.md R110, R111). -/

theorem F32.ofBits_eq (b : Word) :
    F32.ofBits b =
      if b.toNat / 2 ^ 23 % 256 = 255 then
        if b.toNat % 2 ^ 23 = 0 then .inf (decide (2 ^ 31 ≤ b.toNat)) else .nan
      else if b.toNat / 2 ^ 23 % 256 = 0 then .fin (decide (2 ^ 31 ≤ b.toNat)) (b.toNat % 2 ^ 23)
      else .fin (decide (2 ^ 31 ≤ b.toNat)) ((2 ^ 23 + b.toNat % 2 ^ 23) * 2 ^ (b.toNat / 2 ^ 23 % 256 - 1)) := by
  have hs : b.getLsbD 31 = decide (2 ^ 31 ≤ b.toNat) := (BitVec.msb_eq_getLsbD_last b).symm.trans (BitVec.msb_eq_decide b)
  unfold F32.ofBits
  simp only [hs, BitVec.extractLsb'_toNat, Nat.shiftRight_eq_div_pow, Nat.pow_zero, Nat.div_one, Nat.reducePow]

theorem f16ToF32_eq (h : BitVec 16) :
    f16ToF32 h =
      if h.toNat / 2 ^ 10 % 32 = 31 then
        if h.toNat % 2 ^ 10 = 0 then .inf (decide (2 ^ 15 ≤ h.toNat)) else .nan
      else if h.toNat / 2 ^ 10 % 32 = 0 then .fin (decide (2 ^ 15 ≤ h.toNat)) (h.toNat % 2 ^ 10 * 2 ^ 125)
      else .fin (decide (2 ^ 15 ≤ h.toNat))
        ((2 ^ 10 + h.toNat % 2 ^ 10) * 2 ^ (h.toNat / 2 ^ 10 % 32 - 1) * 2 ^ 125) := by
  have hs : h.getLsbD 15 = decide (2 ^ 15 ≤ h.toNat) := (BitVec.msb_eq_getLsbD_last h).symm.trans (BitVec.msb_eq_decide h)
  unfold f16ToF32
  simp only [hs, BitVec.extractLsb'_toNat, Nat.shiftRight_eq_div_pow, Nat.pow_zero, Nat.div_one, Nat.reducePow]

/-! Canonical bits (40_numerics.md R119). -/

/-- A subnormal magnitude packs to its fraction. -/
theorem packMag_subnormal {f : Nat} (hf : f < 2 ^ 23) : packMag f = f := by
  have hlog : f.log2 - 23 = 0 := by
    rcases Nat.eq_zero_or_pos f with rfl | hpos
    · simp
    · have := (Nat.log2_lt (by omega : f ≠ 0)).mpr hf
      omega
  simp [packMag, hlog]

/-- A normal magnitude packs to its exponent field and its fraction. -/
theorem packMag_normal {e f : Nat} (he : 1 ≤ e) (hf : f < 2 ^ 23) :
    packMag ((2 ^ 23 + f) * 2 ^ (e - 1)) = e * 2 ^ 23 + f := by
  have hlog : ((2 ^ 23 + f) * 2 ^ (e - 1)).log2 = 23 + (e - 1) := by
    rw [Nat.log2_eq_iff (by positivity), Nat.pow_add, Nat.add_right_comm, Nat.pow_add]
    exact ⟨Nat.mul_le_mul_right _ (by omega), Nat.mul_lt_mul_of_pos_right (by omega) (by positivity)⟩
  rw [packMag, hlog, Nat.add_sub_cancel_left, Nat.mul_div_cancel _ (by positivity)]
  omega

/-- The sign, the exponent field and the fraction put together make the pattern. -/
theorem ofNat_fields (b : Word) :
    BitVec.ofNat 32 (signBit (decide (2 ^ 31 ≤ b.toNat)) + (b.toNat / 2 ^ 23 % 256 * 2 ^ 23 + b.toNat % 2 ^ 23)) = b := by
  have hlt := b.isLt
  have hfields : signBit (decide (2 ^ 31 ≤ b.toNat)) + (b.toNat / 2 ^ 23 % 256 * 2 ^ 23 + b.toNat % 2 ^ 23) = b.toNat := by
    simp only [signBit, decide_eq_true_eq]
    split <;> omega
  rw [hfields, BitVec.ofNat_toNat, BitVec.setWidth_eq]

/-- `canon32` gives back a pattern that is no NaN (40_numerics.md R119). -/
theorem canon32_ofBits {b : Word} (h : ¬(b.toNat / 2 ^ 23 % 256 = 255 ∧ b.toNat % 2 ^ 23 ≠ 0)) :
    canon32 (F32.ofBits b) = b := by
  have hb := ofNat_fields b
  have hf : b.toNat % 2 ^ 23 < 2 ^ 23 := Nat.mod_lt _ (by positivity)
  rw [F32.ofBits_eq]
  generalize decide (2 ^ 31 ≤ b.toNat) = s at *
  generalize b.toNat / 2 ^ 23 % 256 = e at *
  generalize b.toNat % 2 ^ 23 = f at *
  subst hb
  split
  case isTrue he =>
    obtain rfl : f = 0 := by omega
    rw [if_pos rfl, he]
    rfl
  case isFalse he =>
    split
    case isTrue he0 => rw [canon32, packMag_subnormal hf, he0, Nat.zero_mul, Nat.zero_add]
    case isFalse he0 => rw [canon32, packMag_normal (by omega) hf]

/-- Settles O47: the value by the pattern's fields, and the fields of the value's packed magnitude. -/
theorem canonicalBitsRoundTrip : Obligations.CanonicalBitsRoundTrip := by
  unfold Obligations.CanonicalBitsRoundTrip
  intro b s e f hs he hf
  have hcanon := canon32_ofBits (b := b)
  have hval := F32.ofBits_eq b
  rw [← hs, ← he, ← hf] at hval
  rw [← he, ← hf] at hcanon
  refine ⟨fun h1 h2 => ?_, fun h0 => ?_, fun h1 h2 => ?_, fun h1 h2 => ?_, ?_⟩
  · rw [hval, if_neg (by omega), if_neg (by omega)]
  · rw [hval, if_neg (by omega), if_pos h0]
  · rw [hval, if_pos h1, if_pos h2]
  · rw [hval, if_pos h1, if_neg h2]
  · split
    case isTrue hnan => rw [hval, if_pos hnan.1, if_neg hnan.2, canon32]
    case isFalse hnum => exact hcanon hnum

/-! Promotions (40_numerics.md R111 to R113). -/

/-- A magnitude below 2^256 units that is a short significand in place is a binary32 value. -/
theorem fin_valid (neg : Bool) {k t : Nat} (hk : k < 2 ^ 24) (ht : t ≤ 253) : (F32.fin neg (k * 2 ^ t)).Valid := by
  refine ⟨⟨k, t, hk, rfl⟩, ?_⟩
  calc k * 2 ^ t < 2 ^ 24 * 2 ^ t := Nat.mul_lt_mul_of_pos_right hk (by positivity)
    _ ≤ 2 ^ 24 * 2 ^ 253 := Nat.mul_le_mul_left _ (Nat.pow_le_pow_right (by omega) ht)
    _ = f32Limit := by norm_num [f32Limit]

/-- A finite binary16 value has 11 significant bits. -/
theorem f16ToF32_fin {h : BitVec 16} {a : Bool} {m : Nat} (e : f16ToF32 h = .fin a m) :
    ∃ k t, k < 2 ^ 11 ∧ t ≤ 154 ∧ m = k * 2 ^ t := by
  have hf : h.toNat % 2 ^ 10 < 2 ^ 10 := Nat.mod_lt _ (by positivity)
  rw [f16ToF32_eq] at e
  split at e
  case isTrue => split at e <;> cases e
  case isFalse hinf =>
    split at e
    case isTrue => cases e; exact ⟨_, 125, by omega, by omega, rfl⟩
    case isFalse =>
      cases e
      exact ⟨2 ^ 10 + h.toNat % 2 ^ 10, h.toNat / 2 ^ 10 % 32 - 1 + 125, by omega, by omega,
        by rw [Nat.pow_add, Nat.mul_assoc]⟩

theorem f16ToF32_valid (h : BitVec 16) : (f16ToF32 h).Valid := by
  cases e : f16ToF32 h with
  | nan => trivial
  | inf a => trivial
  | fin a m =>
    obtain ⟨k, t, hk, ht, rfl⟩ := f16ToF32_fin e
    exact fin_valid a (by omega) (by omega)

/-- A pattern whose exponent field is 0 stands for less than 2^23 units. -/
theorem exponent_ne_zero {b : Word} {a : Bool} {m : Nat} (h : F32.ofBits b = .fin a m) (hm : 2 ^ 23 ≤ m) :
    b.toNat / 2 ^ 23 % 256 ≠ 0 := by
  intro h0
  rw [F32.ofBits_eq, if_neg (by omega), if_pos h0] at h
  cases h
  omega

/-- Settles O48: the value by the pattern's fields; each value is a binary32 value, which its canonical bits give back. -/
theorem promotionsAreExact : Obligations.PromotionsAreExact := by
  unfold Obligations.PromotionsAreExact
  refine ⟨fun h s e f hs he hf => ?_, fun v hlo hhi => ⟨rfl, ofBits_canon32 (fin_valid _ (by omega) (by omega))⟩⟩
  have hback := ofBits_canon32 (f16ToF32_valid h)
  have hval := f16ToF32_eq h
  rw [← hs, ← he, ← hf] at hval
  have hsub (h0 : e = 0) : f16ToF32 h = .fin s (f * 2 ^ 125) := by rw [hval, if_neg (by omega), if_pos h0]
  refine ⟨fun h1 h2 => ?_, hsub, fun h1 h2 => ?_, fun h1 h2 => ?_, fun h0 hne => ?_, hback⟩
  · rw [hval, if_neg (by omega), if_neg (by omega), Nat.mul_assoc, ← Nat.pow_add, show e - 1 + 125 = e + 124 by omega]
  · rw [hval, if_pos h1, if_pos h2]
  · rw [hval, if_pos h1, if_neg h2]
  · exact exponent_ne_zero (hback.trans (hsub h0)) (by omega)

/-! Scaling (40_numerics.md R124). -/

/-- Settles O49: 11 significant bits times 8 fit in 24, so the one rounding is exact. -/
theorem scalingIsExact : Obligations.ScalingIsExact := by
  unfold Obligations.ScalingIsExact
  intro d q hq
  refine ⟨fun a m h => ?_, fun a h => ⟨fun hne => ?_, fun h0 => ?_⟩, fun h => ?_⟩ <;> rw [h, intToF32]
  · obtain ⟨k, t, hk, ht, rfl⟩ := f16ToF32_fin h
    have hkq : k * q.natAbs < 2 ^ 24 := (Nat.mul_le_mul (by omega) hq : k * q.natAbs ≤ 2 ^ 11 * 255).trans_lt (by norm_num)
    obtain ⟨hrep, hlt⟩ := fin_valid a hkq (by omega : t ≤ 253)
    rw [mul32, ← Nat.mul_assoc, Nat.mul_right_comm k, roundF32_exact _ hrep hlt]
  · rw [mul32, if_neg (by positivity)]
  · rw [mul32, h0, if_pos (by simp)]
  · rfl

end Sys2Proof.Machine
end

section
/-! The dot product as a fold from -0 (40_numerics.md R121). -/

namespace Sys2Proof.Machine

/-- -0 is neutral for the sum of binary32 values (40_numerics.md R116). -/
theorem add32_neg_zero {x : F32} (hx : x.Valid) : add32 (.fin true 0) x = x := by
  cases x with
  | nan => rfl
  | inf a => rfl
  | fin a m =>
    obtain ⟨hrep, hlt⟩ := hx
    have hexact := roundF32_exact a hrep hlt 0
    rw [Nat.pow_zero, Nat.mul_one] at hexact
    cases a with
    | true => rw [add32_same_sign, Nat.zero_add, hexact]
    | false =>
      rcases Nat.eq_zero_or_pos m with rfl | hpos
      · exact add32_cancel true 0
      · exact (add32_opposite_sign true hpos).trans hexact

/-- The running sum after the products 0 to n is the fold over them from -0. -/
theorem dotThrough_eq_foldl (a w : Nat → F32) (n : Nat) :
    dotThrough a w n = (List.range (n + 1)).foldl (fun acc k => add32 acc (mul32 (a k) (w k))) (.fin true 0) := by
  induction n with
  | zero => exact (add32_neg_zero (mul32_valid _ _)).symm
  | succ n ih => rw [List.range_succ, List.foldl_append, ← ih, dotThrough, List.foldl_cons, List.foldl_nil]

/-- Settles O50: adding the first product to -0 gives that product. -/
theorem dotProductFromMinusZero : Obligations.DotProductFromMinusZero := by
  unfold Obligations.DotProductFromMinusZero
  intro a w K hK
  rw [dot32, dotThrough_eq_foldl, Nat.sub_add_cancel hK]

end Sys2Proof.Machine
end

section
/-! What a command leaves that runs without a hazard (60_exceptions.md R177), and the elements of a slot by its role and by its
bytes (20_memory.md R62 to R65, 30_encoding.md R95). -/

namespace Sys2Proof.Machine

/-- A slot whose role allows one dtype has its element size (30_encoding.md R95, 20_memory.md R62). -/
theorem esize_of_role {i : Instr} {c : Snapshot} {p : Platform} (h : check i c p = none) {r : SlotRole} (hr : r ∈ roles i)
    {d : DType} (hd : r.dtypes = [d]) : (c.slot r.slot).esize = d.esize := by
  obtain ⟨d', hmem, he⟩ := dtype_of_allowed ((check_eq_none_iff.mp h).1 r hr)
  obtain rfl : d' = d := by simpa [hd] using hmem
  simp [Slot.esize, he]

/-- Without a hazard, a command that passes its checks changes data memory by its output loop, BUSY and DONE, and nothing else. -/
theorem exec_of_runs_untainted {i : Instr} {s : State} (ht : s.tainted = false) (h : Runs i s.snap s.platform) :
    exec i s = .next
      { s with mem := storeAll s.snap.slotO (outputValue i s.snap s.mem) s.mem, busy := false, done := true } := by
  rw [exec_of_runs h, execute_of_untainted ht, finish, ht]

/-- In a slot of bytes, each byte of the region is an element (20_memory.md R62 to R65). -/
theorem exists_elem_of_inRegion {t : Slot} (h1 : t.esize = 1) {a : Nat} (ha : InRegion t a) :
    ∃ idx, validIdx t.dims idx = true ∧ ∀ m : Memory, elem m t idx = (m.read a).toNat := by
  obtain ⟨hlo, hhi⟩ := ha
  have hlt : a - t.addr < prod t.dims := by
    rw [Slot.bytes, h1, Nat.one_mul, Slot.count] at hhi
    omega
  obtain ⟨idx, hidx, hlin⟩ := lin_surjective hlt
  have hea : t.ea idx = a := by
    rw [Slot.ea, h1, hlin]
    omega
  exact ⟨idx, hidx, fun m => by simp [elem, hea, h1, memRead]⟩

end Sys2Proof.Machine
end

section
/-! Nibbles, and what UNPACK_I4 writes (41_unpack.md R130 to R133). -/

namespace Sys2Proof.Machine

/-! The two nibbles of a byte (41_unpack.md R131, R133). -/

theorem nibbleAt_even (b : Byte) (p : Nat) : nibbleAt b (2 * p) = b.extractLsb' 0 4 := by simp [nibbleAt]

theorem nibbleAt_odd (b : Byte) (p : Nat) : nibbleAt b (2 * p + 1) = b.extractLsb' 4 4 := by
  simp [nibbleAt]

theorem nibbleAt_even_toNat (b : Byte) (p : Nat) : (nibbleAt b (2 * p)).toNat = b.toNat % 16 := by
  simp [nibbleAt_even]

theorem nibbleAt_odd_toNat (b : Byte) (p : Nat) : (nibbleAt b (2 * p + 1)).toNat = b.toNat / 16 := by
  have := b.isLt
  simp [nibbleAt_odd, Nat.shiftRight_eq_div_pow]
  omega

/-- A packed byte is its high nibble followed by its low nibble. -/
theorem nibbles_append (b : Byte) : nibbleAt b 1 ++ nibbleAt b 0 = b :=
  BitVec.extractLsb'_append_extractLsb'

/-- Settles O33: a byte is the bit string of its two nibbles, and those of the bit string `hi ++ lo` are `lo` and `hi`. -/
theorem unpackingIsInvertible : Obligations.UnpackingIsInvertible := by
  unfold Obligations.UnpackingIsInvertible
  refine ⟨fun b => ?_, fun lo hi => ⟨hi ++ lo, ?_, ?_⟩⟩
  · calc b = (nibbleAt b 1 ++ nibbleAt b 0).setWidth 8 := by rw [nibbles_append, BitVec.setWidth_eq]
      _ = (nibbleAt b 1).setWidth 8 <<< 4 ||| (nibbleAt b 0).setWidth 8 :=
        BitVec.setWidth_append_eq_shiftLeft_setWidth_or
      _ = (nibbleAt b 0).setWidth 8 ||| (nibbleAt b 1).setWidth 8 <<< 4 := BitVec.or_comm _ _
  · exact BitVec.extractLsb'_append_eq_right
  · exact BitVec.extractLsb'_append_eq_left

/-! The output elements of UNPACK_I4 (41_unpack.md R130). -/

/-- The input elements of UNPACK_I4 are bytes (30_encoding.md R95). -/
theorem unpack_input_esize {c : Snapshot} {p : Platform} (h : check .unpackI4 c p = none) : c.slotB.esize = 1 :=
  esize_of_role h (r := ⟨1, [.u8], .oneOf [1, 2, 3]⟩) (by simp [roles]) rfl

theorem packedByte_toNat {t : Slot} (h1 : t.esize = 1) (m : Memory) (lead : List Nat) (x : Nat) :
    (packedByte m t lead x).toNat = elem m t (lead ++ [x / 2]) := by
  have hlt := memRead_lt m (t.ea (lead ++ [x / 2])) t.esize
  rw [h1] at hlt
  rw [packedByte, BitVec.toNat_ofNat, elem, h1]
  exact Nat.mod_eq_of_lt hlt

theorem unpackValue_eq (c : Snapshot) (m : Memory) (idx : List Nat) :
    unpackValue c m idx = (nibbleAt (packedByte m c.slotB idx.dropLast (idx.getLastD 0)) (idx.getLastD 0)).toNat :=
  BitVec.toNat_setWidth_of_le (by decide)

theorem unpackValue_append (c : Snapshot) (m : Memory) (lead : List Nat) (x : Nat) :
    unpackValue c m (lead ++ [x]) = (nibbleAt (packedByte m c.slotB lead x) x).toNat := by
  rw [unpackValue_eq, List.dropLast_concat, List.getLastD_concat]

theorem unpackValue_lt (c : Snapshot) (m : Memory) (idx : List Nat) : unpackValue c m idx < 16 := by
  rw [unpackValue_eq]
  exact BitVec.isLt _

theorem unpackValue_even {c : Snapshot} (h1 : c.slotB.esize = 1) (m : Memory) (lead : List Nat) (p : Nat) :
    unpackValue c m (lead ++ [2 * p]) = elem m c.slotB (lead ++ [p]) % 16 := by
  have hp : 2 * p / 2 = p := by omega
  rw [unpackValue_append, nibbleAt_even_toNat, packedByte_toNat h1, hp]

theorem unpackValue_odd {c : Snapshot} (h1 : c.slotB.esize = 1) (m : Memory) (lead : List Nat) (p : Nat) :
    unpackValue c m (lead ++ [2 * p + 1]) = elem m c.slotB (lead ++ [p]) / 16 := by
  have hp : (2 * p + 1) / 2 = p := by omega
  rw [unpackValue_append, nibbleAt_odd_toNat, packedByte_toNat h1, hp]

/-- The output loop of UNPACK_I4 leaves in each output element its nibble. -/
theorem elem_storeAll_unpackValue {c : Snapshot} {p : Platform} (h : check .unpackI4 c p = none) {m : Memory} (hm : m.wf = true)
    {idx : List Nat} (hidx : validIdx c.slotO.dims idx = true) :
    elem (storeAll c.slotO (outputValue .unpackI4 c m) m) c.slotO idx = unpackValue c m idx := by
  have hlt := unpackValue_lt c m idx
  rw [storeAll_elem _ _ hm hidx, unpack_output_esize h]
  exact Nat.mod_eq_of_lt (hlt.trans (by decide))

/-- The two output elements of a packed byte are elements of O (41_unpack.md R130, 60_exceptions.md R175). -/
theorem validIdx_unpacked {c : Snapshot} {p : Platform} (h : check .unpackI4 c p = none) {lead : List Nat} {x y : Nat}
    (hx : validIdx c.slotB.dims (lead ++ [x]) = true) (hy : y < 2 * x + 2) : validIdx c.slotO.dims (lead ++ [y]) = true := by
  obtain ⟨hB, hO⟩ := unpack_shape h
  rw [hB, validIdx_append_singleton] at hx
  obtain ⟨js, j, he, hjs, hj⟩ := hx
  obtain ⟨rfl, ⟨rfl⟩⟩ := List.append_inj' he rfl
  rw [hO, validIdx_append_singleton]
  exact ⟨lead, y, rfl, hjs, by omega⟩

/-- Settles O29: the output element at 2p or 2p + 1 is a nibble of the byte at p. -/
theorem unpackWritesNibbles : Obligations.UnpackWritesNibbles := by
  unfold Obligations.UnpackWritesNibbles
  intro s hwf htaint hruns
  have hsize := unpack_input_esize hruns.1
  refine ⟨_, exec_of_runs_untainted htaint hruns, fun a ha => storeAll_read_outside _ _ _ (not_inRegion_iff.mp ha), ?_⟩
  intro lead p hp
  have hlow := elem_storeAll_unpackValue hruns.1 hwf (validIdx_unpacked hruns.1 hp (y := 2 * p) (by omega))
  have hhigh := elem_storeAll_unpackValue hruns.1 hwf (validIdx_unpacked hruns.1 hp (y := 2 * p + 1) (by omega))
  exact ⟨hlow.trans (unpackValue_even hsize _ _ _), hhigh.trans (unpackValue_odd hsize _ _ _)⟩

/-- Settles O32: each byte of the output region is an output element, and that is a nibble. -/
theorem unpackedBytesBelowSixteen : Obligations.UnpackedBytesBelowSixteen := by
  unfold Obligations.UnpackedBytesBelowSixteen
  intro s hwf htaint hruns
  refine ⟨_, exec_of_runs_untainted htaint hruns, fun a ha => ?_⟩
  obtain ⟨idx, hidx, hread⟩ := exists_elem_of_inRegion (unpack_output_esize hruns.1) ha
  rw [← hread, elem_storeAll_unpackValue hruns.1 hwf hidx]
  exact Nat.le_of_lt_succ (unpackValue_lt _ _ _)

end Sys2Proof.Machine
end

section
/-! What DEQUANT_Q8 and DEQUANT_Q4 write (42_dequant.md R140 to R143). -/

namespace Sys2Proof.Machine

/-- The output loop of a command with F32 output leaves in each output element the word of its value (30_encoding.md R95). -/
theorem elem_storeAll_word {i : Instr} {c : Snapshot} {p : Platform} (h : check i c p = none) (hi : i ≠ .unpackI4)
    {m : Memory} (hm : m.wf = true) {idx : List Nat} (hidx : validIdx c.slotO.dims idx = true) {w : Word}
    (hw : outputValue i c m idx = w.toNat) :
    elem (storeAll c.slotO (outputValue i c m) m) c.slotO idx = w.toNat := by
  rw [storeAll_elem _ _ hm hidx, hw, output_esize h hi]
  exact Nat.mod_eq_of_lt w.isLt

/-- O of a dequantization has an element for each weight row and each of its `DIM1 * BS` weights (60_exceptions.md R175). -/
theorem validIdx_dequantized {i : Instr} {c : Snapshot} {p : Platform} (h : check i c p = none)
    (hi : outputShape i c = dequantShape c) {n k : Nat} (hn : n < c.slotB.dim0.toNat)
    (hk : k < c.slotB.dim1.toNat * c.bs) : validIdx c.slotO.dims [n, k] = true := by
  obtain ⟨-, -, -, -, -, -, -, -, hout, -⟩ := check_eq_none_iff.mp h
  rw [hout, hi, dequantShape]
  simp [validIdx, hn, hk]

/-- An element of a slot of bytes, read as a byte, is the element. -/
theorem ofNat_elem_toNat {t : Slot} (h1 : t.esize = 1) (m : Memory) (idx : List Nat) :
    (BitVec.ofNat 8 (elem m t idx)).toNat = elem m t idx := by
  have hlt : elem m t idx < 256 ^ t.esize := memRead_lt _ _ _
  rw [h1] at hlt
  exact (BitVec.toNat_ofNat _ 8).trans (Nat.mod_eq_of_lt hlt)

/-! The q8 weights (42_dequant.md R140). -/

/-- The dtype of qs of a q8 command is I8 or U8 (30_encoding.md R94, R95). -/
theorem q8_dtype {i : Instr} {c : Snapshot} {p : Platform} (hi : ReadsQ8 i) (h : check i c p = none) :
    c.slotB.dtype = 3#4 ∨ c.slotB.dtype = 4#4 := by
  have hrole : (⟨1, [.i8, .u8], .oneOf [3]⟩ : SlotRole) ∈ roles i := by rcases hi with rfl | rfl <;> simp [roles]
  obtain ⟨d, hmem, hd⟩ := dtypeAllowed_iff.mp ((check_eq_none_iff.mp h).1 _ hrole)
  have hd' : c.slotB.dtype = d.code := hd
  rw [hd']
  rcases List.mem_pair.mp hmem with rfl | rfl
  · exact .inl rfl
  · exact .inr rfl

/-- The q8 elements are bytes (20_memory.md R62). -/
theorem q8_esize {i : Instr} {c : Snapshot} {p : Platform} (hi : ReadsQ8 i) (h : check i c p = none) :
    c.slotB.esize = 1 := by
  rcases q8_dtype hi h with hd | hd <;> rw [Slot.esize, hd] <;> rfl

/-- A q8 element as an integer, by the dtype code (42_dequant.md R140). -/
theorem q8Value_elem {t : Slot} (h1 : t.esize = 1) (m : Memory) (idx : List Nat) :
    q8Value t (BitVec.ofNat 8 (elem m t idx)) =
      if t.dtype = 3#4 then (BitVec.ofNat 8 (elem m t idx)).toInt else (elem m t idx : Int) := by
  have hcode : ∀ x : BitVec 4, dtypeOfCode x = some .i8 ↔ x = 3#4 := by decide
  simp only [q8Value, hcode, ofNat_elem_toNat h1]

/-- Settles O30: the output element at [n, k] is the weight `dq8(n, k)`. -/
theorem dequantQ8WritesWeights : Obligations.DequantQ8WritesWeights := by
  unfold Obligations.DequantQ8WritesWeights
  intro s hwf htaint hruns
  obtain ⟨-, -, hbs⟩ := q8_shape (.inr rfl) hruns.1
  refine ⟨_, exec_of_runs_untainted htaint hruns, fun a ha => storeAll_read_outside _ _ _ (not_inRegion_iff.mp ha), ?_⟩
  intro n k hn hk
  rw [← q8Value_elem (q8_esize (.inr rfl) hruns.1)]
  exact elem_storeAll_word hruns.1 (by decide) hwf (validIdx_dequantized hruns.1 rfl hn (by rwa [hbs])) rfl

/-! The q4 weights (42_dequant.md R141). -/

/-- A nibble of a packed byte as a number, by the parity of its place (41_unpack.md R131). -/
theorem nibbleAt_toNat (b : Byte) (j : Nat) :
    (nibbleAt b j).toNat = if j % 2 = 0 then b.toNat % 16 else b.toNat / 16 := by
  obtain ⟨p, rfl | rfl⟩ := j.even_or_odd'
  · rw [nibbleAt_even_toNat, if_pos (by omega)]
  · rw [nibbleAt_odd_toNat, if_neg (by omega)]

/-- The packed q4 elements are bytes (30_encoding.md R95). -/
theorem q4_esize {i : Instr} {c : Snapshot} {p : Platform} (hi : ReadsQ4 i) (h : check i c p = none) :
    c.slotB.esize = 1 :=
  esize_of_role h (r := ⟨1, [.u8], .oneOf [3]⟩) (by rcases hi with rfl | rfl <;> simp [roles]) rfl

/-- The weight at `j` of block `kb` (42_dequant.md R141): multiply, then add. -/
theorem dq4_block {c : Snapshot} (h1 : c.slotB.esize = 1) (m : Memory) (n kb : Nat) {j : Nat} (hj : j < c.bs) :
    dq4 c m n (kb * c.bs + j) =
      add32
        (mul32 (readF16 m c.slotD [n, kb, 0])
          (intToF32
            (if j % 2 = 0 then (elem m c.slotB [n, kb, j / 2] % 16 : Nat)
             else (elem m c.slotB [n, kb, j / 2] / 16 : Nat) : Nat)))
        (readF16 m c.slotM [n, kb, 0]) := by
  have hdiv : (kb * c.bs + j) / c.bs = kb := by
    rw [Nat.mul_comm, Nat.mul_add_div (by omega), Nat.div_eq_of_lt hj, Nat.add_zero]
  have hmod : (kb * c.bs + j) % c.bs = j := by rw [Nat.mul_add_mod_self_right, Nat.mod_eq_of_lt hj]
  simp only [dq4, hdiv, hmod, nibbleAt_toNat, packedByte_toNat h1, List.cons_append, List.nil_append]

/-- Settles O31: the output element at `j` of block `kb` is the weight `dq4(n, kb * BS + j)`. -/
theorem dequantQ4WritesWeights : Obligations.DequantQ4WritesWeights := by
  unfold Obligations.DequantQ4WritesWeights
  intro s hwf htaint hruns
  refine ⟨_, exec_of_runs_untainted htaint hruns, fun a ha => storeAll_read_outside _ _ _ (not_inRegion_iff.mp ha), ?_⟩
  intro n kb j hn hkb hj
  have hk : kb * s.snap.bs + j < s.snap.slotB.dim1.toNat * s.snap.bs := by
    calc kb * s.snap.bs + j < (kb + 1) * s.snap.bs := by rw [Nat.succ_mul]; omega
      _ ≤ s.snap.slotB.dim1.toNat * s.snap.bs := Nat.mul_le_mul_right _ hkb
  refine (elem_storeAll_word hruns.1 (by decide) hwf (validIdx_dequantized hruns.1 rfl hn hk) rfl).trans ?_
  exact congrArg (fun x => (canon32 x).toNat) (dq4_block (q4_esize (.inr rfl) hruns.1) s.mem n kb hj)

end Sys2Proof.Machine
end

section
/-! The output elements of the three matmuls (43_matmul.md R150 to R152). -/

namespace Sys2Proof.Machine

/-- The weights that each matmul multiplies with (43_matmul.md R150, R151, R152). -/
inductive Multiplies : Instr → (Snapshot → Memory → Nat → Nat → F32) → Prop
  | dense : Multiplies .mmtfp denseWeight
  | q8 : Multiplies .mmtQ8 dq8
  | q4 : Multiplies .mmtQ4 dq4

theorem IsMatmul.multiplies {i : Instr} (h : IsMatmul i) : ∃ weight, Multiplies i weight := by
  rcases h with rfl | rfl | rfl
  · exact ⟨_, .dense⟩
  · exact ⟨_, .q8⟩
  · exact ⟨_, .q4⟩

section
variable {i : Instr} {weight : Snapshot → Memory → Nat → Nat → F32} {c : Snapshot} {p : Platform}

theorem Multiplies.isMatmul (h : Multiplies i weight) : IsMatmul i := by
  cases h with
  | dense => exact .inl rfl
  | q8 => exact .inr (.inl rfl)
  | q4 => exact .inr (.inr rfl)

theorem Multiplies.outputValue_eq (h : Multiplies i weight) : outputValue i = matmulValue weight := by cases h <;> rfl

/-- The output loop of a matmul leaves in each output element its dot product. -/
theorem Multiplies.elem_storeAll (hw : Multiplies i weight) (h : check i c p = none) {m : Memory} (hm : m.wf = true)
    {idx : List Nat} (hidx : validIdx c.slotO.dims idx = true) :
    elem (storeAll c.slotO (outputValue i c m) m) c.slotO idx = matmulValue weight c m idx := by
  have hne : i ≠ .unpackI4 := by cases hw <;> decide
  exact elem_storeAll_word h hne hm hidx (by rw [hw.outputValue_eq]; rfl)

/-- O of a matmul has an element for each row of A and each weight row (60_exceptions.md R175). -/
theorem validIdx_matmul_output (hi : IsMatmul i) (h : check i c p = none) {lead : List Nat} {j : Nat} :
    validIdx c.slotO.dims (lead ++ [j]) = true ↔
      validIdx c.slotA.dims.dropLast lead = true ∧ j < c.slotB.dim0.toNat := by
  obtain ⟨-, -, -, hO⟩ := matmul_shape hi h
  rw [hO, validIdx_append_singleton]
  constructor
  · rintro ⟨js, l, he, hjs, hl⟩
    obtain ⟨rfl, ⟨rfl⟩⟩ := List.append_inj' he rfl
    exact ⟨hjs, hl⟩
  · rintro ⟨hlead, hj⟩
    exact ⟨lead, j, rfl, hlead, hj⟩

theorem Slot.dropLast_and_last_rank_two {t : Slot} (h : t.rank = 2#2) :
    t.dims.dropLast = [t.dim0.toNat] ∧ t.last = t.dim1.toNat := by
  simp [Slot.last, Slot.dims_rank_two (t := t) (by simp [h])]

theorem Slot.dropLast_and_last_rank_three {t : Slot} (h : t.rank = 3#2) :
    t.dims.dropLast = [t.dim0.toNat, t.dim1.toNat] ∧ t.last = t.dim2.toNat := by
  simp [Slot.last, Slot.dims_rank_three (t := t) (by simp [h])]

/-- Output elements of two matmuls are the same when their rows of A and their weight rows are, term by term. -/
theorem matmulValue_eq_of_terms {weight' : Snapshot → Memory → Nat → Nat → F32} {d : Snapshot} {m n : Memory}
    {lead lead' : List Nat} {j : Nat} (hK : 1 ≤ c.slotA.last) (hlast : d.slotA.last = c.slotA.last)
    (hA : ∀ k, k < c.slotA.last → readF32 m c.slotA (lead ++ [k]) = readF32 n d.slotA (lead' ++ [k]))
    (hW : ∀ k, k < c.slotA.last → weight c m j k = weight' d n j k) :
    matmulValue weight c m (lead ++ [j]) = matmulValue weight' d n (lead' ++ [j]) := by
  simp only [matmulValue, List.dropLast_concat, List.getLastD_concat, hlast]
  exact congrArg (fun x => (canon32 x).toNat) (dot32_congr hK hA hW)

/-- A matmul completes, writes the dot product of its row of A and its weight row to each element of O, for A of rank 2 and of
rank 3, and writes nothing else (43_matmul.md R150 to R152). -/
theorem Multiplies.writes_dot_products (hw : Multiplies i weight) {s : State} (hm : s.mem.wf = true)
    (ht : s.tainted = false) (hr : Runs i s.snap s.platform) :
    ∃ m : Memory,
      exec i s = .next { s with mem := m, busy := false, done := true } ∧
      (∀ a, ¬ InRegion s.snap.slotO a → m.read a = s.mem.read a) ∧
      (s.snap.slotA.rank = 2#2 → ∀ r j, r < s.snap.slotA.dim0.toNat → j < s.snap.slotB.dim0.toNat →
        elem m s.snap.slotO [r, j] =
          (canon32 (dot32 (fun k => readF32 s.mem s.snap.slotA [r, k]) (weight s.snap s.mem j)
            s.snap.slotA.dim1.toNat)).toNat) ∧
      (s.snap.slotA.rank = 3#2 → ∀ b r j, b < s.snap.slotA.dim0.toNat → r < s.snap.slotA.dim1.toNat →
        j < s.snap.slotB.dim0.toNat →
        elem m s.snap.slotO [b, r, j] =
          (canon32 (dot32 (fun k => readF32 s.mem s.snap.slotA [b, r, k]) (weight s.snap s.mem j)
            s.snap.slotA.dim2.toNat)).toNat) := by
  refine ⟨_, exec_of_runs_untainted ht hr, fun a ha => storeAll_read_outside _ _ _ (not_inRegion_iff.mp ha), ?_, ?_⟩
  · intro hrank r j hr' hj
    obtain ⟨hlead, hlast⟩ := Slot.dropLast_and_last_rank_two hrank
    have hidx : validIdx s.snap.slotO.dims ([r] ++ [j]) = true :=
      (validIdx_matmul_output hw.isMatmul hr.1).mpr ⟨by simp [hlead, validIdx, hr'], hj⟩
    rw [← hlast]
    exact hw.elem_storeAll hr.1 hm hidx
  · intro hrank b r j hb hr' hj
    obtain ⟨hlead, hlast⟩ := Slot.dropLast_and_last_rank_three hrank
    have hidx : validIdx s.snap.slotO.dims ([b, r] ++ [j]) = true :=
      (validIdx_matmul_output hw.isMatmul hr.1).mpr ⟨by simp [hlead, validIdx, hb, hr'], hj⟩
    rw [← hlast]
    exact hw.elem_storeAll hr.1 hm hidx

end

/-- Settles O26: MMTFP multiplies with the rows of B. -/
theorem mmtfpWritesDotProducts : Obligations.MmtfpWritesDotProducts :=
  fun _ hwf htaint hruns => Multiplies.dense.writes_dot_products hwf htaint hruns

/-- Settles O27: MMT_Q8 multiplies with the weights `dq8`. -/
theorem mmtQ8WritesDotProducts : Obligations.MmtQ8WritesDotProducts :=
  fun _ hwf htaint hruns => Multiplies.q8.writes_dot_products hwf htaint hruns

/-- Settles O28: MMT_Q4 multiplies with the weights `dq4`. -/
theorem mmtQ4WritesDotProducts : Obligations.MmtQ4WritesDotProducts :=
  fun _ hwf htaint hruns => Multiplies.q4.writes_dot_products hwf htaint hruns

end Sys2Proof.Machine
end

section
/-! What an output element of a matmul depends on (43_matmul.md R154, R155). -/

namespace Sys2Proof.Machine

section
variable {i : Instr} {weight : Snapshot → Memory → Nat → Nat → F32} {c d : Snapshot} {p : Platform}

/-- A weight depends on its weight row, with its scales and offsets, alone (43_matmul.md R155). -/
theorem Multiplies.weight_congr (hw : Multiplies i weight) (h : check i c p = none) {m n : Memory} {j k : Nat}
    (hrows : WeightRowsAgree i c m n j) (hk : k < c.slotA.last) : weight c m j k = weight c n j k := by
  obtain ⟨-, -, -, -, hpd, -, -, hin, -⟩ := check_eq_none_iff.mp h
  cases hw with
  | dense =>
    have hlast : c.slotA.last = c.slotB.dim1.toNat := by simpa [innerDimsAgree] using hin
    simp only [denseWeight, readF32, hrows k (by omega)]
  | q8 =>
    obtain ⟨-, -, hbs⟩ := q8_shape (.inl rfl) h
    have hdim : c.slotB.dim2.toNat = 32 := by simpa [packedDimAgrees, hbs] using hpd
    rw [blocks_cover (.inl rfl) h, hbs] at hk
    obtain ⟨hd, hq⟩ := hrows (k / 32) (by omega)
    exact dq8_congr hd (hq _ (by omega))
  | q4 =>
    obtain ⟨-, -, -, hbs, hpos⟩ := q4_shape (.inl rfl) h
    rw [blocks_cover (.inr rfl) h] at hk
    have hmod := Nat.mod_lt k hpos
    obtain ⟨hd, ho, hq⟩ := hrows (k / c.bs) (Nat.div_lt_of_lt_mul (by rwa [Nat.mul_comm]))
    exact dq4_congr hd ho (hq _ (by omega))

/-- The weights depend on qs (or B), d, m and BLOCK of the snapshot alone (30_encoding.md R95). -/
theorem Multiplies.weight_snap_congr (hw : Multiplies i weight) (hB : c.slotB = d.slotB) (hD : c.slotD = d.slotD)
    (hM : c.slotM = d.slotM) (hbs : c.bs = d.bs) : weight c = weight d := by
  funext m j k
  cases hw with
  | dense => simp only [denseWeight, hB]
  | q8 => simp only [dq8, hB, hD]
  | q4 => simp only [dq4, hB, hD, hM, hbs]

/-- A of a matmul holds 4-byte elements (30_encoding.md R95). -/
theorem slotA_esize (hi : IsMatmul i) (h : check i c p = none) : c.slotA.esize = 4 :=
  esize_of_role h (r := ⟨0, [.f32], .oneOf [2, 3]⟩) (by rcases hi with rfl | rfl | rfl <;> simp [roles]) rfl

/-- Element `[r, k]` of slice `b` is element `[b, r, k]` of the batch (43_matmul.md R154, 20_memory.md R64, R65). -/
theorem elem_slice {t u : Slot} {b : Nat} (ht : t.rank = 3#2) (hu : u.rank = 2#2) (ht4 : t.esize = 4) (hu4 : u.esize = 4)
    (haddr : u.addr = t.addr + 4 * b * t.dim1.toNat * t.dim2.toNat) (hdim : u.dim1 = t.dim2) (m : Memory) (r k : Nat) :
    elem m t [b, r, k] = elem m u [r, k] := by
  have hea : t.ea [b, r, k] = u.ea [r, k] := by
    rw [Slot.ea, Slot.ea, Slot.dims_rank_three (by simp [ht]), Slot.dims_rank_two (by simp [hu]), ht4, hu4, haddr, hdim]
    simp only [lin, prod]
    ring
  rw [elem, elem, hea, ht4, hu4]

end

/-- Settles O53: the row of A and the weights are all that the dot product reads. -/
theorem outputDependsOnItsRowsOnly : Obligations.OutputDependsOnItsRowsOnly := by
  unfold Obligations.OutputDependsOnItsRowsOnly
  intro i s u lead j hi hs hu hts htu hsnap hrs hru hidx hA hrows
  obtain ⟨weight, hw⟩ := hi.multiplies
  refine ⟨_, _, exec_of_runs_untainted hts hrs, exec_of_runs_untainted htu hru, ?_⟩
  rw [hsnap] at hru ⊢
  calc elem (storeAll s.snap.slotO (outputValue i s.snap u.mem) u.mem) s.snap.slotO (lead ++ [j])
      = matmulValue weight s.snap u.mem (lead ++ [j]) := hw.elem_storeAll hru.1 hu hidx
    _ = matmulValue weight s.snap s.mem (lead ++ [j]) :=
      matmulValue_congr hi hrs.1 hA fun k hk => hw.weight_congr hrs.1 hrows hk
    _ = elem (storeAll s.snap.slotO (outputValue i s.snap s.mem) s.mem) s.snap.slotO (lead ++ [j]) :=
      (hw.elem_storeAll hrs.1 hs hidx).symm

/-- Settles O52: the slice has the rows of A of that batch, and the weights are the same. -/
theorem batchSlicesAreIndependentRuns : Obligations.BatchSlicesAreIndependentRuns := by
  unfold Obligations.BatchSlicesAreIndependentRuns
  intro i s3 s2 b hi hwf hmem ht3 ht2 hr3 hr2 hrank3 hrank2 hb haddr hdim0 hdim1 hB hD hM hblock
  obtain ⟨weight, hw⟩ := hi.multiplies
  refine ⟨_, _, exec_of_runs_untainted ht3 hr3, exec_of_runs_untainted ht2 hr2, ?_⟩
  intro r j hr hj
  rw [hmem]
  obtain ⟨hlead3, hlast3⟩ := Slot.dropLast_and_last_rank_three hrank3
  obtain ⟨hlead2, hlast2⟩ := Slot.dropLast_and_last_rank_two hrank2
  have hidx3 : validIdx s3.snap.slotO.dims ([b, r] ++ [j]) = true :=
    (validIdx_matmul_output hi hr3.1).mpr ⟨by simp [hlead3, validIdx, hb, hr], hj⟩
  have hidx2 : validIdx s2.snap.slotO.dims ([r] ++ [j]) = true :=
    (validIdx_matmul_output hi hr2.1).mpr ⟨by simp [hlead2, validIdx, hdim0, hr], by rwa [hB]⟩
  have hrow : ∀ k, readF32 s3.mem s3.snap.slotA ([b, r] ++ [k]) = readF32 s3.mem s2.snap.slotA ([r] ++ [k]) := fun k =>
    congrArg (fun x => F32.ofBits (BitVec.ofNat 32 x))
      (elem_slice hrank3 hrank2 (slotA_esize hi hr3.1) (slotA_esize hi hr2.1) haddr hdim1 s3.mem r k)
  have hweight : weight s3.snap = weight s2.snap :=
    hw.weight_snap_congr hB.symm hD.symm hM.symm (congrArg BitVec.toNat hblock.symm)
  obtain ⟨-, -, hK, -⟩ := matmul_shape hi hr3.1
  calc elem (storeAll s3.snap.slotO (outputValue i s3.snap s3.mem) s3.mem) s3.snap.slotO ([b, r] ++ [j])
      = matmulValue weight s3.snap s3.mem ([b, r] ++ [j]) := hw.elem_storeAll hr3.1 hwf hidx3
    _ = matmulValue weight s2.snap s3.mem ([r] ++ [j]) :=
      matmulValue_eq_of_terms hK (by rw [hlast2, hlast3, hdim1]) (fun k _ => hrow k) fun k _ => by rw [hweight]
    _ = elem (storeAll s2.snap.slotO (outputValue i s2.snap s3.mem) s3.mem) s2.snap.slotO ([r] ++ [j]) :=
      (hw.elem_storeAll hr2.1 hwf hidx2).symm

end Sys2Proof.Machine
end

section
/-! Dequantization followed by MMTFP, and the fused matmul (43_matmul.md R153). -/

namespace Sys2Proof.Machine

/-- The weights that each dequantization writes (42_dequant.md R142, R143). -/
inductive Dequantizes : Instr → (Snapshot → Memory → Nat → Nat → F32) → Prop
  | q8 : Dequantizes .dequantQ8 dq8
  | q4 : Dequantizes .dequantQ4 dq4

section
variable {i : Instr} {weight : Snapshot → Memory → Nat → Nat → F32} {c : Snapshot} {p : Platform}

theorem Dequantizes.outputValue_eq (h : Dequantizes i weight) : outputValue i = dequantValue weight := by cases h <;> rfl

theorem Dequantizes.weight_valid (h : Dequantizes i weight) (c : Snapshot) (m : Memory) (n k : Nat) :
    (weight c m n k).Valid := by
  cases h with
  | q8 => exact dq8_valid c m n k
  | q4 => exact dq4_valid c m n k

/-- What a dequantization writes reads back as the weight, and as the weight that the memory it leaves gives, since it leaves its
inputs as they were (43_matmul.md R153). -/
theorem Dequantizes.readF32_storeAll (hq : Dequantizes i weight) (h : check i c p = none) {m m' : Memory} (hm : m.wf = true)
    (hm' : m' = storeAll c.slotO (outputValue i c m) m) {n k : Nat} (hidx : validIdx c.slotO.dims [n, k] = true) :
    readF32 m' c.slotO [n, k] = weight c m' n k := by
  have hne : i ≠ .unpackI4 := by cases hq <;> decide
  have hinputs : InputsAgree i c m m' := inputsAgree_of_output h fun a ha => by
    rw [hm', storeAll_read_outside _ _ _ (not_inRegion_iff.mp ha)]
  have hvalue : outputValue i c m [n, k] = (canon32 (weight c m' n k)).toNat := by
    rw [outputValue_congr h hinputs hidx, hq.outputValue_eq]
    rfl
  have helem : elem m' c.slotO [n, k] = (canon32 (weight c m' n k)).toNat := by
    rw [hm'] at hvalue ⊢
    exact elem_storeAll_word h hne hm hidx hvalue
  exact ofBits_of_written (hq.weight_valid c m' n k) _ helem

end

/-- MMTFP with B and a fused matmul have the same output elements when they have the same A and B holds the fused matmul's
weights. -/
theorem matmulValue_dense_eq {weight : Snapshot → Memory → Nat → Nat → F32} {c d : Snapshot} {p : Platform} {m : Memory}
    (h : check .mmtfp c p = none) (hA : d.slotA = c.slotA)
    (hB : ∀ j k, validIdx c.slotB.dims [j, k] = true → readF32 m c.slotB [j, k] = weight d m j k) {idx : List Nat}
    (hidx : validIdx c.slotO.dims idx = true) : matmulValue denseWeight c m idx = matmulValue weight d m idx := by
  obtain ⟨-, -, hK, hO⟩ := matmul_shape (.inl rfl) h
  rw [hO, validIdx_append_singleton] at hidx
  obtain ⟨lead, j, rfl, -, hj⟩ := hidx
  refine matmulValue_eq_of_terms hK (by rw [hA]) (fun k _ => by rw [hA]) fun k hk => hB j k ?_
  rw [dense_shape h]
  simp [validIdx, hj, hk]

/-- The pairs of commands that R153 names, on the same quantized operands, have the same weights. -/
theorem exists_common_weight {dq mm : Instr} {c d : Snapshot} {p q : Platform}
    (hpair : (dq = .dequantQ8 ∧ mm = .mmtQ8) ∨ (dq = .dequantQ4 ∧ mm = .mmtQ4 ∧ d.slotM = c.slotM))
    (hc : check dq c p = none) (hd : check mm d q = none) (hB : d.slotB = c.slotB) (hD : d.slotD = c.slotD) :
    ∃ weight, Dequantizes dq weight ∧ Multiplies mm weight ∧ weight d = weight c := by
  rcases hpair with ⟨rfl, rfl⟩ | ⟨rfl, rfl, hM⟩
  · exact ⟨dq8, .q8, .q8, by funext m n k; simp only [dq8, hB, hD]⟩
  · obtain ⟨-, -, -, hbsc, -⟩ := q4_shape (.inr rfl) hc
    obtain ⟨-, -, -, hbsd, -⟩ := q4_shape (.inl rfl) hd
    exact ⟨dq4, .q4, .q4, Multiplies.q4.weight_snap_congr hB hD hM (by rw [hbsc, hbsd, hB])⟩

/-- Settles O51: W reads back as the fused command's weights, so that both output loops store the same values. -/
theorem dequantThenDenseEqualsFused : Obligations.DequantThenDenseEqualsFused := by
  unfold Obligations.DequantThenDenseEqualsFused
  intro dq mm s1 t1 s2 s3 hpair hwf ht1 ht2 ht3 hr1 he1 hm2 hm3 hW hB hD hA hO hr2 hr3
  obtain ⟨weight, hq, hw, heq⟩ := exists_common_weight hpair hr1.1 hr3.1 hB hD
  have hmem : t1.mem = storeAll s1.snap.slotO (outputValue dq s1.snap s1.mem) s1.mem := by
    rw [exec_of_runs_untainted ht1 hr1] at he1
    cases he1
    rfl
  have hdense : ∀ j k, validIdx s2.snap.slotB.dims [j, k] = true →
      readF32 t1.mem s2.snap.slotB [j, k] = weight s3.snap t1.mem j k := by
    rw [hW, heq]
    exact fun j k => hq.readF32_storeAll hr1.1 hwf hmem
  refine ⟨_, _, exec_of_runs_untainted ht2 hr2, exec_of_runs_untainted ht3 hr3, ?_⟩
  rw [hm2, hm3, hO, hw.outputValue_eq]
  exact storeAll_congr _ (fun idx hidx => matmulValue_dense_eq hr2.1 hA hdense hidx) _

end Sys2Proof.Machine
end

section
/-! A start while busy, and the error codes that a command records (60_exceptions.md R172, R173, R183). -/

namespace Sys2Proof.Machine

/-- The error codes that a check can carry (60_exceptions.md R173, R183). -/
theorem CheckId.errClass_code_range (id : CheckId) :
    id.errClass.code.toNat ≠ 4 ∧ 1 ≤ id.errClass.code.toNat ∧ id.errClass.code.toNat ≤ 7 := by
  cases id <;> decide

/-- Settles O8: such a write takes the start-while-busy case of CTRL. -/
theorem startWhileBusyOverruns : Obligations.StartWhileBusyOverruns := by
  unfold Obligations.StartWhileBusyOverruns
  intro s v hb h0 h1
  rw [writeReg_ctrl, writeCtrl_start_busy h1 h0 hb]

/-- Settles O25: only the error completion changes ERR_CODE, and it records the code of a check. -/
theorem noCommandRaisesOverflow : Obligations.NoCommandRaisesOverflow := by
  unfold Obligations.NoCommandRaisesOverflow
  intro i s t e hne
  rcases exec_cases i s with ⟨f, -, he⟩ | ⟨-, -, he⟩ | ⟨-, he⟩
  · cases he.symm.trans e
    exact f.check.errClass_code_range
  · cases he.symm.trans e
  · cases he.symm.trans e
    exact absurd (by rw [finish_errCode, execute_errCode]) hne

end Sys2Proof.Machine
end

section
/-! What ends a command in flight (60_exceptions.md R190, 70_reset_and_hazards.md R200, R202). -/

namespace Sys2Proof.Machine

theorem slotRegAt_ne_ctrl (off : Nat) : slotRegAt off ≠ .ctrl := by
  unfold slotRegAt
  split
  · exact nofun
  · exact nofun

/-- CTRL stands at its own offset alone (10_state.md R23). -/
theorem eq_of_regAt_eq_ctrl {off : Nat} (h : regAt off = .ctrl) : off = 0x008 := by
  unfold regAt at h
  split at h
  case h_3 => rfl
  case h_9 =>
    split at h
    · cases h
    · exact absurd h (slotRegAt_ne_ctrl _)
  all_goals cases h

/-- The Engine's step with a command in flight completes it (60_exceptions.md R177, R178). -/
theorem engineStep_completes {s t : State} (e : engineStep s = .next t) (hb : s.busy = true) :
    t.done = true ∨ t.error = true := by
  rcases engineStep_cases e with ⟨hidle, -⟩ | ⟨-, f, -, rfl⟩ | ⟨-, i, -, -, rfl⟩
  · exact absurd (hidle.symm.trans hb) Bool.false_ne_true
  · exact .inr rfl
  · exact .inl rfl

/-- The Host ends a command in flight by a write of SOFT_RESET alone (70_reset_and_hazards.md R200, R202). -/
theorem hostStep_ends {s t : State} (e : hostStep s = .next t) (hs : s.busy = true) (ht : t.busy = false) :
    ∃ v, s.script[s.line]? = some (.wr 32 0x008 v) ∧ v.getLsbD 1 = true := by
  have hne : t.busy ≠ s.busy := by rw [hs, ht]; exact Bool.false_ne_true
  rcases hostStep_cases e with rfl | ⟨h, hline, e⟩
  · exact absurd rfl hne
  · rcases hostExec_cases e with ⟨off, v, rfl, rfl⟩ | ⟨n, b, v, -, -, rfl⟩ | ⟨l, bs, d, rfl⟩
    · rcases writeReg_cases (regAt off) v s with ⟨hr, h1, -⟩ | ⟨-, hkeep⟩
      · rw [eq_of_regAt_eq_ctrl hr] at hline
        exact ⟨v, hline, h1⟩
      · exact absurd ((hkeep hs).1.trans hs.symm) hne
    · exact absurd rfl hne
    · exact absurd rfl hne

/-- Settles O60: by the agents that move in the step; when both move, the Host's line resets the engine or the Engine completes the
command. -/
theorem commandEndsByCompletionOrReset : Obligations.CommandEndsByCompletionOrReset := by
  unfold Obligations.CommandEndsByCompletionOrReset
  intro s t hs e ht
  have host : ∀ {u : State}, HostMoves s → hostStep { s with events := s.events.tail } = .next u → u.busy = false →
      HostMoves s ∧ ∃ v, s.script[s.line]? = some (.wr 32 0x008 v) ∧ v.getLsbD 1 = true :=
    fun hmoves eu hu => ⟨hmoves, hostStep_ends (s := { s with events := s.events.tail }) eu hs hu⟩
  rcases step_cases e with ⟨hmoves, et⟩ | et | ⟨hmoves, u, eu, ⟨-, et⟩ | ⟨hb, -⟩⟩ | ⟨hpower, -⟩ | ⟨p, hb, -⟩
  · exact .inr (.inr (host hmoves et ht))
  · exact .inl (engineStep_completes (s := { s with events := s.events.tail }) et hs)
  · cases hu : u.busy with
    | true => exact .inl (engineStep_completes et hu)
    | false => exact .inr (.inr (host hmoves eu hu))
  · exact absurd (hb.symm.trans hs) Bool.false_ne_true
  · exact .inr (.inl hpower)
  · exact absurd (hb.symm.trans hs) Bool.false_ne_true

end Sys2Proof.Machine
end

section
/-! The check reported is the first violated one in the fixed order (60_exceptions.md R174 to R176). -/

namespace Sys2Proof.Machine

/-! The order of the checks (60_exceptions.md R175, R176). -/

theorem CheckId.position_eq_ctorIdx (a : CheckId) : a.position = a.ctorIdx + 1 := by cases a <;> rfl

theorem CheckId.position_injective {a b : CheckId} (h : a.position = b.position) : a = b := by
  rw [position_eq_ctorIdx, position_eq_ctorIdx, Nat.add_right_cancel_iff] at h
  rw [← CheckId.ofNat_ctorIdx a, h, CheckId.ofNat_ctorIdx]

theorem CheckId.position_le (a : CheckId) : a.position ≤ 15 := by cases a <;> decide

theorem Failure.before_asymm {f g : Failure} (h : f.before g) : ¬ g.before f := by
  unfold Failure.before at *
  rcases h with h | ⟨he, h⟩
  · rintro (h' | ⟨he', -⟩)
    · omega
    · rw [he'] at h
      omega
  · rintro (h' | ⟨-, h'⟩)
    · rw [he] at h'
      omega
    · omega

/-! The first failure of a set. -/

/-- The answer is the failure of `V` that stands before every other, or none when `V` has none. -/
def FirstOf (V : Failure → Prop) : Option Failure → Prop
  | none => ∀ f, ¬ V f
  | some f => V f ∧ ∀ g, V g → g ≠ f → f.before g

section
variable {V : Failure → Prop} {k : CheckId}

theorem FirstOf.eq_some_iff {o : Option Failure} (h : FirstOf V o) (f : Failure) :
    o = some f ↔ V f ∧ ∀ g, V g → g ≠ f → f.before g := by
  cases o with
  | none => exact iff_of_false nofun fun hf => h f hf.1
  | some f' =>
    refine ⟨fun e => Option.some.inj e ▸ h, fun hf => congrArg some ?_⟩
    by_contra hne
    exact Failure.before_asymm (h.2 f hf.1 (Ne.symm hne)) (hf.2 f' h.1 hne)

theorem FirstOf.eq_none_iff {o : Option Failure} (h : FirstOf V o) : o = none ↔ ∀ f, ¬ V f := by
  cases o with
  | none => exact iff_of_true rfl h
  | some f => exact iff_of_false nofun fun hn => hn f h.1

/-- The failures of `V` at a check after the first `n`. -/
def AfterPlace (V : Failure → Prop) (n : Nat) (f : Failure) : Prop := n < f.check.position ∧ V f

theorem FirstOf.nil (V : Failure → Prop) : FirstOf (AfterPlace V 15) none :=
  fun f hf => absurd f.check.position_le (Nat.not_le.mpr hf.1)

/-- One step of the fixed order: the answer of the check at place n + 1, then, if it is none, that of the checks after it. -/
theorem FirstOf.cons {n : Nat} {o : Option Failure} {l : List (Option Failure)} (hn : k.position = n + 1)
    (ho : FirstOf (fun f => f.check = k ∧ V f) o) (hl : o = none → FirstOf (AfterPlace V (n + 1)) (l.findSome? id)) :
    FirstOf (AfterPlace V n) ((o :: l).findSome? id) := by
  have later : ∀ {g : Failure}, AfterPlace V n g → g.check ≠ k → n + 1 < g.check.position := fun hg hne =>
    lt_of_le_of_ne hg.1 fun e => hne (CheckId.position_injective (e.symm.trans hn.symm))
  cases o with
  | some f =>
    obtain ⟨⟨hk, hV⟩, hfirst⟩ := ho
    refine ⟨⟨by rw [hk]; omega, hV⟩, fun g hg hne => ?_⟩
    by_cases hgk : g.check = k
    · exact hfirst g ⟨hgk, hg.2⟩ hne
    · exact .inl (by rw [hk, hn]; exact later hg hgk)
  | none =>
    have hiff : AfterPlace V (n + 1) = AfterPlace V n := by
      funext g
      exact propext ⟨fun hg => ⟨by have := hg.1; omega, hg.2⟩, fun hg => ⟨later hg fun e => ho g ⟨e, hg.2⟩, hg.2⟩⟩
    exact hiff ▸ hl rfl

/-- A check of each listed slot, in ascending order, reports the lowest that it rejects. -/
theorem firstOf_find? {α : Type} {l : List α} {key : α → Fin 5} {bad : α → Bool} (hl : l.Pairwise (key · < key ·))
    (hV : ∀ n : BitVec 3, V ⟨k, n⟩ ↔ ∃ a ∈ l, n.toNat = (key a).val ∧ bad a = true) :
    FirstOf (fun f => f.check = k ∧ V f) ((l.find? bad).map fun a => failAt k (key a)) := by
  have hslot : ∀ a, (failAt k (key a)).slot.toNat = (key a).val := fun a => by simp [failAt]; omega
  cases hf : l.find? bad with
  | none =>
    rintro ⟨_, n⟩ ⟨rfl, hn⟩
    obtain ⟨a, ha, -, hb⟩ := (hV n).mp hn
    exact List.find?_eq_none.mp hf a ha hb
  | some a =>
    obtain ⟨hb, pre, post, rfl, hpre⟩ := List.find?_eq_some_iff_append.mp hf
    refine ⟨⟨rfl, (hV _).mpr ⟨a, by simp, hslot a, hb⟩⟩, ?_⟩
    rintro ⟨_, n⟩ ⟨rfl, hn⟩ hne
    obtain ⟨b, hmem, hnb, hbb⟩ := (hV n).mp hn
    right
    refine ⟨rfl, ?_⟩
    rw [hslot, hnb]
    rcases List.mem_append.mp hmem with hmem | hmem
    · simpa [hbb] using hpre b hmem
    · rcases List.mem_cons.mp hmem with rfl | hmem
      · exact absurd (congrArg (Failure.mk _) (BitVec.eq_of_toNat_eq (hnb.trans (hslot b).symm))) hne
      · exact (List.pairwise_cons.mp (List.pairwise_append.mp hl).2.1).1 b hmem

/-- A check of one slot, or of none, reports it or nothing. -/
theorem firstOf_failUnless {ok : Bool} {m : BitVec 3} (hV : ∀ n, V ⟨k, n⟩ ↔ n = m ∧ ok = false) :
    FirstOf (fun f => f.check = k ∧ V f) (failUnless ok ⟨k, m⟩) := by
  cases ok with
  | true =>
    rintro ⟨_, n⟩ ⟨rfl, hn⟩
    exact absurd ((hV n).mp hn).2 nofun
  | false =>
    refine ⟨⟨rfl, (hV m).mpr ⟨rfl, rfl⟩⟩, ?_⟩
    rintro ⟨_, n⟩ ⟨rfl, hn⟩ hne
    exact absurd (congrArg (Failure.mk _) ((hV n).mp hn).1) hne

theorem roles_ascending (i : Instr) : (roles i).Pairwise (·.slot < ·.slot) := by cases i <;> decide

/-- A check of the used slots reports the lowest that it rejects. -/
theorem firstOf_firstSlot {i : Instr} {bad : SlotRole → Bool}
    (hV : ∀ n : BitVec 3, V ⟨k, n⟩ ↔ ∃ r ∈ roles i, n.toNat = r.slot.val ∧ bad r = true) :
    FirstOf (fun f => f.check = k ∧ V f) (firstSlot i k bad) :=
  firstOf_find? (roles_ascending i) hV

end

/-! Each check on its own (60_exceptions.md R174). -/

theorem rankAllowed_iff {c : Snapshot} {r : SlotRole} : rankAllowed c r = true ↔ RankFits c r := by
  unfold rankAllowed RankFits
  cases r.ranks <;> simp

theorem blockLegal_eq_false_iff {i : Instr} {c : Snapshot} : blockLegal i c = false ↔ BlockBroken i c := by
  cases i with
  | mmtfp => simp [blockLegal, BlockBroken]
  | mmtQ8 | dequantQ8 => simp [blockLegal, BlockBroken, Config.q8Block]
  | mmtQ4 | unpackI4 | dequantQ4 => simp [blockLegal, BlockBroken, imp_iff_not_or]

theorem packedDimAgrees_eq_false_iff {i : Instr} {c : Snapshot} : packedDimAgrees i c = false ↔ PackedDimBroken i c := by
  cases i <;> simp [packedDimAgrees, PackedDimBroken]

theorem blockDividesK_eq_false_iff {i : Instr} {c : Snapshot} : blockDividesK i c = false ↔ DivisibilityBroken i c := by
  cases i <;> simp [blockDividesK, DivisibilityBroken]

theorem innerDimsAgree_eq_false_iff {i : Instr} {c : Snapshot} : innerDimsAgree i c = false ↔ InnerDimsBroken i c := by
  cases i <;> simp [innerDimsAgree, InnerDimsBroken]

/-- A used slot's rank is one that its role lists, once the ranks are allowed (30_encoding.md R95). -/
theorem rank_mem_of_checkRank {i : Instr} {c : Snapshot} (h : checkRank i c = none) (s : Fin 5) (dts : List DType) (l : List Nat)
    (hr : (⟨s, dts, .oneOf l⟩ : SlotRole) ∈ roles i) : (c.slot s).rank.toNat ∈ l :=
  (rankAllowed_iff (r := ⟨s, dts, .oneOf l⟩)).mp (by simpa using firstSlot_eq_none.mp h _ hr)

theorem matmulShapeOk_iff {c : Snapshot} (hr : c.slotA.rank.toNat ∈ [2, 3]) :
    MatmulShapeOk c ↔ c.slotO.dims = matmulShape c := by
  unfold MatmulShapeOk matmulShape
  obtain hr | hr : c.slotA.rank.toNat = 2 ∨ c.slotA.rank.toNat = 3 := by simpa using hr
  · simp [← BitVec.toNat_inj, hr, Slot.dims_rank_two hr]
  · simp [← BitVec.toNat_inj, hr, Slot.dims_rank_three hr]

theorem unpackShapeOk_iff {c : Snapshot} (hr : c.slotB.rank.toNat ∈ [1, 2, 3]) :
    UnpackShapeOk c ↔ c.slotO.dims = outputShape .unpackI4 c := by
  unfold UnpackShapeOk outputShape
  obtain hr | hr | hr : c.slotB.rank.toNat = 1 ∨ c.slotB.rank.toNat = 2 ∨ c.slotB.rank.toNat = 3 := by simpa using hr
  · simp [← BitVec.toNat_inj, hr, Slot.last, Slot.dims_rank_one hr]
  · simp [← BitVec.toNat_inj, hr, Slot.last, Slot.dims_rank_two hr]
  · simp [← BitVec.toNat_inj, hr, Slot.last, Slot.dims_rank_three hr]

/-- The output shape is the one written out by rank, once the ranks are allowed (60_exceptions.md R175). -/
theorem outputShapeOk_iff {i : Instr} {c : Snapshot} (h : checkRank i c = none) :
    OutputShapeOk i c ↔ c.slotO.dims = outputShape i c := by
  cases i with
  | mmtfp | mmtQ8 | mmtQ4 => exact matmulShapeOk_iff (rank_mem_of_checkRank h 0 [.f32] [2, 3] (by simp [roles]))
  | unpackI4 => exact unpackShapeOk_iff (rank_mem_of_checkRank h 1 [.u8] [1, 2, 3] (by simp [roles]))
  | dequantQ8 | dequantQ4 => exact Iff.rfl

theorem scaleSlots_ascending (i : Instr) : (scaleSlots i).Pairwise (· < ·) := by cases i <;> decide

theorem inputSlots_ascending (i : Instr) : (inputSlots i).Pairwise (· < ·) := by cases i <;> decide

/-! The start checks in their order. -/

/-- No command violates the two checks of the command word (60_exceptions.md R174). -/
theorem position_of_violates {i : Instr} {c : Snapshot} {p : Platform} {f : Failure} (h : Violates i c p f) :
    2 < f.check.position := by
  cases hf : f.check
  case opReserved | cmdRsvdBits => simp [Violates, hf] at h
  all_goals decide

/-- The thirteen checks one after the other; the output shape is read by rank, which the second of them allows. -/
theorem check_firstOf (i : Instr) (c : Snapshot) (p : Platform) : FirstOf (Violates i c p) (check i c p) := by
  have hall : Violates i c p = AfterPlace (Violates i c p) 2 :=
    funext fun f => propext ⟨fun h => ⟨position_of_violates h, h⟩, fun h => h.2⟩
  rw [hall]
  unfold check
  refine .cons (k := .dtypeNotAllowed) rfl (firstOf_firstSlot fun n => ?_) fun _ => ?_
  · simp [Violates, ← Bool.not_eq_true, dtypeAllowed_iff]
  refine .cons (k := .rankNotAllowed) rfl (firstOf_firstSlot fun n => ?_) fun hrank => ?_
  · simp [Violates, ← Bool.not_eq_true, rankAllowed_iff]
  refine .cons (k := .dimZero) rfl (firstOf_firstSlot fun n => ?_) fun _ => ?_
  · simp [Violates]
  refine .cons (k := .blockIllegal) rfl (firstOf_failUnless fun n => ?_) fun _ => ?_
  · simp [Violates, blockLegal_eq_false_iff]
  refine .cons (k := .packedDimMismatch) rfl (firstOf_failUnless fun n => ?_) fun _ => ?_
  · simp [Violates, packedDimAgrees_eq_false_iff]
  refine .cons (k := .scaleShapeMismatch) rfl (firstOf_find? (scaleSlots_ascending i) fun n => ?_) fun _ => ?_
  · simp [Violates, scaleShape]
  refine .cons (k := .kNotDivisible) rfl (firstOf_failUnless fun n => ?_) fun _ => ?_
  · simp [Violates, blockDividesK_eq_false_iff]
  refine .cons (k := .innerDimMismatch) rfl (firstOf_failUnless fun n => ?_) fun _ => ?_
  · simp [Violates, innerDimsAgree_eq_false_iff]
  refine .cons (k := .outputShapeMismatch) rfl (firstOf_failUnless fun n => ?_) fun _ => ?_
  · simp [Violates, outputShapeOk_iff hrank]
  refine .cons (k := .misaligned) rfl (firstOf_firstSlot fun n => ?_) fun _ => ?_
  · simp [Violates]
  refine .cons (k := .rangeWrap) rfl (firstOf_firstSlot fun n => ?_) fun _ => ?_
  · simp only [Violates, decide_eq_true_eq]
    exact Iff.rfl
  refine .cons (k := .notAdmitted) rfl (firstOf_firstSlot fun n => ?_) fun _ => ?_
  · simp [Violates, ← Bool.not_eq_true, rangeAdmitted_iff, slotAccess]
  refine .cons (k := .outputOverlap) rfl (firstOf_find? (inputSlots_ascending i) fun n => ?_) fun _ => ?_
  · simp [Violates, regionsMeet, rangesMeet_iff]
  exact .nil _

/-- Settles O23: each check reports its lowest violated slot, and the first check that reports anything is the one reported. -/
theorem checkReportsFirstViolation : Obligations.CheckReportsFirstViolation := by
  unfold Obligations.CheckReportsFirstViolation
  intro i c p
  exact ⟨(check_firstOf i c p).eq_some_iff, (check_firstOf i c p).eq_none_iff⟩

end Sys2Proof.Machine
end

section
/-! The command in flight reads the snapshot, never the live operand registers (10_state.md R40, 70_reset_and_hazards.md R207). -/

namespace Sys2Proof.Machine

/-- The state with other values in CMD, BLOCK and the slots. -/
def State.setLive (s : State) (c : Snapshot) : State := { s with cmd := c.cmd, block := c.block, slots := c.slots }

/-- A write of CMD, BLOCK or a slot word changes the live operand registers alone, by a function of their values (10_state.md
R30 to R36). -/
theorem writeReg_operand {r : Reg} (h : r = .cmd ∨ r = .block ∨ ∃ j w, r = .slot j w) (v : Word) :
    ∃ f : Snapshot → Snapshot, ∀ s, writeReg r v s = s.setLive (f s.live) := by
  rcases h with rfl | rfl | ⟨j, w, rfl⟩
  · exact ⟨fun c => { c with cmd := v }, fun _ => rfl⟩
  · exact ⟨fun c => { c with block := v }, fun _ => rfl⟩
  · exact ⟨fun c => { c with slots := c.slots.set j ((c.slots.get j).setWord w v) }, fun _ => rfl⟩

/-- A command leaves the live operand registers alone (60_exceptions.md R177, R178). -/
theorem exec_live {i : Instr} {s t : State} (e : exec i s = .next t) : t.live = s.live := by
  rcases exec_cases i s with ⟨f, -, h⟩ | ⟨-, -, h⟩ | ⟨-, h⟩ <;> cases h.symm.trans e
  · rfl
  · simp only [State.live, finish_cmd, finish_block, finish_slots, execute_cmd, execute_block, execute_slots]

/-- Execute does not look at the live operand registers. -/
theorem execute_setLive (value : Snapshot → Memory → List Nat → Nat) (s : State) (c : Snapshot) :
    execute value (s.setLive c) = (execute value s).setLive c := by
  rcases Bool.eq_false_or_eq_true s.tainted with ht | ht
  · rw [execute_of_tainted ht, execute_of_tainted (s := s.setLive c) ht]
    rfl
  · rw [execute_of_untainted ht, execute_of_untainted (s := s.setLive c) ht]
    rfl

/-- A command answers the same whatever the live operand registers hold, and leaves them so. -/
theorem exec_setLive {i : Instr} {s t : State} (c : Snapshot) (e : exec i s = .next t) :
    exec i (s.setLive c) = .next (t.setLive c) := by
  rcases exec_cases i s with ⟨f, hf, he⟩ | ⟨-, -, he⟩ | ⟨hruns, he⟩ <;> cases he.symm.trans e
  · exact exec_of_check_some (s := s.setLive c) hf
  · rw [exec_of_runs (s := s.setLive c) hruns, execute_setLive]
    rfl

/-- Settles O16: such a write sets live operand registers alone, to the same values before and after the command, which neither
reads nor changes them. -/
theorem runningCommandIgnoresRegisterWrites : Obligations.RunningCommandIgnoresRegisterWrites := by
  unfold Obligations.RunningCommandIgnoresRegisterWrites
  intro s t i r v hr e
  obtain ⟨f, hf⟩ := writeReg_operand hr v
  rw [hf s, hf t, exec_live e]
  exact exec_setLive (f s.live) e

end Sys2Proof.Machine
end

section
/-! Every operation of the engine and of the Host keeps the invariant (10_state.md R27 to R29, 60_exceptions.md R171, R177, R178). -/

namespace Sys2Proof.Machine

/-! The shared operations of a command's life. -/

/-- An accepted start leaves no completion, no report and no hazard. -/
theorem Inv.after_accept {s : State} (h : Inv s) : Inv (accept s) where
  status := ⟨nofun, fun _ => ⟨rfl, rfl⟩⟩
  report := ⟨.inl ⟨rfl, rfl, rfl⟩, fun _ => ⟨rfl, rfl, rfl⟩, nofun⟩
  memory := h.memory
  hazard := nofun

/-- Reset leaves no completion, no report and no hazard (70_reset_and_hazards.md R200 to R203). -/
theorem Inv.after_resetEngine {s : State} (h : Inv s) : Inv (resetEngine s) where
  status := ⟨nofun, nofun⟩
  report := ⟨.inl ⟨rfl, rfl, rfl⟩, fun _ => ⟨rfl, rfl, rfl⟩, nofun⟩
  memory := ⟨resetEngine_wf h.memory.1, resetEngine_inSpace h.memory.2⟩
  hazard := nofun

/-- An error completion of a command in flight leaves ERROR alone and the row that it records. -/
theorem Inv.after_raise {s : State} (h : Inv s) (hb : s.busy = true) {f : Failure} (hf : f.check.canName f.slot.toNat = true) :
    Inv (raise f s) := by
  have hdone : s.done ≠ true := by simp [(h.status.2 hb).1]
  have hrow : ReportOfTable (raise f s) := ⟨f.check, rfl, rfl, hf⟩
  exact {
    status := ⟨fun hde => hdone hde.1, nofun⟩
    report := ⟨.inr hrow, fun hd => absurd (hd.resolve_left nofun) hdone, fun _ => hrow⟩
    memory := h.memory
    hazard := nofun }

/-- A successful completion of a command in flight leaves DONE alone and no report. -/
theorem Inv.after_finish {s : State} (h : Inv s) (hb : s.busy = true) : Inv (finish s) := by
  have herror : s.error ≠ true := by simp [(h.status.2 hb).2]
  have hempty : ReportEmpty s := h.report.2.1 (.inl hb)
  exact {
    status := ⟨fun hde => herror hde.2, nofun⟩
    report := ⟨.inl hempty, fun _ => hempty, fun he => absurd he herror⟩
    memory := h.memory
    hazard := nofun }

/-- Execute of a command whose output region exists keeps the invariant. -/
theorem Inv.after_execute {s : State} (h : Inv s) (value : Snapshot → Memory → List Nat → Nat)
    (ho : s.snap.slotO.addr + s.snap.slotO.bytes ≤ Config.addrSpace) : Inv (execute value s) := by
  have hmem : MemoryCanonical (execute value s) := ⟨execute_wf value h.memory.1, execute_inSpace value h.memory.2 ho⟩
  rcases Bool.eq_false_or_eq_true s.tainted with ht | ht
  · rw [execute_of_tainted ht] at hmem ⊢
    exact ⟨h.status, h.report, hmem, h.hazard⟩
  · rw [execute_of_untainted ht] at hmem ⊢
    exact ⟨h.status, h.report, hmem, h.hazard⟩

/-- A STATUS write only clears (10_state.md R27). -/
theorem Inv.after_writeStatus {s : State} (h : Inv s) (v : Word) : Inv (writeStatus v s) := by
  have hdone : (writeStatus v s).done = true → s.done = true := fun hd => (Bool.and_eq_true_iff.mp hd).1
  have herror : (writeStatus v s).error = true → s.error = true := fun he => (Bool.and_eq_true_iff.mp he).1
  exact {
    status := ⟨fun hde => h.status.1 ⟨hdone hde.1, herror hde.2⟩, fun hb => by simp [h.status.2 hb]⟩
    report := ⟨h.report.1, fun hbd => h.report.2.1 (hbd.imp_right hdone), fun he => h.report.2.2 (herror he)⟩
    memory := h.memory
    hazard := h.hazard }

/-! Register writes and the Host's lines. -/

theorem Inv.after_writeCtrl {s : State} (h : Inv s) (v : Word) : Inv (writeCtrl v s) := by
  have hirq : Inv { s with irqEn := v.getLsbD 2 } := ⟨h.status, h.report, h.memory, h.hazard⟩
  cases h1 : v.getLsbD 1 with
  | true => exact writeCtrl_softReset s h1 ▸ h.after_resetEngine
  | false =>
    cases h0 : v.getLsbD 0 with
    | false => exact writeCtrl_no_request s h1 h0 ▸ hirq
    | true =>
      cases hb : s.busy with
      | false => exact writeCtrl_start_idle h1 h0 hb ▸ hirq.after_accept
      | true =>
        rw [writeCtrl_start_busy h1 h0 hb]
        exact ⟨h.status, h.report, h.memory, h.hazard⟩

theorem Inv.after_writeReg {s : State} (h : Inv s) (r : Reg) (v : Word) : Inv (writeReg r v s) := by
  cases r with
  | ctrl => exact h.after_writeCtrl v
  | status => exact h.after_writeStatus v
  | id | version | errCode | errInfo | reserved => exact h
  | cmd | block | slot => exact ⟨h.status, h.report, h.memory, h.hazard⟩

/-- A byte range meets a region of the command in flight only while there is one (20_memory.md R78, R79). -/
theorem busy_of_meets {s : State} {a n : Nat} (h : meetsInput s a n = true ∨ meetsOutput s a n = true) : s.busy = true :=
  h.elim (fun h => (Bool.and_eq_true_iff.mp h).1) fun h => (Bool.and_eq_true_iff.mp h).1

theorem Inv.after_hostStep {s t : State} (h : Inv s) (e : hostStep s = .next t) : Inv t := by
  rcases hostStep_cases e with rfl | ⟨line, -, e⟩
  · exact h
  · rcases hostExec_cases e with ⟨off, v, -, rfl⟩ | ⟨n, a, v, -, hspace, rfl⟩ | ⟨l, b, d, rfl⟩
    · have hw := h.after_writeReg (regAt off) v
      exact ⟨hw.status, hw.report, hw.memory, hw.hazard⟩
    · refine ⟨h.status, h.report, ⟨memWrite_wf h.memory.1 a n v, memWrite_inSpace h.memory.2 hspace v⟩, fun ht => ?_⟩
      obtain (ht | ht) | ht : (s.tainted = true ∨ meetsInput s a n = true) ∨ meetsOutput s a n = true := by simpa using ht
      · exact h.hazard ht
      · exact busy_of_meets (.inl ht)
      · exact busy_of_meets (.inr ht)
    · exact ⟨h.status, h.report, h.memory, h.hazard⟩

theorem Inv.after_engineStep {s t : State} (h : Inv s) (e : engineStep s = .next t) : Inv t := by
  rcases engineStep_cases e with ⟨-, rfl⟩ | ⟨hb, f, hf, rfl⟩ | ⟨hb, i, -, ⟨hcheck, -⟩, rfl⟩
  · exact h
  · exact h.after_raise hb hf
  · exact (h.after_execute (outputValue i) (output_in_space hcheck)).after_finish ((execute_busy _ s).trans hb)

/-- Settles O57: by the agents that move in the step, each of which keeps the invariant. -/
theorem stepKeepsInvariant : Obligations.StepKeepsInvariant := by
  unfold Obligations.StepKeepsInvariant
  intro s t h e
  have htail : Inv { s with events := s.events.tail } := ⟨h.status, h.report, h.memory, h.hazard⟩
  rcases step_cases e with ⟨-, et⟩ | et | ⟨-, u, eu, ⟨-, et⟩ | ⟨-, rfl⟩⟩ | ⟨-, rfl⟩ | ⟨p, -, rfl⟩
  · exact htail.after_hostStep et
  · exact htail.after_engineStep et
  · exact (htail.after_hostStep eu).after_engineStep et
  · exact htail.after_hostStep eu
  · exact htail.after_resetEngine
  · exact ⟨h.status, h.report, h.memory, h.hazard⟩

/-- Settles O56: every field of the reset state that the invariant speaks of is 0 or empty. -/
theorem resetMeetsInvariant : Obligations.ResetMeetsInvariant where
  status := ⟨nofun, nofun⟩
  report := ⟨.inl ⟨rfl, rfl, rfl⟩, fun _ => ⟨rfl, rfl, rfl⟩, nofun⟩
  memory := ⟨rfl, rfl⟩
  hazard := nofun

end Sys2Proof.Machine
end

section
/-! The command words (30_encoding.md R93, R96, R97, R102), the steps that run a command or a Host line (30_encoding.md R103,
60_exceptions.md R170), and the error completion (60_exceptions.md R178). -/

namespace Sys2Proof

theorem decode_encode (i : Instr) : decode (encode i) = .command i := decode_eq_command_iff.mpr (eq_encode_iff.mp rfl)

theorem wordWellFormed_encode (i : Instr) : wordWellFormed (encode i) = true := by cases i <;> decide

/-- Settles O1: a command word decodes to its command, and the six words are the encodings. -/
theorem commandWordsDecode : Obligations.CommandWordsDecode := by
  unfold Obligations.CommandWordsDecode
  exact ⟨fun i _ => ⟨decode_encode i, wordWellFormed_encode i⟩, decode_encode .mmtfp, decode_encode .mmtQ8,
    decode_encode .mmtQ4, decode_encode .unpackI4, decode_encode .dequantQ8, decode_encode .dequantQ4⟩

end Sys2Proof

namespace Sys2Proof.Machine

/-! Which agent's operation a step is (60_exceptions.md R170; log 5). -/

theorem step_of_no_event {s : State} (h : s.events = []) : step s = if s.busy then engineStep s else hostStep s := by
  simp only [step, h, defaultStep]

theorem step_of_event {s : State} {e : Event} {rest : List Event} (h : s.events = e :: rest) :
    step s = eventStep e { s with events := rest } := by
  simp only [step, h]

theorem engineStep_of_command {s : State} {i : Instr} (hb : s.busy = true) (hd : decode s.snap.cmd = .command i) :
    engineStep s = exec i s := by
  simp only [engineStep, hb, hd, if_true]

theorem engineStep_of_illegal {s : State} {why : IllegalCmd} (hb : s.busy = true) (hd : decode s.snap.cmd = .illegal why) :
    engineStep s = .next (raise (illegalFailure why) s) := by
  simp only [engineStep, hb, hd, if_true]

theorem hostStep_of_line {s : State} {h : HostInstr} (hl : s.script[s.line]? = some h) : hostStep s = hostExec h s := by
  simp only [hostStep, hl]

/-- The Engine's step, by its event or because no event is pending (log 5). -/
theorem step_of_engine_turn {s : State} (hb : s.busy = true) (hev : s.events = [] ∨ ∃ rest, s.events = .engine :: rest) :
    step s = engineStep { s with events := s.events.tail } := by
  rcases hev with hev | ⟨rest, hev⟩
  · have hs : { s with events := s.events.tail } = s := by rw [hev, List.tail_nil, ← hev]
    rw [step_of_no_event hev, if_pos hb, hs]
  · rw [step_of_event hev, hev]
    rfl

/-- Settles O3: the Engine's step is `exec` of the decoded command. -/
theorem stepRunsDecodedCommand : Obligations.StepRunsDecodedCommand := by
  unfold Obligations.StepRunsDecodedCommand
  intro s i hb hd
  refine ⟨fun hev => ?_, fun rest hev => ?_⟩
  · rw [step_of_no_event hev, if_pos hb, engineStep_of_command hb hd]
  · rw [step_of_event hev]
    exact engineStep_of_command (s := { s with events := rest }) hb hd

/-- Settles O4: the Host's step is its next script line. -/
theorem stepRunsHostLine : Obligations.StepRunsHostLine := by
  unfold Obligations.StepRunsHostLine
  intro s h hl
  refine ⟨fun hev hb => ?_, fun rest hev => ?_⟩
  · rw [step_of_no_event hev, hb, if_neg Bool.false_ne_true, hostStep_of_line hl]
  · rw [step_of_event hev]
    exact hostStep_of_line (s := { s with events := rest }) hl

theorem withFetchWord_encode (s : State) (i : Instr) :
    s.withFetchWord 32 (encode i).toNat = loadCommand (encode i) s := by
  rw [State.withFetchWord, Nat.mod_eq_of_lt (encode i).isLt, BitVec.ofNat_toNat, BitVec.setWidth_eq]

/-- Settles O5: the accepted word is the snapshot's CMD, and with no event pending the Engine runs it. -/
theorem fetchedWordRunsNext : Obligations.FetchedWordRunsNext := by
  unfold Obligations.FetchedWordRunsNext
  intro s i
  rw [withFetchWord_encode]
  exact ⟨(stepRunsDecodedCommand (loadCommand (encode i) s) i rfl (decode_encode i)).1 rfl, rfl, rfl⟩

/-- Settles O6: such a word fails the first or the second check, which is the error completion. -/
theorem illegalWordEndsInError : Obligations.IllegalWordEndsInError := by
  unfold Obligations.IllegalWordEndsInError
  intro s hb
  obtain ⟨hop, hrsvd, -⟩ := decodeClassifiesEveryWord s.snap.cmd
  exact ⟨fun h => engineStep_of_illegal hb (hop.mpr h), fun h h' => engineStep_of_illegal hb (hrsvd.mpr ⟨h, h'⟩)⟩

/-! The error completion. -/

theorem errInfoWord_toNat (s : State) : (errInfoWord s).toNat = s.errSlot.toNat * 256 + s.errCheck.toNat := by
  have happ : (errInfoWord s).toNat = (0#21 ++ s.errSlot).toNat <<< 8 ||| s.errCheck.toNat := BitVec.toNat_append _ _
  rw [happ, ← Nat.shiftLeft_add_eq_or_of_lt s.errCheck.isLt, Nat.shiftLeft_eq, BitVec.toNat_append]
  simp

theorem errCodeWord_toNat (s : State) : (errCodeWord s).toNat = s.errCode.toNat :=
  BitVec.toNat_setWidth_of_le (by decide)

/-- Settles O24: a failed check is the error completion with that failure. -/
theorem failedCheckEndsInError : Obligations.FailedCheckEndsInError := by
  unfold Obligations.FailedCheckEndsInError
  intro i s f hf
  exact ⟨raise f s, exec_of_check_some hf, rfl, errCodeWord_toNat _, errInfoWord_toNat _⟩

/-- Settles O21: by evaluation of the table. -/
theorem checkCodesAreTheTable : Obligations.CheckCodesAreTheTable := by
  unfold Obligations.CheckCodesAreTheTable
  decide

end Sys2Proof.Machine
end

section
/-! The register map, and what register reads and writes do (10_state.md R23 to R45). -/

namespace Sys2Proof.Machine

/-! The register map (10_state.md R23, R32). -/

theorem slotRegAt_offset (j : Fin 5) (w : SlotWord) : slotRegAt (0x20 * j.val + w.offset) = .slot j w := by
  fin_cases j <;> cases w <;> rfl

theorem regAt_slot_offset (j : Fin 5) (w : SlotWord) : regAt (0x040 + 0x20 * j.val + w.offset) = .slot j w := by
  rw [regAt_from_slots (by omega), Nat.add_assoc, Nat.add_sub_cancel_left, slotRegAt_offset]

theorem regAt_offset (r : Reg) : regAt r.offset = r := by
  cases r with
  | slot j w => exact regAt_slot_offset j w
  | _ => rfl

theorem SlotWord.offset_range (w : SlotWord) : w.offset % 4 = 0 ∧ w.offset < 0x20 := by cases w <;> decide

theorem Reg.offset_range (r : Reg) : r.offset % 4 = 0 ∧ r.offset < 4096 := by
  cases r with
  | slot j w =>
    have := w.offset_range
    simp only [Reg.offset]
    omega
  | _ => decide

theorem eq_of_slotOfNat_eq_some {n : Nat} {j : Fin 5} (h : slotOfNat n = some j) : j.val = n := by
  unfold slotOfNat at h
  split at h <;> cases h <;> rfl

theorem offset_of_slotWordAt_eq_some {n : Nat} {w : SlotWord} (h : slotWordAt n = some w) : w.offset = n := by
  unfold slotWordAt at h
  split at h <;> cases h <;> rfl

theorem slotRegAt_cases (off : Nat) :
    slotRegAt off = .reserved ∨ ∃ j w, slotRegAt off = .slot j w ∧ 0x20 * j.val + w.offset = off := by
  unfold slotRegAt
  split
  next j w hj hw =>
    have := eq_of_slotOfNat_eq_some hj
    have := offset_of_slotWordAt_eq_some hw
    exact .inr ⟨j, w, rfl, by omega⟩
  next => exact .inl rfl

/-- An offset holds a reserved register or its own. -/
theorem offset_regAt (off : Nat) : regAt off = .reserved ∨ (regAt off).offset = off := by
  unfold regAt
  split
  case h_9 =>
    split
    · exact .inl rfl
    · rcases slotRegAt_cases (off - 0x040) with h | ⟨j, w, h, hoff⟩
      · exact .inl h
      · refine .inr ?_
        rw [h, Reg.offset]
        omega
  all_goals exact .inr rfl

theorem offsetOfMmio_mmioAddr {off : Nat} (h : off < 4096) : offsetOfMmio (mmioAddr off) = some off := by
  have hin : Config.engineBase ≤ mmioAddr off ∧ mmioAddr off < Config.engineBase + Config.registerBlockBytes :=
    ⟨Nat.le_add_right _ _, Nat.add_lt_add_left h _⟩
  rw [offsetOfMmio, if_pos hin, mmioAddr, Nat.add_sub_cancel_left]

/-- Settles O13: the map and `Reg.offset` are inverse to each other. -/
theorem registerMapIsOneToOne : Obligations.RegisterMapIsOneToOne := by
  unfold Obligations.RegisterMapIsOneToOne
  refine ⟨⟨rfl, rfl, rfl, rfl, rfl, rfl, rfl, rfl⟩, fun j => ?_, fun r => ⟨regAt_offset r, r.offset_range⟩, offset_regAt,
    Nat.mul_mod_right _ _, fun off => offsetOfMmio_mmioAddr⟩
  exact ⟨regAt_slot_offset j .addrLo, regAt_slot_offset j .addrHi, regAt_slot_offset j .desc, regAt_slot_offset j .dim0,
    regAt_slot_offset j .dim1, regAt_slot_offset j .dim2⟩

/-! The flag words bit by bit (10_state.md R26, R27). -/

theorem flagAt_getLsbD (b : Bool) {n : Nat} (hn : n < 32) (k : Nat) : (flagAt b n).getLsbD k = (b && decide (k = n)) := by
  cases b with
  | false => simp [flagAt]
  | true =>
    simp only [flagAt, if_true, BitVec.getLsbD_ofNat, Nat.testBit_two_pow, Bool.true_and, ← Bool.decide_and,
      decide_eq_decide]
    omega

theorem statusWord_getLsbD (s : State) (k : Nat) :
    (statusWord s).getLsbD k =
      (s.busy && decide (k = 0) || s.done && decide (k = 1) || s.error && decide (k = 2) || s.overrun && decide (k = 3)) := by
  simp [statusWord, flagAt_getLsbD]

@[simp] theorem readReg_status (s : State) : readReg .status s = statusWord s := rfl

theorem readReg_status_writeStatus (v : Word) (s : State) :
    readReg .status (writeStatus v s) = readReg .status s &&& ~~~(v &&& 0x0000000E#32) := by
  refine BitVec.eq_of_getLsbD_eq fun k hk => ?_
  simp only [readReg_status, BitVec.getLsbD_and, BitVec.getLsbD_not, hk, statusWord_getLsbD, decide_true, Bool.true_and]
  match k with
  | 0 | 1 | 2 | 3 => simp
  | k + 4 => simp

/-- A STATUS write changes no other register (10_state.md R27). -/
theorem readReg_writeStatus_of_ne {r : Reg} (h : r ≠ .status) (v : Word) (s : State) :
    readReg r (writeStatus v s) = readReg r s := by
  cases r with
  | status => exact absurd rfl h
  | _ => rfl

/-- Settles O9: STATUS is four flags, and the write masks three of them. -/
theorem statusWriteOneToClear : Obligations.StatusWriteOneToClear := by
  unfold Obligations.StatusWriteOneToClear
  intro s v
  refine ⟨?_, readReg_status_writeStatus v s, fun r hr => readReg_writeStatus_of_ne hr v s, rfl, rfl⟩
  simp only [readReg_status, statusWord_getLsbD]
  refine ⟨by simp, by simp, by simp, by simp, fun k hk => ?_⟩
  obtain ⟨k, rfl⟩ := Nat.exists_eq_add_of_le' hk
  simp

/-- CTRL reads the bit of IRQ_EN alone (10_state.md R26). -/
theorem ctrlWord_of_irqEn {s : State} {v : Word} (h : s.irqEn = v.getLsbD 2) : ctrlWord s = v &&& 0x00000004#32 := by
  refine BitVec.eq_of_getLsbD_eq fun k hk => ?_
  have hbit : (0x00000004#32).getLsbD k = (true && decide (k = 2)) := flagAt_getLsbD true (n := 2) (by decide) k
  rw [ctrlWord, flagAt_getLsbD _ (by decide), BitVec.getLsbD_and, hbit, h]
  by_cases hk2 : k = 2 <;> simp [hk2]

/-! Slot words (10_state.md R32 to R36). -/

theorem descWord_toNat (t : Slot) : (descWord t).toNat = t.rank.toNat * 16 + t.dtype.toNat := by
  have happ : (descWord t).toNat = (0#26 ++ t.rank).toNat <<< 4 ||| t.dtype.toNat := BitVec.toNat_append _ _
  rw [happ, ← Nat.shiftLeft_add_eq_or_of_lt t.dtype.isLt, Nat.shiftLeft_eq, BitVec.toNat_append]
  simp

theorem Slot.word_setWord_same (t : Slot) (w : SlotWord) (v : Word) :
    (t.setWord w v).word w = if w = .desc then v &&& 0x0000003F#32 else v := by
  cases w with
  | desc =>
    apply BitVec.eq_of_toNat_eq
    have hmask : (v &&& 0x0000003F#32).toNat = v.toNat % 2 ^ 6 :=
      (BitVec.toNat_and _ _).trans (Nat.and_two_pow_sub_one_eq_mod _ 6)
    simp only [Slot.word, Slot.setWord, descWord_toNat, if_true, hmask, BitVec.extractLsb'_toNat,
      Nat.shiftRight_eq_div_pow]
    omega
  | _ => rfl

theorem Slot.word_setWord_other (t : Slot) {w w' : SlotWord} (h : w' ≠ w) (v : Word) :
    (t.setWord w v).word w' = t.word w' := by
  cases w <;> cases w' <;> simp [Slot.setWord, Slot.word, descWord] at h ⊢

/-- Settles O10: each of these registers is a field that the write sets; DESC is two fields of six bits together. -/
theorem writtenRegistersReadBack : Obligations.WrittenRegistersReadBack := by
  unfold Obligations.WrittenRegistersReadBack
  intro s v
  refine ⟨fun h0 h1 => ?_, rfl, rfl, fun j w => ?_⟩
  · rw [writeReg_ctrl, writeCtrl_no_request s h1 h0]
    exact ⟨rfl, ctrlWord_of_irqEn rfl⟩
  · rw [← (s.slots.get j).word_setWord_same w v, readReg, writeReg, Slots.get_set_same]

/-- A write of an operand register leaves what the others read (10_state.md R38). -/
theorem readReg_writeReg_operand {r r' : Reg} (h : r = .cmd ∨ r = .block ∨ ∃ j w, r = .slot j w) (hne : r' ≠ r) (v : Word)
    (s : State) : readReg r' (writeReg r v s) = readReg r' s := by
  rcases h with rfl | rfl | ⟨j, w, rfl⟩
  · cases r' with
    | cmd => exact absurd rfl hne
    | _ => rfl
  · cases r' with
    | block => exact absurd rfl hne
    | _ => rfl
  · cases r' with
    | slot j' w' =>
      simp only [readReg, writeReg]
      by_cases hj : j' = j
      · subst hj
        rw [Slots.get_set_same, Slot.word_setWord_other _ fun hw => hne (congrArg (Reg.slot j') hw)]
      · rw [Slots.get_set_other _ _ hj]
    | _ => rfl

/-- Settles O11: the write sets live operand registers alone. -/
theorem operandRegisterWriteFrame : Obligations.OperandRegisterWriteFrame := by
  unfold Obligations.OperandRegisterWriteFrame
  intro s v r r' hr hne
  refine ⟨readReg_writeReg_operand hr hne v s, ?_⟩
  obtain ⟨f, hf⟩ := writeReg_operand hr v
  rw [hf]
  exact ⟨rfl, rfl, rfl, rfl⟩

/-! The Host's accesses (10_state.md R38). -/

theorem withReg_of_refusal {width off : Nat} {r : Refusal} (h : accessRefusal width off = some r) (k : Reg → Outcome) :
    withReg width off k = .refused r := by
  simp only [withReg, h]

/-- Settles O15: the access rules by width and alignment. -/
theorem hostRegisterAccess : Obligations.HostRegisterAccess := by
  unfold Obligations.HostRegisterAccess
  intro s width off name v hoff
  refine ⟨?_, fun h => ?_⟩
  · rintro rfl h4
    exact ⟨hostExec_wr_of_aligned hoff h4 v s, hostExec_rd_of_aligned hoff h4 name s⟩
  · obtain ⟨r, hr⟩ : ∃ r, accessRefusal width off = some r := by
      refine Option.ne_none_iff_exists'.mp fun hn => ?_
      have := accessRefusal_eq_none_iff.mp hn
      omega
    exact ⟨⟨r, withReg_of_refusal hr fun x => .next (nextLine (writeReg x v s))⟩,
      r, withReg_of_refusal hr fun x => .next (nextLine (bindName name (readReg x s) s))⟩

/-! Start and reset (60_exceptions.md R171, 70_reset_and_hazards.md R200 to R209). -/

/-- Settles O7: such a write is the accepted start. -/
theorem startAcceptedWhenIdle : Obligations.StartAcceptedWhenIdle := by
  unfold Obligations.StartAcceptedWhenIdle
  intro s v hb h0 h1
  exact ⟨writeCtrl_start_idle h1 h0 hb, irq_writeCtrl_start_idle hb h0⟩

theorem Slots.get_zero (j : Fin 5) : Slots.zero.get j = .zero := by fin_cases j <;> rfl

/-- The reset values of the registers (10_state.md R45). -/
theorem readReg_resetEngine (r : Reg) (s : State) : readReg r (resetEngine s) =
    if r = .id then 0x51474531#32 else if r = .version then 0x00000001#32 else 0#32 := by
  cases r with
  | slot j w =>
    rw [readReg, resetEngine_slots, Slots.get_zero]
    cases w <;> rfl
  | status => simp [statusWord, flagAt]
  | errInfo => simp [readReg, errInfoWord]
  | _ => rfl

/-- A reset leaves the machine right after reset as it is (10_state.md R45). -/
theorem resetEngine_reset : resetEngine State.reset = State.reset := rfl

/-- Settles O20: a reset leaves that machine as it is, and gives every register its reset value. -/
theorem resetStateRegisters : Obligations.ResetStateRegisters := by
  unfold Obligations.ResetStateRegisters
  exact ⟨fun r => resetEngine_reset ▸ readReg_resetEngine r State.reset, rfl, rfl⟩

/-- Settles O18: SOFT_RESET wins over START, and both resets are `resetEngine`. -/
theorem softResetRestoresRegisters : Obligations.SoftResetRestoresRegisters := by
  unfold Obligations.SoftResetRestoresRegisters
  intro s v r h1
  rw [writeReg_ctrl, writeCtrl_softReset s h1]
  refine ⟨fun rest hev => ?_, readReg_resetEngine r s, rfl, irq_resetEngine s⟩
  rw [step_of_event hev, writeReg_ctrl, writeCtrl_softReset _ h1]
  rfl

/-- A reset gives every existing byte of an aborted command's output region a free value (70_reset_and_hazards.md R202). -/
theorem resetEngine_read_inside {s : State} (hm : s.mem.wf = true) (hb : s.busy = true) {a : Nat}
    (ha : InRegion s.snap.slotO a) (hspace : a < Config.addrSpace) :
    (resetEngine s).mem.read a = Config.freeByte s.draws a := by
  obtain ⟨hlo, hhi⟩ := ha
  simp only [resetEngine_mem, abortInFlight, hb, if_true]
  refine scramble_read_inside s.draws hm _ _ hlo ?_
  unfold abortedBytes
  omega

/-- Settles O19: reset changes memory by the abort of a command in flight alone. -/
theorem resetAbortsCommandInFlight : Obligations.ResetAbortsCommandInFlight := by
  unfold Obligations.ResetAbortsCommandInFlight
  intro s hm
  refine ⟨fun hb => ?_, fun a ha => resetEngine_read_outside s (.inr (not_inRegion_iff.mp ha)),
    fun hb a ha hspace => resetEngine_read_inside hm hb ha hspace, rfl, rfl, rfl, irq_resetEngine s⟩
  simp [abortInFlight, hb]

end Sys2Proof.Machine
end

section
/-! How a command in flight ends, and what stays fixed until it does (60_exceptions.md R177, R178, R189, 20_memory.md R68, R72,
R78, R79). -/

namespace Sys2Proof.Machine

/-! The ends of one command. -/

/-- Settles O34: Execute after a hazard fills the output region with free values, and the command completes. -/
theorem hazardLeavesOutputUnspecified : Obligations.HazardLeavesOutputUnspecified := by
  unfold Obligations.HazardLeavesOutputUnspecified
  intro i s hm ht hruns
  refine ⟨scramble s.draws s.mem s.snap.slotO.addr s.snap.slotO.bytes, ?_,
    fun a ha => scramble_read_other _ _ _ _ (not_inRegion_iff.mp ha), fun a ha => scramble_read_inside _ hm _ _ ha.1 ha.2⟩
  rw [exec_of_runs hruns, execute_of_tainted ht]
  rfl

theorem rangeSensitive_iff {p : Platform} {a n : Nat} :
    rangeSensitive p a n = true ↔
      ∃ r ∈ p, r.restriction = .readSensitive ∧ ∃ x, (a ≤ x ∧ x < a + n) ∧ r.base ≤ x ∧ x < r.base + r.size := by
  simp [rangeSensitive, rangesMeet_iff]

theorem exec_of_readsSensitive {i : Instr} {s : State} (hc : check i s.snap s.platform = none)
    (hr : readsSensitive i s.snap s.platform = true) : exec i s = .refused .readSensitiveRegion := by
  simp only [exec_eq_runCommand, runCommand, hc, hr, if_true]

/-- Settles O35: such a byte makes its input region read-sensitive. -/
theorem readSensitiveInputIsRefused : Obligations.ReadSensitiveInputIsRefused := by
  unfold Obligations.ReadSensitiveInputIsRefused
  intro i s j r a hc hj ha hr hsens hlo hhi
  exact exec_of_readsSensitive hc
    (List.any_eq_true.mpr ⟨j, hj, rangeSensitive_iff.mpr ⟨r, hr, hsens, a, ha, hlo, hhi⟩⟩)

/-! The Engine's step completes a command in flight. -/

/-- A command that reads no read-sensitive byte ends in a state. -/
theorem exec_answers {i : Instr} {s : State} (h : readsSensitive i s.snap s.platform = false) : ∃ t, exec i s = .next t := by
  rcases exec_cases i s with ⟨f, -, e⟩ | ⟨-, hr, -⟩ | ⟨-, e⟩
  · exact ⟨_, e⟩
  · exact absurd (h.symm.trans hr) Bool.false_ne_true
  · exact ⟨_, e⟩

theorem engineStep_answers {s : State} (hb : s.busy = true)
    (h : ∀ i, decode s.snap.cmd = .command i → readsSensitive i s.snap s.platform = false) : ∃ t, engineStep s = .next t := by
  cases hd : decode s.snap.cmd with
  | illegal why => exact ⟨_, engineStep_of_illegal hb hd⟩
  | command i => exact engineStep_of_command hb hd ▸ exec_answers (h i hd)

/-- From the invariant, the completion of a command in flight is a success without a report or an error with one. -/
theorem Inv.engineStep_completes {s t : State} (h : Inv s) (hb : s.busy = true) (e : engineStep s = .next t) :
    t.busy = false ∧ (t.done = true ∧ t.error = false ∧ ReportEmpty t ∨
      t.done = false ∧ t.error = true ∧ ReportOfTable t ∧ t.mem = s.mem) := by
  obtain ⟨hdone, herror⟩ := h.status.2 hb
  rcases engineStep_cases e with ⟨hidle, -⟩ | ⟨-, f, hf, rfl⟩ | ⟨-, i, -, -, rfl⟩
  · exact absurd (hidle.symm.trans hb) Bool.false_ne_true
  · exact ⟨rfl, .inr ⟨hdone, rfl, ⟨f.check, rfl, rfl, hf⟩, rfl⟩⟩
  · obtain ⟨hcode, hcheck, hslot⟩ := h.report.2.1 (.inl hb)
    refine ⟨rfl, .inl ⟨rfl, (execute_error _ s).trans herror, ?_⟩⟩
    exact ⟨(execute_errCode _ s).trans hcode, (execute_errCheck _ s).trans hcheck, (execute_errSlot _ s).trans hslot⟩

/-- Settles O36: the Engine's turn answers a state, and that is a completion. -/
theorem commandInFlightCompletes : Obligations.CommandInFlightCompletes := by
  unfold Obligations.CommandInFlightCompletes
  intro s h hb hev hsens
  have htail : Inv { s with events := s.events.tail } := ⟨h.status, h.report, h.memory, h.hazard⟩
  obtain ⟨t, e⟩ := engineStep_answers (s := { s with events := s.events.tail }) hb hsens
  exact ⟨t, (step_of_engine_turn hb hev).trans e, htail.engineStep_completes hb e⟩

theorem togetherStep_of_next {s u : State} (h : hostStep s = .next u) :
    togetherStep s = if s.busy then engineStep u else .next u := by
  simp only [togetherStep, h]

/-- A STATUS write together with the completion of a command in flight: the command ends in the state after the write (10_state.md
R27; log 15). -/
theorem step_of_together_status_write {s : State} {rest : List Event} {v : Word} {i : Instr} (hev : s.events = .together :: rest)
    (hb : s.busy = true) (hl : s.script[s.line]? = some (.wr 32 0x00C v)) (hd : decode s.snap.cmd = .command i) :
    step s = exec i (nextLine (writeStatus v { s with events := rest })) := by
  have hhost : hostStep { s with events := rest } = .next (nextLine (writeStatus v { s with events := rest })) :=
    (hostStep_of_line (s := { s with events := rest }) hl).trans (hostExec_wr_of_aligned (by decide) (by decide) v _)
  rw [step_of_event hev, eventStep, togetherStep_of_next hhost, if_pos hb]
  exact engineStep_of_command hb hd

/-- Settles O37: the completion sets DONE or ERROR after the write has cleared it. -/
theorem completionWinsOverClear : Obligations.CompletionWinsOverClear := by
  unfold Obligations.CompletionWinsOverClear
  intro s rest v i hev hb hl hd
  rw [step_of_together_status_write hev hb hl hd]
  exact ⟨fun hruns => ⟨_, exec_of_runs hruns, rfl, rfl⟩, fun f hf => ⟨_, exec_of_check_some hf, rfl, rfl⟩⟩

/-! What stays fixed while a command is in flight (10_state.md R40, 20_memory.md R68). -/

theorem writeReg_platform (r : Reg) (v : Word) (s : State) : (writeReg r v s).platform = s.platform := by
  cases r with
  | ctrl =>
    rw [writeReg_ctrl]
    cases h1 : v.getLsbD 1 with
    | true => rw [writeCtrl_softReset s h1, resetEngine_platform]
    | false =>
      cases h0 : v.getLsbD 0 with
      | false => rw [writeCtrl_no_request s h1 h0]
      | true =>
        cases hb : s.busy with
        | true => rw [writeCtrl_start_busy h1 h0 hb]
        | false => rw [writeCtrl_start_idle h1 h0 hb, accept_platform]
  | _ => rfl

theorem hostStep_platform {s t : State} (e : hostStep s = .next t) : t.platform = s.platform := by
  rcases hostStep_cases e with rfl | ⟨h, -, e⟩
  · rfl
  · rcases hostExec_cases e with ⟨off, v, -, rfl⟩ | ⟨n, a, v, -, -, rfl⟩ | ⟨l, b, d, rfl⟩
    · exact writeReg_platform (regAt off) v s
    · rfl
    · rfl

theorem engineStep_platform {s t : State} (e : engineStep s = .next t) : t.platform = s.platform := by
  rcases engineStep_cases e with ⟨-, rfl⟩ | ⟨-, f, -, rfl⟩ | ⟨-, i, -, -, rfl⟩
  · rfl
  · rfl
  · exact execute_platform _ s

/-- After the Engine's step no command is in flight. -/
theorem engineStep_idle {s t : State} (e : engineStep s = .next t) : t.busy = false := by
  rcases engineStep_cases e with ⟨hidle, rfl⟩ | ⟨-, f, -, rfl⟩ | ⟨-, i, -, -, rfl⟩
  · exact hidle
  · rfl
  · rfl

/-- Settles O59: by the agents that move in the step. The Host keeps both while the command stays in flight, the Engine ends the
command, and the platform may not change its restrictions. -/
theorem snapshotAndAdmitFixedInFlight : Obligations.SnapshotAndAdmitFixedInFlight := by
  unfold Obligations.SnapshotAndAdmitFixedInFlight
  intro s t hb e
  have ended : t.busy = false → t.busy = true → t.snap = s.snap := fun h ht =>
    absurd (h.symm.trans ht) Bool.false_ne_true
  rcases step_cases e with ⟨-, et⟩ | et | ⟨-, u, eu, ⟨-, et⟩ | ⟨hidle, -⟩⟩ | ⟨-, rfl⟩ | ⟨p, hidle, -⟩
  · exact ⟨(hostStep_platform et :), (hostStep_snap et hb :)⟩
  · exact ⟨(engineStep_platform et :), ended (engineStep_idle et)⟩
  · exact ⟨(engineStep_platform et).trans (hostStep_platform eu :), ended (engineStep_idle et)⟩
  · exact absurd (hidle.symm.trans hb) Bool.false_ne_true
  · exact ⟨resetEngine_platform _, ended rfl⟩
  · exact absurd (hidle.symm.trans hb) Bool.false_ne_true

/-! Which dtypes and ranks a start reports (30_encoding.md R95). -/

/-- A start reports a check exactly when it is violated and no earlier one is (60_exceptions.md R175). -/
theorem check_reports_iff {i : Instr} {c : Snapshot} {p : Platform} {k : CheckId} :
    (∃ f, check i c p = some f ∧ f.check = k) ↔
      (∃ f, Violates i c p f ∧ f.check = k) ∧ ∀ g, Violates i c p g → k.position ≤ g.check.position := by
  have hfirst := check_firstOf i c p
  constructor
  · rintro ⟨f, hf, rfl⟩
    obtain ⟨hV, hbefore⟩ := (hfirst.eq_some_iff f).mp hf
    refine ⟨⟨f, hV, rfl⟩, fun g hg => ?_⟩
    rcases eq_or_ne g f with rfl | hne
    · exact le_rfl
    · rcases hbefore g hg hne with h | ⟨h, -⟩
      · exact h.le
      · exact (congrArg CheckId.position h).le
  · rintro ⟨⟨f, hV, rfl⟩, hmin⟩
    cases hc : check i c p with
    | none => exact absurd hV (hfirst.eq_none_iff.mp hc f)
    | some g =>
      obtain ⟨hgV, hbefore⟩ := (hfirst.eq_some_iff g).mp hc
      refine ⟨g, rfl, ?_⟩
      rcases eq_or_ne f g with rfl | hne
      · rfl
      · rcases hbefore f hV hne with h | ⟨h, -⟩
        · exact absurd (hmin g hgV) h.not_ge
        · exact h

/-- A check of the used slots is violated exactly when not every one passes it. -/
theorem exists_violates_iff {i : Instr} {c : Snapshot} {p : Platform} {k : CheckId} {ok : SlotRole → Prop}
    (hV : ∀ n : BitVec 3, Violates i c p ⟨k, n⟩ ↔ ∃ r ∈ roles i, n.toNat = r.slot.val ∧ ¬ ok r) :
    (∃ f, Violates i c p f ∧ f.check = k) ↔ ¬ ∀ r ∈ roles i, ok r := by
  constructor
  · rintro ⟨⟨_, n⟩, hf, rfl⟩ hall
    obtain ⟨r, hr, -, hbad⟩ := (hV n).mp hf
    exact hbad (hall r hr)
  · intro hnot
    obtain ⟨r, hr, hbad⟩ : ∃ r ∈ roles i, ¬ ok r := by simpa using hnot
    exact ⟨failAt k r.slot, (hV _).mpr ⟨r, hr, Nat.mod_eq_of_lt (by omega), hbad⟩, rfl⟩

/-- The dtypes that the roles allow are those of the table (30_encoding.md R94, R95). -/
theorem dtypesOfTable_iff {i : Instr} {c : Snapshot} : DtypesOfTable i c ↔ ∀ r ∈ roles i, dtypeAllowed c r = true := by
  simp only [dtypeAllowed_iff]
  cases i <;> simp [roles, DtypesOfTable, DType.code, Snapshot.slot, Slots.get]

theorem ranksOfTable_iff {i : Instr} {c : Snapshot} : RanksOfTable i c ↔ ∀ r ∈ roles i, RankFits c r := by
  cases i <;> simp [roles, RanksOfTable, RankFits, Snapshot.slot, Slots.get, ← BitVec.toNat_inj]

theorem violates_dtype_iff {i : Instr} {c : Snapshot} {p : Platform} :
    (∃ f, Violates i c p f ∧ f.check = .dtypeNotAllowed) ↔ ¬ DtypesOfTable i c := by
  rw [dtypesOfTable_iff]
  exact exists_violates_iff fun n => by simp [Violates, dtypeAllowed_iff]

theorem violates_rank_iff {i : Instr} {c : Snapshot} {p : Platform} :
    (∃ f, Violates i c p f ∧ f.check = .rankNotAllowed) ↔ ¬ RanksOfTable i c := by
  rw [ranksOfTable_iff]
  exact exists_violates_iff fun n => .rfl

/-- The dtype check is the first that a command can violate (60_exceptions.md R175). -/
theorem reports_dtype_iff {i : Instr} {c : Snapshot} {p : Platform} :
    (∃ f, check i c p = some f ∧ f.check = .dtypeNotAllowed) ↔ ¬ DtypesOfTable i c := by
  rw [check_reports_iff, violates_dtype_iff]
  exact and_iff_left fun g hg => position_of_violates hg

/-- The rank check comes next after the dtype check (60_exceptions.md R175). -/
theorem reports_rank_iff {i : Instr} {c : Snapshot} {p : Platform} :
    (∃ f, check i c p = some f ∧ f.check = .rankNotAllowed) ↔ DtypesOfTable i c ∧ ¬ RanksOfTable i c := by
  have hdtype : (∀ g, Violates i c p g → CheckId.rankNotAllowed.position ≤ g.check.position) ↔ DtypesOfTable i c := by
    rw [← not_iff_not (b := DtypesOfTable i c), ← violates_dtype_iff (p := p)]
    constructor
    · intro h
      obtain ⟨g, hg, hlt⟩ : ∃ g, Violates i c p g ∧ g.check.position < 4 := by simpa [CheckId.position] using h
      exact ⟨g, hg, CheckId.position_injective (Nat.le_antisymm (Nat.le_of_lt_succ hlt) (position_of_violates hg))⟩
    · rintro ⟨g, hg, hk⟩ h
      have := h g hg
      rw [hk] at this
      exact absurd this (by decide)
  rw [check_reports_iff, violates_rank_iff, hdtype, and_comm]

/-- Settles O22: the table is `roles` written out, and the dtype and rank checks come first. -/
theorem slotRolesAreTheTable : Obligations.SlotRolesAreTheTable := by
  unfold Obligations.SlotRolesAreTheTable
  exact ⟨by decide, fun i c p => ⟨rfl, rfl, reports_dtype_iff, reports_rank_iff⟩⟩

end Sys2Proof.Machine
end

section
/-! The lines of a Host script (30_encoding.md R103, R104) and the Host's accesses to data memory (20_memory.md R60, R61, R78,
R79). -/

namespace Sys2Proof.Machine

/-! Poll, label and goto (30_encoding.md R103). -/

theorem hostExec_poll_of_aligned {off : Nat} (h : off < 4096) (h4 : off % 4 = 0) (mask v : Word) (s : State) :
    hostExec (.poll off mask v) s = .next (if readReg (regAt off) s &&& mask = v then nextLine s else s) :=
  withReg_of_aligned h h4 fun r => .next (hostPoll r mask v s)

/-- Settles O40: each line by its condition, the goto by the first line of the label. -/
theorem scriptControlFlow : Obligations.ScriptControlFlow := by
  unfold Obligations.ScriptControlFlow
  intro s off mask v name hi lo value l n w newer older
  refine ⟨fun h h4 => ?_, rfl, fun hs hnew => ?_⟩
  · rw [hostExec_poll_of_aligned h h4]
    exact ⟨fun hv => by rw [if_pos hv]; rfl, fun hv => by rw [if_neg hv]⟩
  · have hbound : boundTo name s = some w := boundTo_eq_some hs hnew
    refine ⟨fun hv hn hfirst => ?_, fun hv => ?_⟩
    · have hgoto : lineOfLabel s.script l = some n := lineOfLabel_eq_some hn hfirst
      simp only [hostExec, hostIf, hbound, fieldOf, hv, if_true, hostGoto, hgoto]
    · simp only [hostExec, hostIf, hbound, fieldOf, hv, if_false, nextLine]

/-! The pseudo-instruction `desc` (30_encoding.md R104). -/

theorem hostRun_wrReg (r : Reg) (v : Word) (hs : List HostInstr) (s : State) :
    hostRun (wrReg r v :: hs) s = hostRun hs (nextLine (writeReg r v s)) := by
  have hr := r.offset_range
  rw [hostRun, wrReg, hostExec_wr_of_aligned hr.2 hr.1, regAt_offset]

theorem Slots.set_get (ss : Slots) (j : Fin 5) : ss.set j (ss.get j) = ss := by fin_cases j <;> rfl

theorem Slots.set_set (ss : Slots) (j : Fin 5) (t u : Slot) : (ss.set j t).set j u = ss.set j u := by fin_cases j <;> rfl

/-- A line that writes a word of slot j goes on from slot j with that word. -/
theorem hostRun_wrReg_slot (j : Fin 5) (w : SlotWord) (v : Word) (hs : List HostInstr) (s : State) (t : Slot) (l : Nat) :
    hostRun (wrReg (.slot j w) v :: hs) { s with slots := s.slots.set j t, line := l } =
      hostRun hs { s with slots := s.slots.set j (t.setWord w v), line := l + 1 } := by
  rw [hostRun_wrReg, writeReg, Slots.get_set_same, Slots.set_set]
  rfl

theorem descValue_fields : ∀ (r : BitVec 2) (c : BitVec 4),
    ((r.setWidth 32 <<< 4) ||| c.setWidth 32).extractLsb' 0 4 = c ∧
      ((r.setWidth 32 <<< 4) ||| c.setWidth 32).extractLsb' 4 2 = r := by decide +kernel

theorem addr_halves (a : BitVec 64) : (a.extractLsb' 32 32).toNat * 2 ^ 32 + (a.extractLsb' 0 32).toNat = a.toNat := by
  have := a.isLt
  simp only [BitVec.extractLsb'_toNat, Nat.shiftRight_eq_div_pow]
  omega

/-- Settles O41: each of the six lines sets one word of the slot. -/
theorem descProgramsSlot : Obligations.DescProgramsSlot := by
  unfold Obligations.DescProgramsSlot
  refine ⟨rfl, fun s j addr dt r d0 d1 d2 => ?_⟩
  obtain ⟨hdtype, hrank⟩ := descValue_fields r (codeOfName dt)
  refine ⟨⟨addr.extractLsb' 0 32, addr.extractLsb' 32 32, codeOfName dt, r, d0, d1, d2⟩, ?_, addr_halves addr, rfl, rfl, rfl, rfl,
    rfl⟩
  have hstart : s = { s with slots := s.slots.set j (s.slots.get j), line := s.line } := by rw [Slots.set_get]
  conv_lhs => rw [hstart]
  simp only [scriptDesc, hostRun_wrReg_slot, Slot.setWord, hdtype, hrank]
  rfl

/-! Host stores and loads (20_memory.md R61, R78, R79). -/

/-- Settles O42: by the rules of wide writes; 256^n is 2^(8n). -/
theorem memoryAccessIsLittleEndian : Obligations.MemoryAccessIsLittleEndian := by
  unfold Obligations.MemoryAccessIsLittleEndian
  intro m a n v hm
  have hpow : ∀ k, 256 ^ k = 2 ^ (8 * k) := fun k => (pow_mul 2 8 k).symm
  refine ⟨?_, fun i hi => ?_, fun b hb => memWrite_read_other m a n v hb, memWrite_wf hm a n v⟩
  · rw [memRead_memWrite hm, hpow]
  · rw [memWrite_read_byte hm a n v hi, BitVec.toNat_ofNat, hpow]

theorem hostExec_of_isStore {h : HostInstr} {n v : Nat} {a : BitVec 64} (hs : h.IsStore n a v) (s : State) :
    hostExec h s = hostStore n a.toNat v s ∧ v < 256 ^ n := by
  rcases hs with ⟨w, rfl, rfl, rfl⟩ | ⟨w, rfl, rfl, rfl⟩ | ⟨w, rfl, rfl, rfl⟩ <;> exact ⟨rfl, w.isLt⟩

theorem meetsOutput_iff {s : State} {a n : Nat} :
    meetsOutput s a n = true ↔ s.busy = true ∧ ∃ x, (a ≤ x ∧ x < a + n) ∧ InRegion s.snap.slotO x := by
  rw [meetsOutput, Bool.and_eq_true, rangesMeet_iff]

theorem meetsInput_iff {s : State} {a n : Nat} :
    meetsInput s a n = true ↔ s.busy = true ∧ ∃ x, (a ≤ x ∧ x < a + n) ∧
      ∃ i, decode s.snap.cmd = .command i ∧ ∃ j ∈ inputSlots i, InRegion (s.snap.slot j) x := by
  rw [meetsInput, Bool.and_eq_true]
  cases decode s.snap.cmd with
  | illegal why => simp
  | command i =>
    simp only [List.any_eq_true, rangesMeet_iff, Decoded.command.injEq, exists_eq_left']
    refine and_congr_right fun _ => ?_
    constructor
    · rintro ⟨j, hj, x, hx, hin⟩
      exact ⟨x, hx, j, hj, hin⟩
    · rintro ⟨x, hx, j, hj, hin⟩
      exact ⟨j, hj, x, hx, hin⟩

/-- Settles O38: a store is a wide write, and the hazard flag is set by the two tests of regions. -/
theorem hostStoreMarksHazard : Obligations.HostStoreMarksHazard := by
  unfold Obligations.HostStoreMarksHazard
  intro s h n a v hm hs
  obtain ⟨hexec, hv⟩ := hostExec_of_isStore hs s
  refine ⟨fun hin => ?_, fun hout => ?_⟩
  · refine ⟨memWrite s.mem a.toNat n v, s.tainted || meetsInput s a.toNat n || meetsOutput s a.toNat n, ?_, ?_,
      fun x hx => memWrite_read_other _ _ _ _ hx, ?_⟩
    · exact hexec.trans (if_pos hin)
    · rw [memRead_memWrite hm, Nat.mod_eq_of_lt hv]
    · rw [Bool.or_eq_true, Bool.or_eq_true, meetsInput_iff, meetsOutput_iff, or_assoc, ← and_or_left, ← exists_or]
      simp only [← and_or_left, and_assoc, or_comm]
  · exact hexec.trans (if_neg (Nat.not_le.mpr hout))

theorem hostByte_eq (s : State) (a : Nat) :
    hostByte s a =
      if s.busy = true ∧ InRegion s.snap.slotO a then Config.freeByte s.draws a else s.mem.read a := by
  have hone : meetsOutput s a 1 = true ↔ s.busy = true ∧ InRegion s.snap.slotO a := by
    rw [meetsOutput_iff]
    refine and_congr_right fun _ => ⟨?_, fun h => ⟨a, by omega, h⟩⟩
    rintro ⟨x, hx, h⟩
    obtain rfl : x = a := by omega
    exact h
  simp only [hostByte, hone]

/-- The bytes of what the Host reads, little-endian (20_memory.md R61). -/
theorem hostRead_byte (s : State) (a : Nat) {n k : Nat} (h : k < n) :
    hostRead s a n / 256 ^ k % 256 = (hostByte s (a + k)).toNat := by
  induction n generalizing a k with
  | zero => omega
  | succ n ih =>
    have hbyte := (hostByte s a).isLt
    cases k with
    | zero =>
      simp only [hostRead, Nat.pow_zero, Nat.div_one, Nat.add_zero]
      omega
    | succ k =>
      have hnext := ih (a + 1) (Nat.lt_of_succ_lt_succ h)
      rw [Nat.add_right_comm, Nat.add_assoc] at hnext
      rw [← hnext, hostRead, Nat.pow_succ', ← Nat.div_div_eq_div_mul]
      congr 2
      omega

theorem hostRead_lt (s : State) (a n : Nat) : hostRead s a n < 256 ^ n := by
  induction n generalizing a with
  | zero => exact Nat.one_pos
  | succ n ih =>
    have hbyte := (hostByte s a).isLt
    have := ih (a + 1)
    rw [hostRead, Nat.pow_succ']
    omega

/-- Settles O39: each byte of the bound word is the byte that the Host reads there. -/
theorem hostLoadDuringCommand : Obligations.HostLoadDuringCommand := by
  unfold Obligations.HostLoadDuringCommand
  intro s a name hin hsens
  have hlt : hostRead s a.toNat 4 < 2 ^ 32 := hostRead_lt s a.toNat 4
  have hnot : ¬ rangeSensitive s.platform a.toNat 4 = true := by simp [hsens]
  refine ⟨_, BitVec.ofNat 32 (hostRead s a.toNat 4), (if_pos hin).trans (if_neg hnot), rfl, rfl, fun k hk => ?_⟩
  rw [BitVec.toNat_ofNat, Nat.mod_eq_of_lt hlt, hostRead_byte s a.toNat hk, hostByte_eq]

end Sys2Proof.Machine
end

section
/-! The elements of a slot in row-major order (20_memory.md R62 to R67). -/

namespace Sys2Proof.Machine

/-! Element sizes (20_memory.md R62, 30_encoding.md R94). -/

theorem Slot.esize_of_code {t : Slot} {d : DType} (h : t.dtype = d.code) : t.esize = d.esize := by
  rw [Slot.esize, h]
  cases d <;> rfl

/-! The elements tile the region (20_memory.md R63 to R66). -/

/-- Each byte of the region lies in an element. -/
theorem Slot.exists_ea_of_inRegion {t : Slot} {a : Nat} (h : InRegion t a) :
    ∃ idx, validIdx t.dims idx = true ∧ t.ea idx ≤ a ∧ a < t.ea idx + t.esize := by
  obtain ⟨hlo, hhi⟩ := h
  have hoff : a - t.addr < t.esize * prod t.dims := by
    rw [Slot.bytes, Slot.count] at hhi
    omega
  have hpos : 0 < t.esize := Nat.pos_of_ne_zero fun hz => by simp [hz] at hoff
  obtain ⟨idx, hidx, hlin⟩ := lin_surjective (Nat.div_lt_of_lt_mul hoff)
  have hdiv := Nat.div_add_mod (a - t.addr) t.esize
  have hmod := Nat.mod_lt (a - t.addr) hpos
  refine ⟨idx, hidx, ?_⟩
  rw [Slot.ea, hlin]
  omega

theorem Slot.ea_aligned {t : Slot} (h : t.addr % t.esize = 0) (idx : List Nat) : t.ea idx % t.esize = 0 := by
  rw [Slot.ea, Nat.add_mul_mod_self_left, h]

/-! Row-major order by rank (20_memory.md R63, R64, R67). -/

section
variable {t : Slot}

theorem Slot.rowMajor_rank_one (h : t.rank = 1#2) :
    t.last = t.dim0.toNat ∧ t.bytes = t.esize * t.dim0.toNat ∧ ∀ i, t.ea [i] = t.addr + t.esize * i := by
  have hdims := Slot.dims_rank_one (t := t) (by rw [h]; rfl)
  simp [Slot.last, Slot.bytes, Slot.count, Slot.ea, hdims, prod, lin]

theorem Slot.rowMajor_rank_two (h : t.rank = 2#2) :
    t.last = t.dim1.toNat ∧ t.bytes = t.esize * (t.dim0.toNat * t.dim1.toNat) ∧
      ∀ i j, t.ea [i, j] = t.addr + t.esize * (i * t.dim1.toNat + j) := by
  have hdims := Slot.dims_rank_two (t := t) (by rw [h]; rfl)
  simp [Slot.last, Slot.bytes, Slot.count, Slot.ea, hdims, prod, lin]

theorem Slot.rowMajor_rank_three (h : t.rank = 3#2) :
    t.last = t.dim2.toNat ∧ t.bytes = t.esize * (t.dim0.toNat * t.dim1.toNat * t.dim2.toNat) ∧
      ∀ i j k, t.ea [i, j, k] = t.addr + t.esize * ((i * t.dim1.toNat + j) * t.dim2.toNat + k) := by
  have hdims := Slot.dims_rank_three (t := t) (by rw [h]; rfl)
  refine ⟨?_, ?_, fun i j k => ?_⟩
  · simp [Slot.last, hdims]
  · simp only [Slot.bytes, Slot.count, hdims, prod]
    ring
  · simp only [Slot.ea, hdims, prod, lin]
    ring

end

/-- The next last index is the next linear index (20_memory.md R63). -/
theorem lin_succ {ds lead : List Nat} {k : Nat} (h : validIdx ds (lead ++ [k + 1]) = true) :
    lin ds (lead ++ [k + 1]) = lin ds (lead ++ [k]) + 1 := by
  induction lead generalizing ds with
  | nil =>
    match ds, h with
    | [d], _ => simp [lin, prod]
    | [], h => cases h
    | _ :: _ :: _, h => simp [validIdx] at h
  | cons i lead ih =>
    cases ds with
    | nil => cases h
    | cons d ds =>
      rw [List.cons_append, validIdx_cons] at h
      simp only [List.cons_append, lin, ih h.2, Nat.add_assoc]

theorem Slot.ea_succ {t : Slot} {lead : List Nat} {k : Nat} (h : validIdx t.dims (lead ++ [k + 1]) = true) :
    t.ea (lead ++ [k + 1]) = t.ea (lead ++ [k]) + t.esize := by
  rw [Slot.ea, Slot.ea, lin_succ h, Nat.mul_succ, Nat.add_assoc]

/-- A `[N, KB, BS]` tensor and its flattening `[N, KB*BS]` have the same elements (20_memory.md R63). -/
theorem Slot.ea_flatten {t u : Slot} (ht : t.rank = 3#2) (hu : u.rank = 2#2) (haddr : u.addr = t.addr) (hdt : u.dtype = t.dtype)
    (hdim : u.dim1.toNat = t.dim1.toNat * t.dim2.toNat) (n kb j : Nat) :
    t.ea [n, kb, j] = u.ea [n, kb * t.dim2.toNat + j] := by
  obtain ⟨-, -, ht3⟩ := Slot.rowMajor_rank_three ht
  obtain ⟨-, -, hu2⟩ := Slot.rowMajor_rank_two hu
  have hesize : u.esize = t.esize := by rw [Slot.esize, Slot.esize, hdt]
  rw [ht3, hu2, haddr, hesize, hdim]
  ring

/-- Settles O43: by the linear index, a bijection between index tuples and element numbers. -/
theorem elementsTileTheirRegion : Obligations.ElementsTileTheirRegion := by
  unfold Obligations.ElementsTileTheirRegion
  intro t
  refine ⟨⟨Slot.esize_of_code (d := .f32), Slot.esize_of_code (d := .f16), Slot.esize_of_code (d := .i8),
      Slot.esize_of_code (d := .u8)⟩, fun idx jdx hi hj => ⟨t.ea_in_region hi, t.ea_disjoint hi hj, fun h => t.ea_aligned h idx⟩,
    fun a => Slot.exists_ea_of_inRegion, Slot.rowMajor_rank_one, Slot.rowMajor_rank_two, Slot.rowMajor_rank_three,
    fun lead k => Slot.ea_succ, fun u => Slot.ea_flatten⟩

end Sys2Proof.Machine
end

section
/-! Rounding, and the special values of products and sums (40_numerics.md R114 to R118). -/

namespace Sys2Proof.Machine

/-- Settles O44: what `roundMag` keeps and rounds is the nearest multiple of its unit. -/
theorem roundingIsNearestEven : Obligations.RoundingIsNearestEven := roundMag_isNearestEven

theorem mul32_nan_right (x : F32) : mul32 x .nan = .nan := by cases x <;> rfl

theorem add32_nan_right (x : F32) : add32 x .nan = .nan := by cases x <;> rfl

theorem mul32_inf_fin (a b : Bool) {m : Nat} (h : m ≠ 0) :
    mul32 (.inf a) (.fin b m) = .inf (a ^^ b) ∧ mul32 (.fin b m) (.inf a) = .inf (b ^^ a) :=
  ⟨if_neg h, if_neg h⟩

/-- A finite product has the xor of the signs, an overflowing one too (40_numerics.md R115). -/
theorem mul32_fin_sign (a b : Bool) (m n : Nat) :
    mul32 (.fin a m) (.fin b n) = .inf (a ^^ b) ∨ ∃ k, mul32 (.fin a m) (.fin b n) = .fin (a ^^ b) k := by
  by_cases h : roundMag (m * n) 149 < f32Limit
  · exact .inr ⟨_, if_pos h⟩
  · exact .inl (if_neg h)

/-- Infinities of opposite signs cancel to NaN, of one sign add up (40_numerics.md R116). -/
theorem add32_inf_inf (a b : Bool) : add32 (.inf a) (.inf b) = if a = b then .inf a else .nan := rfl

/-- Settles O46: each is one case of `mul32` or `add32`, and the product of finite operands one rounding. -/
theorem specialValuesOfArithmetic : Obligations.SpecialValuesOfArithmetic := by
  unfold Obligations.SpecialValuesOfArithmetic
  intro x a b m n
  have hopposite : add32 (.inf a) (.inf (!a)) = .nan := (add32_inf_inf a (!a)).trans (if_neg (by simp))
  have hsame : add32 (.inf a) (.inf a) = .inf a := (add32_inf_inf a a).trans (if_pos rfl)
  exact ⟨rfl, mul32_nan_right x, rfl, rfl, mul32_inf_fin a b, rfl, mul32_fin_sign a b m n, rfl, add32_nan_right x,
    hopposite, hsame, rfl, rfl, fun _ => add32_cancel a m, rfl, rfl, rfl, rfl⟩

end Sys2Proof.Machine
end
